-- ==== Sys2Proof/Word.lean ====
section
/-! DEFINITION. The words of the engine: the plain types that every other file uses.
Widths are those of rule R7 (00_scope.md) and of the register rules R22 to R43 (10_state.md). -/

namespace Sys2Proof

/-- One byte of a memory or of a payload (R64). -/
abbrev Byte := BitVec 8

/-- A Symbol, "one byte value (0–255)"; `SYMW` = 8 (R7). -/
abbrev Symbol := BitVec 8

/-- A frequency count `FREQ[s]`; `CNTW` = 32 (R7, R22). -/
abbrev Count := BitVec 32

/-- A node frequency `NODE[i].F`; `FW` = 40 (R7, R24). -/
abbrev Freq := BitVec 40

/-- A node index; `IDXW` = 9 (R7, R24). Index 511 is not a node. -/
abbrev NodeIdx := BitVec 9

/-- A command word; `CMDW` = 48 (R7, R90). -/
abbrev CmdWord := BitVec 48

/-- The data half of a response word (R93). -/
abbrev Data := BitVec 64

/-- A bit-string, first bit first (R9). Rule R33 allows a model to hold every bit-string this way. -/
abbrev BitString := List Bool

end Sys2Proof
end

