-- ==== Sys2Proof/Syntax.lean ====
section
/-! DEFINITION. The 29 commands of the opcode map (R95, 30_encoding.md), one constructor per row of
spec/opcode_table.json. Operands have exactly the width of their field (R92), so every value a field can hold
is an operand and no other; the one check left is `RDSR`'s (R96), in WellFormed.lean. -/

namespace Sys2Proof

/-- A command (R95). A bit operand is a `Bool`, `true` for 1. -/
inductive Instr where
  /-- `NOP` (R240) -/
  | nop
  /-- `CLR` (R241) -/
  | clr
  /-- `RDSR n` (R242) -/
  | rdsr (n : BitVec 8)
  /-- `FCLR` (R120) -/
  | fclr
  /-- `LDF s, n` (R121) -/
  | ldf (x : Symbol) (n : Count)
  /-- `RDF s` (R122) -/
  | rdf (x : Symbol)
  /-- `BUILD` (R123) -/
  | build
  /-- `RDN i` (R131) -/
  | rdn (j : NodeIdx)
  /-- `RDNF i` (R132) -/
  | rdnf (j : NodeIdx)
  /-- `GEN` (R150) -/
  | gen
  /-- `RDCL s` (R154) -/
  | rdcl (x : Symbol)
  /-- `RDCW s, w` (R155) -/
  | rdcw (x : Symbol) (w : BitVec 2)
  /-- `TCLR` (R156) -/
  | tclr
  /-- `TSYM s` (R157) -/
  | tsym (x : Symbol)
  /-- `TBIT b` (R158) -/
  | tbit (b : Bool)
  /-- `TEND` (R159) -/
  | tend
  /-- `TCHK` (R160) -/
  | tchk
  /-- `PINIT` (R180) -/
  | pinit
  /-- `PBIT b` (R181) -/
  | pbit (b : Bool)
  /-- `ENC s` (R183) -/
  | enc (x : Symbol)
  /-- `PFLUSH` (R184) -/
  | pflush
  /-- `RDP a` (R185) -/
  | rdp (a : BitVec 32)
  /-- `UINIT m` (R200); `m` = 0 unpack only, 1 unpack and decode -/
  | uinit (m : Bool)
  /-- `UBYTE v` (R202) -/
  | ubyte (v : Byte)
  /-- `UEND` (R203) -/
  | uend
  /-- `DINIT` (R220) -/
  | dinit
  /-- `DBIT b` (R221) -/
  | dbit (b : Bool)
  /-- `DEND` (R223) -/
  | dend
  /-- `RDO a` (R225) -/
  | rdo (a : BitVec 32)
  deriving DecidableEq, Repr

end Sys2Proof
end

