-- ==== Sys2Proof/WellFormed.lean ====
section
/-! DEFINITION. Which terms of `Instr` are commands. Operand widths are enforced by the types; the one check left
is the number of a status register. -/

namespace Sys2Proof

/-- "Numbers 12 to 255 are not implemented": `RDSR n` with `n >= 12` is illegal (R46, R96). -/
def Instr.wellFormed : Instr → Bool
  | .rdsr n => decide (n.toNat < 12)
  | .nop | .clr | .fclr | .ldf _ _ | .rdf _ | .build | .rdn _ | .rdnf _ | .gen | .rdcl _ | .rdcw _ _
  | .tclr | .tsym _ | .tbit _ | .tend | .tchk | .pinit | .pbit _ | .enc _ | .pflush | .rdp _
  | .uinit _ | .ubyte _ | .uend | .dinit | .dbit _ | .dend | .rdo _ => true

end Sys2Proof
end

