-- ==== Sys2Proof/Decode.lean ====
section
/-! DEFINITION. Decoding and encoding a command word (30_encoding.md, rules R90 to R103). The table `opcodeTable`
is the opcode map of R95; `decode` is the algorithm of R103, total on all 2^48 words; `encode` writes each
command's word from the same formats (R91). -/

namespace Sys2Proof

/-- Why a word is illegal (R96): who rejects it is the decoder, the engine then raises `E_ILL` (R258). -/
inductive Illegal where
  /-- the opcode is not one of the 29 listed -/
  | unusedOpcode
  /-- a reserved bit of the format is 1 -/
  | reservedBit
  /-- `RDSR n` with `n >= 12` -/
  | noSuchStatusRegister
  deriving DecidableEq, Repr

/-- The seven formats of R91. -/
inductive Format where
  | Z | A | B1 | B9 | B32 | AB32 | AB2
  deriving DecidableEq, Repr

/-- The mask of a format (R91): the bits that are not operand. -/
def Format.mask : Format → CmdWord
  | .Z    => 0xFFFFFFFFFFFF#48
  | .A    => 0xFF00FFFFFFFF#48
  | .B1   => 0xFFFFFFFFFFFE#48
  | .B9   => 0xFFFFFFFFFE00#48
  | .B32  => 0xFFFF00000000#48
  | .AB32 => 0xFF0000000000#48
  | .AB2  => 0xFF00FFFFFFFC#48

/-- `OPC = W[47:40]` (R90). -/
def opcOf (w : CmdWord) : BitVec 8 := w.extractLsb' 40 8
/-- `A = W[39:32]` (R90): a Symbol, a payload byte or a status-register number. -/
def fieldA (w : CmdWord) : BitVec 8 := w.extractLsb' 32 8
/-- `B = W[31:0]` (R90): a count or an address. -/
def fieldB (w : CmdWord) : BitVec 32 := w.extractLsb' 0 32
/-- `i = W[8:0]` (R92). -/
def fieldI (w : CmdWord) : BitVec 9 := w.extractLsb' 0 9
/-- `w = W[1:0]` (R92). -/
def fieldW (w : CmdWord) : BitVec 2 := w.extractLsb' 0 2
/-- `b = W[0]` (R92). -/
def fieldBit (w : CmdWord) : Bool := w.getLsbD 0

/-- One row of the opcode map (R95): the opcode, its format and how R92 assembles the operands. -/
structure OpRow where
  opcode   : BitVec 8
  format   : Format
  operands : CmdWord → Instr

/-- `match` of a row: "the opcode shifted left by 40 bits" (R91). -/
def OpRow.matchWord (r : OpRow) : CmdWord := r.opcode ++ 0#40

/-- Control and Tree Builder rows of R95. -/
def controlAndTreeRows : List OpRow :=
  [ ⟨0x00#8, .Z, fun _ => .nop⟩,
    ⟨0x01#8, .Z, fun _ => .clr⟩,
    ⟨0x02#8, .A, fun w => .rdsr (fieldA w)⟩,
    ⟨0x10#8, .Z, fun _ => .fclr⟩,
    ⟨0x11#8, .AB32, fun w => .ldf (fieldA w) (fieldB w)⟩,
    ⟨0x12#8, .A, fun w => .rdf (fieldA w)⟩,
    ⟨0x13#8, .Z, fun _ => .build⟩,
    ⟨0x14#8, .B9, fun w => .rdn (fieldI w)⟩,
    ⟨0x15#8, .B9, fun w => .rdnf (fieldI w)⟩ ]

/-- Code Table rows of R95. -/
def codeTableRows : List OpRow :=
  [ ⟨0x20#8, .Z, fun _ => .gen⟩,
    ⟨0x21#8, .A, fun w => .rdcl (fieldA w)⟩,
    ⟨0x22#8, .AB2, fun w => .rdcw (fieldA w) (fieldW w)⟩,
    ⟨0x23#8, .Z, fun _ => .tclr⟩,
    ⟨0x24#8, .A, fun w => .tsym (fieldA w)⟩,
    ⟨0x25#8, .B1, fun w => .tbit (fieldBit w)⟩,
    ⟨0x26#8, .Z, fun _ => .tend⟩,
    ⟨0x27#8, .Z, fun _ => .tchk⟩ ]

/-- Bit Packer rows of R95. -/
def packerRows : List OpRow :=
  [ ⟨0x30#8, .Z, fun _ => .pinit⟩,
    ⟨0x31#8, .B1, fun w => .pbit (fieldBit w)⟩,
    ⟨0x32#8, .A, fun w => .enc (fieldA w)⟩,
    ⟨0x33#8, .Z, fun _ => .pflush⟩,
    ⟨0x34#8, .B32, fun w => .rdp (fieldB w)⟩ ]

/-- Bit Unpacker and Decoder rows of R95. -/
def unpackerAndDecoderRows : List OpRow :=
  [ ⟨0x40#8, .B1, fun w => .uinit (fieldBit w)⟩,
    ⟨0x41#8, .A, fun w => .ubyte (fieldA w)⟩,
    ⟨0x42#8, .Z, fun _ => .uend⟩,
    ⟨0x43#8, .Z, fun _ => .dinit⟩,
    ⟨0x44#8, .B1, fun w => .dbit (fieldBit w)⟩,
    ⟨0x45#8, .Z, fun _ => .dend⟩,
    ⟨0x46#8, .B32, fun w => .rdo (fieldB w)⟩ ]

/-- The opcode map of R95, 29 rows. -/
def opcodeTable : List OpRow :=
  controlAndTreeRows ++ codeTableRows ++ packerRows ++ unpackerAndDecoderRows

/-- Decoding a word: steps (1) to (6) of R103. -/
def decode (w : CmdWord) : Except Illegal Instr :=
  match opcodeTable.find? (fun r => r.opcode == opcOf w) with
  | none => .error .unusedOpcode
  | some r =>
    if w &&& r.format.mask = r.matchWord then
      if (r.operands w).wellFormed then .ok (r.operands w) else .error .noSuchStatusRegister
    else .error .reservedBit

/-- A word of three fields, `OPC`, `A`, `B` (R90). -/
def packWord (opc a : BitVec 8) (b : BitVec 32) : CmdWord := opc ++ a ++ b

/-- The bit operand of format `B1` in `B[0]`, the rest 0 (R91). -/
def bitField (b : Bool) : BitVec 32 := (BitVec.ofBool b).setWidth 32

/-- The word of a command, from its format (R91) and opcode (R95). -/
def encode : Instr → CmdWord
  | .nop      => packWord 0x00#8 0#8 0#32
  | .clr      => packWord 0x01#8 0#8 0#32
  | .rdsr n   => packWord 0x02#8 n 0#32
  | .fclr     => packWord 0x10#8 0#8 0#32
  | .ldf x n  => packWord 0x11#8 x n
  | .rdf x    => packWord 0x12#8 x 0#32
  | .build    => packWord 0x13#8 0#8 0#32
  | .rdn j    => packWord 0x14#8 0#8 (j.setWidth 32)
  | .rdnf j   => packWord 0x15#8 0#8 (j.setWidth 32)
  | .gen      => packWord 0x20#8 0#8 0#32
  | .rdcl x   => packWord 0x21#8 x 0#32
  | .rdcw x w => packWord 0x22#8 x (w.setWidth 32)
  | .tclr     => packWord 0x23#8 0#8 0#32
  | .tsym x   => packWord 0x24#8 x 0#32
  | .tbit b   => packWord 0x25#8 0#8 (bitField b)
  | .tend     => packWord 0x26#8 0#8 0#32
  | .tchk     => packWord 0x27#8 0#8 0#32
  | .pinit    => packWord 0x30#8 0#8 0#32
  | .pbit b   => packWord 0x31#8 0#8 (bitField b)
  | .enc x    => packWord 0x32#8 x 0#32
  | .pflush   => packWord 0x33#8 0#8 0#32
  | .rdp a    => packWord 0x34#8 0#8 a
  | .uinit m  => packWord 0x40#8 0#8 (bitField m)
  | .ubyte v  => packWord 0x41#8 v 0#32
  | .uend     => packWord 0x42#8 0#8 0#32
  | .dinit    => packWord 0x43#8 0#8 0#32
  | .dbit b   => packWord 0x44#8 0#8 (bitField b)
  | .dend     => packWord 0x45#8 0#8 0#32
  | .rdo a    => packWord 0x46#8 0#8 a

/-- The word whose bits the host numbers from the opcode table: a command is one 48-bit word, its bit 0 the
least significant (R8, R90); bits above `nbits` are 0. -/
def tableWord (nbits w : Nat) : CmdWord := BitVec.ofNat 48 (w % 2 ^ nbits)

/-- What the decoder reads from the word `w` of `nbits` bits. -/
def decodeTableWord (nbits w : Nat) : Option Instr :=
  match decode (tableWord nbits w) with
  | .ok i => some i
  | .error _ => none

end Sys2Proof
end

