-- ==== Sys2Proof/Config.lean ====
section
/-! DEFINITION. The open parameters of rule R7 (00_scope.md): `PMEM_BYTES`, `OMEM_BYTES`, `KEYLT`, `CHILD`.
They are plain data, so a machine's configuration can stand beside its state (R51: a parameter of the step
function, never written by a command); a statement over every state holds for every admissible value. -/

namespace Sys2Proof

/-- A Key: "the pair `(F, index)` of a node, ordered by `KEYLT`" (glossary of 00_scope.md). -/
structure Key where
  f : Freq
  i : NodeIdx
  deriving DecidableEq, Repr

/-- The parameter `CHILD` (R7, R126; U2): which removed node becomes the left child. -/
inductive Child where
  | firstIsLeft
  | firstIsRight
  deriving DecidableEq, Repr

/-- The open parameters of the engine (R7).
* `pmemLast` is the highest address of `PMEM`, so that `PMEM_BYTES = pmemLast + 1` takes exactly the
  admissible values 1 to 2^32.
* `omemBytes` is `OMEM_BYTES`, 0 to 2^32.
* `ties` is the tie-break of `KEYLT` as a table: a key's rank is its entry, 0 where it has none; among keys of
  equal `F` the smaller rank comes first, and among equal ranks the smaller index. The empty table is the
  spec's default `(F, index)` (R125). See log entry 3.
* `child` is `CHILD`. -/
structure Config where
  pmemLast  : Fin 4294967296
  omemBytes : Fin 4294967297
  ties      : List (Key × Nat)
  child     : Child
  deriving DecidableEq, Repr

/-- `PMEM_BYTES` (R7). -/
def Config.pmemBytes (c : Config) : Nat := c.pmemLast.val + 1

/-- The default parameters, those of the vectors of 95_test_vectors.md:
`KEYLT` = `(F, index)`, `CHILD` = first removed is left, `PMEM_BYTES = OMEM_BYTES = 2^32`. -/
def Config.standard : Config :=
  { pmemLast := 4294967295, omemBytes := 4294967296, ties := [], child := .firstIsLeft }

end Sys2Proof
end

