-- ==== Sys2Proof/Machine/State.lean ====
section
/-! DEFINITION. The state of the engine (10_state.md), as plain data. The complete list of R20 is the six units
`tree`, `table`, `pack`, `unpack`, `dec`, `flt`; beside them stand the two things R51 calls parameters and
inputs of the step function: the configuration `cfg` and the ports `port` (words the host has sent, responses and
`UB` bits the engine has sent). Reset values are those of R50. -/

namespace Sys2Proof.Machine

/-- A file of `n` like registers. The cells are a list and its length a checked fact, so that two register files
are compared cell by cell. -/
structure RegFile (n : Nat) (α : Type) where
  cells : List α
  size  : cells.length = n
  deriving DecidableEq, Repr

/-- A register file that holds `a` everywhere. -/
def RegFile.fill (n : Nat) {α : Type} (a : α) : RegFile n α := ⟨List.replicate n a, List.length_replicate⟩

/-- A byte memory (R36, R41): the bytes that hold something, by address. An address that is not listed holds
nothing: reset gives `PMEM` and `OMEM` no contents (R50, S1). See log entry 5. -/
abbrev Memory := List Host.Cell

/-- An entry of the node store (R24): `V`, `F`, `L`, `R`. -/
structure Node where
  v : Bool
  f : Freq
  l : NodeIdx
  r : NodeIdx
  deriving DecidableEq, Repr

/-- What a node register holds after reset: `V` = 0 (R50); `F`, `L`, `R` are log entry 4's choice. -/
def Node.blank : Node := { v := false, f := 0#40, l := 0#9, r := 0#9 }

/-- Tree Builder state (R22 to R26). `heap` is `HEAP[0 .. HSIZE-1]`; its length is `HSIZE`. -/
structure TreeBuilder where
  freq      : RegFile 256 Count
  treeValid : Bool
  nleaf     : BitVec 9
  root      : NodeIdx
  node      : RegFile 511 Node
  heap      : List NodeIdx
  deriving DecidableEq, Repr

/-- An entry of the Code Table (R30): `V` and `CODE`; `LEN` is the length of `code`. -/
structure CodeEntry where
  v    : Bool
  code : BitString
  deriving DecidableEq, Repr

/-- What a table entry holds after reset: `V` = 0 (R50); `LEN` and `CODE` are log entry 4's choice. -/
def CodeEntry.blank : CodeEntry := { v := false, code := [] }

/-- Code Table Generator state (R27, R30 to R32). `TL` is the length of `tc`; `wstk` is the walker stack,
top first. -/
structure CodeTable where
  ct      : RegFile 256 CodeEntry
  ctValid : Bool
  nent    : BitVec 9
  topen   : Bool
  ts      : Symbol
  tc      : BitString
  wstk    : List (NodeIdx × BitString)
  deriving DecidableEq, Repr

/-- `PSTATE` (R35); "3 never occurs". -/
inductive PState where
  | idle
  | active
  | done
  deriving DecidableEq, Repr

/-- Bit Packer state (R35, R36). -/
structure Packer where
  pstate  : PState
  pacc    : BitVec 8
  pnb     : BitVec 3
  pwp     : BitVec 33
  ppad    : BitVec 3
  pbitcnt : BitVec 64
  pmem    : Memory
  deriving DecidableEq, Repr

/-- `USTATE` (R38). -/
inductive UState where
  | idle
  | pad
  | data
  | done
  deriving DecidableEq, Repr

/-- Bit Unpacker state (R38). `umode` is `true` for 1, unpack and decode. -/
structure Unpacker where
  ustate  : UState
  umode   : Bool
  upad    : BitVec 3
  uhold   : Byte
  uholdv  : Bool
  ubitcnt : BitVec 64
  deriving DecidableEq, Repr

/-- `DSTATE` (R40); "3 never occurs". -/
inductive DState where
  | idle
  | run
  | done
  deriving DecidableEq, Repr

/-- Decoder state (R40, R41). `DCLEN` is the length of `dcand`. -/
structure Decoder where
  dstate : DState
  dcand  : BitString
  ocnt   : BitVec 33
  omem   : Memory
  deriving DecidableEq, Repr

/-- The fault codes 1 to 10 of R251, the only values `ERR` takes besides 0. -/
inductive ErrCode where
  /-- 1, illegal command word -/
  | ill
  /-- 2, command not legal in the current state -/
  | seq
  /-- 3, `BUILD` with an empty Frequency Table -/
  | empty
  /-- 4, malformed table entry -/
  | corrupt
  /-- 5, table not prefix-free -/
  | ambig
  /-- 6, bit-string does not factor into codes -/
  | trunc
  /-- 7, bad padding count -/
  | pad
  /-- 8, `ENC` of a Symbol with no code -/
  | nocode
  /-- 9, `PMEM` or `OMEM` capacity exceeded -/
  | ovf
  /-- 10, read address beyond the data -/
  | range
  deriving DecidableEq, Repr

/-- The fault registers (R43): `err` is `none` for `ERR = 0`. -/
structure FaultRegs where
  err   : Option ErrCode
  einfo : CmdWord
  deriving DecidableEq, Repr

/-- A response code (R251): 0, 1 to 10, or 15. -/
inductive RspCode where
  | ok
  | fault (e : ErrCode)
  | faulted
  deriving DecidableEq, Repr

/-- A response (R93). -/
structure Rsp where
  code : RspCode
  data : Data
  deriving DecidableEq, Repr

/-- What the host can do (R292): send a 48-bit word, or assert `rst`. Because a command is atomic (R5), an `rst`
that lands while a word is executing leaves the same state, and no response, as an `rst` in that word's place
(R280); so the event `rst` stands for both. -/
inductive HostInput where
  | word (w : CmdWord)
  | rst
  deriving DecidableEq, Repr

/-- The ports (R20, R51, R90, R93, R201): what the host has sent and the engine has not yet taken, oldest first;
the responses sent, oldest first; the bits sent on `UB`, oldest first. No command reads the two histories. -/
structure Port where
  inq  : List HostInput
  rsps : List Rsp
  ub   : BitString
  deriving DecidableEq, Repr

/-- The state of the engine (R20) with its configuration and its ports (R51). -/
structure State where
  cfg    : Config
  tree   : TreeBuilder
  table  : CodeTable
  pack   : Packer
  unpack : Unpacker
  dec    : Decoder
  flt    : FaultRegs
  port   : Port
  deriving DecidableEq, Repr

/-- Why the model stops. None of these is a fault of the engine (those are `ErrCode`, and the machine goes on).
Each is safe: the model stops where the spec gives no value, and no state that keeps the invariant of Safety.lean
reaches one. -/
inductive Fault where
  /-- Raised by the walk of `GEN` in a state whose `NODE` holds no tree: the walk meets an index that is no node,
  or runs deeper than the 255 levels a tree of 256 leaves has (R151). Safe. -/
  | treeBroken
  /-- Raised by a write at an address the memory does not have (R36, R41), in a state where `PWP` or `OCNT`
  already stands beyond the capacity. Safe. -/
  | noSuchByte
  /-- Raised by `RDP` and `RDO` at an address that nothing has written (R50, R66), in a state where `PWP` or
  `OCNT` counts bytes never written. Safe. -/
  | unwrittenByte
  deriving DecidableEq, Repr

/-- Refusals. -/
inductive Refusal where
  /-- An instruction that has no meaning in the model; no arm of `exec` answers it. Safe. -/
  | notModelled (mnemonic : String)
  deriving DecidableEq, Repr

/-- How a command ends early: by a `raise` of its rule (R11), or by a stop of the model. -/
inductive Stop where
  | raise (e : ErrCode)
  | broken (f : Fault)
  deriving DecidableEq, Repr

/-- Reset values of the Tree Builder (R50). -/
def TreeBuilder.reset : TreeBuilder :=
  { freq := .fill 256 0#32, treeValid := false, nleaf := 0#9, root := 0#9, node := .fill 511 .blank, heap := [] }

/-- Reset values of the Code Table Generator (R50); `ts`, `tc` are log entry 4's choice. -/
def CodeTable.reset : CodeTable :=
  { ct := .fill 256 .blank, ctValid := false, nent := 0#9, topen := false, ts := 0#8, tc := [], wstk := [] }

/-- Reset values of the Bit Packer (R50). -/
def Packer.reset : Packer :=
  { pstate := .idle, pacc := 0#8, pnb := 0#3, pwp := 0#33, ppad := 0#3, pbitcnt := 0#64, pmem := [] }

/-- Reset values of the Bit Unpacker (R50); `uhold` is log entry 4's choice. -/
def Unpacker.reset : Unpacker :=
  { ustate := .idle, umode := false, upad := 0#3, uhold := 0#8, uholdv := false, ubitcnt := 0#64 }

/-- Reset values of the Decoder (R50). -/
def Decoder.reset : Decoder := { dstate := .idle, dcand := [], ocnt := 0#33, omem := [] }

/-- Reset values of the fault registers (R50). -/
def FaultRegs.reset : FaultRegs := { err := none, einfo := 0#48 }

/-- The machine right after reset (R50, R280, R281): every unit at its reset value, nothing sent in either
direction, and the default parameters of R7 (log entry 3). -/
def State.reset : State :=
  { cfg := .standard, tree := .reset, table := .reset, pack := .reset, unpack := .reset, dec := .reset,
    flt := .reset, port := { inq := [], rsps := [], ub := [] } }

end Sys2Proof.Machine
end

