-- ==== Sys2Proof/Machine/Operands.lean ====
section
/-! DEFINITION. The forms in which values cross the ports and are stored: codes of R251, the storage of a
bit-string (R33), the bit order of a payload byte (R63), and the response layouts of R94. -/

namespace Sys2Proof.Machine

/-- The number of a fault code (R251). -/
def ErrCode.number : ErrCode → BitVec 8
  | .ill => 1#8
  | .seq => 2#8
  | .empty => 3#8
  | .corrupt => 4#8
  | .ambig => 5#8
  | .trunc => 6#8
  | .pad => 7#8
  | .nocode => 8#8
  | .ovf => 9#8
  | .range => 10#8

/-- The number of a response code (R251): `OK` is 0 and `E_FAULTED` is 15. -/
def RspCode.number : RspCode → BitVec 8
  | .ok => 0#8
  | .fault e => e.number
  | .faulted => 15#8

/-- The response word `RSP[71:0]` (R93): code in `RSP[71:64]`, data in `RSP[63:0]`. -/
def Rsp.word (r : Rsp) : BitVec 72 := r.code.number ++ r.data

/-- Numbers of `PSTATE`, `USTATE` and `DSTATE` (R35, R38, R40). -/
def PState.number : PState → BitVec 2
  | .idle => 0#2
  | .active => 1#2
  | .done => 2#2

def UState.number : UState → BitVec 2
  | .idle => 0#2
  | .pad => 1#2
  | .data => 2#2
  | .done => 3#2

def DState.number : DState → BitVec 2
  | .idle => 0#2
  | .run => 1#2
  | .done => 2#2

/-- The value of a bit-string whose first bit has weight `2^(k-1)`; bits beyond weight 1 are dropped. -/
def bitsBelow : Nat → BitString → Nat
  | 0, _ => 0
  | _ + 1, [] => 0
  | k + 1, b :: c => b.toNat * 2 ^ k + bitsBelow k c

/-- Storage of a bit-string (R33): `X[254-i] = c[i]` for `i < |c|`, zero fill below. -/
def codeVector (c : BitString) : BitVec 255 := BitVec.ofNat 255 (bitsBelow 255 c)

/-- Word `w` of a code (R155): `X[255-64w : 192-64w]` of `X = {CODE[254:0], 0}`. -/
def codeWord (c : BitString) (w : BitVec 2) : Data :=
  ((codeVector c ++ 0#1 : BitVec 256)).extractLsb' (192 - 64 * w.toNat) 64

/-- The eight bits of a payload byte in stream order, most significant first (R63). -/
def byteBits (v : Byte) : BitString :=
  [v.getLsbD 7, v.getLsbD 6, v.getLsbD 5, v.getLsbD 4, v.getLsbD 3, v.getLsbD 2, v.getLsbD 1, v.getLsbD 0]

/-- Response data of `RDN` for a live leaf (R131): `V` = 1, `LEAF` = 1. -/
def leafLinks : Data := 1#1 ++ 1#1 ++ 0#62

/-- Response data of `RDN` for a live internal node (R131): `V` = 1, `L` in `[24:16]`, `R` in `[8:0]`. -/
def nodeLinks (n : Node) : Data := 1#1 ++ 0#1 ++ 0#37 ++ n.l ++ 0#7 ++ n.r

/-- Response data of `RDCL` for a live entry (R154): `V` = 1, `LEN` in `[7:0]`. -/
def codeLength (c : BitString) : Data := 1#1 ++ 0#55 ++ BitVec.ofNat 8 c.length

end Sys2Proof.Machine
end

