-- ==== Sys2Proof/Machine/Flags.lean ====
section
/-! DEFINITION. The flags (R45, R47), the status registers (R46), the sequencing conditions (R259, R287) and the
ambiguity predicate (R161). -/

namespace Sys2Proof.Machine

/-- `FAULT`, 1 exactly when `ERR != 0` (R45, R47). -/
def State.faulted (s : State) : Bool := s.flt.err.isSome

/-- `ERR` as a number (R43). -/
def FaultRegs.errNumber (f : FaultRegs) : BitVec 8 :=
  match f.err with
  | none => 0#8
  | some e => e.number

/-- `STATUS` (R47). -/
def State.status (s : State) : BitVec 11 :=
  BitVec.ofBool s.faulted ++ s.dec.dstate.number ++ BitVec.ofBool s.unpack.umode ++ s.unpack.ustate.number
    ++ s.pack.pstate.number ++ BitVec.ofBool s.table.topen ++ BitVec.ofBool s.table.ctValid
    ++ BitVec.ofBool s.tree.treeValid

/-- Status register `n`, zero-extended (R46); numbers 12 to 255 are not implemented. -/
def State.statusReg (s : State) (n : BitVec 8) : Option Data :=
  match n.toNat with
  | 0 => some (s.status.setWidth 64)
  | 1 => some (s.flt.errNumber.setWidth 64)
  | 2 => some (s.flt.einfo.setWidth 64)
  | 3 => some (s.tree.nleaf.setWidth 64)
  | 4 => some (s.tree.root.setWidth 64)
  | 5 => some (s.table.nent.setWidth 64)
  | 6 => some (s.pack.pwp.setWidth 64)
  | 7 => some s.pack.pbitcnt
  | 8 => some (s.pack.ppad.setWidth 64)
  | 9 => some s.unpack.ubitcnt
  | 10 => some (s.dec.ocnt.setWidth 64)
  | 11 => some ((BitVec.ofNat 8 s.dec.dcand.length).setWidth 64)
  | _ => none

/-- `USTATE` is `U_PAD` or `U_DATA`: the unpacker takes a payload (R202, R203). -/
def Unpacker.taking (u : Unpacker) : Bool := u.ustate == .pad || u.ustate == .data

/-- The decoder can take a bit: `DSTATE = D_RUN` and `CT_VALID = 1` (R221). -/
def State.decoding (s : State) : Bool := s.dec.dstate == .run && s.table.ctValid

/-- The link to the decoder holds: in mode 1 the decoder can take a bit (R202, R203). -/
def State.linked (s : State) : Bool := !s.unpack.umode || s.decoding

/-- Two codes collide when one is a prefix of the other, equality included (R161). -/
def collide (c d : BitString) : Bool := c.isPrefixOf d || d.isPrefixOf c

/-- Some two entries of a list of codes, at different places, collide. -/
def anyCollide : List BitString → Bool
  | [] => false
  | c :: cs => cs.any (collide c) || anyCollide cs

/-- The codes of the live entries, in Symbol order. -/
def liveCodes (ct : RegFile 256 CodeEntry) : List BitString :=
  ct.cells.filterMap (fun e => if e.v then some e.code else none)

/-- `AMBIG(CT)` (R161). -/
def ambig (ct : RegFile 256 CodeEntry) : Bool := anyCollide (liveCodes ct)

end Sys2Proof.Machine
end

