-- ==== Sys2Proof/Machine/Ops.lean ====
section
/-! DEFINITION. The named operations over registers, memories and ports, the order of checks of a command
(R254), fault entry (R252), the refusal of a faulted engine (R253), its only exits (R255) and the taking of the
next word (R90). -/

namespace Sys2Proof.Machine

/-! ### Register files -/

/-- Read register `i`. -/
def RegFile.get {n : Nat} {α : Type} (r : RegFile n α) (i : Fin n) : α :=
  r.cells[i.val]'(r.size.symm ▸ i.isLt)

/-- Write register `i`. -/
def RegFile.set {n : Nat} {α : Type} (r : RegFile n α) (i : Fin n) (a : α) : RegFile n α :=
  ⟨r.cells.set i.val a, by rw [List.length_set, r.size]⟩

/-- Change every register. -/
def RegFile.map {n : Nat} {α : Type} (f : α → α) (r : RegFile n α) : RegFile n α :=
  ⟨r.cells.map f, by rw [List.length_map, r.size]⟩

/-- `FREQ[s]` (R22). -/
def TreeBuilder.freqAt (t : TreeBuilder) (x : Symbol) : Count := t.freq.get x.toFin

/-- `NODE[i]` (R24); index 511 is not a node and reads as an entry with `V = 0` (R131). -/
def TreeBuilder.nodeAt (t : TreeBuilder) (j : NodeIdx) : Node :=
  if h : j.toNat < 511 then t.node.get ⟨j.toNat, h⟩ else .blank

/-- `NODE[i] <- n`; there is no entry 511 to write (R24). -/
def TreeBuilder.setNode (t : TreeBuilder) (j : NodeIdx) (n : Node) : TreeBuilder :=
  if h : j.toNat < 511 then { t with node := t.node.set ⟨j.toNat, h⟩ n } else t

/-- `TREE_VALID <- 0; NLEAF <- 0; ROOT <- 0` (R120, R121). -/
def TreeBuilder.invalidate (t : TreeBuilder) : TreeBuilder :=
  { t with treeValid := false, nleaf := 0#9, root := 0#9 }

/-- `CT[s]` (R30). -/
def CodeTable.entry (g : CodeTable) (x : Symbol) : CodeEntry := g.ct.get x.toFin

/-- `CT[s] <- {V = 1, LEN = |c|, CODE = c}` (R151, R159). -/
def CodeTable.record (g : CodeTable) (x : Symbol) (c : BitString) : CodeTable :=
  { g with ct := g.ct.set x.toFin { v := true, code := c } }

/-- `for s in 0..255: CT[s].V <- 0` (R150, R156). -/
def CodeTable.clearEntries (g : CodeTable) : CodeTable :=
  { g with ct := g.ct.map (fun e => { e with v := false }) }

/-! ### Memories -/

/-- The byte at address `a`; `none` where nothing has been written (log entry 5). -/
def Memory.read : Memory → Nat → Option Byte
  | [], _ => none
  | (b, w) :: m, a => if a = b then some w else Memory.read m a

/-- Write the byte at address `a`, keeping addresses strictly rising. -/
def Memory.write : Memory → Nat → Byte → Memory
  | [], a, v => [(a, v)]
  | (b, w) :: m, a, v =>
    if a < b then (a, v) :: (b, w) :: m
    else if a = b then (a, v) :: m
    else (b, w) :: Memory.write m a v

/-- The canonical form: addresses strictly rising. An unlisted address holds nothing, so no entry can equal what
an unlisted address reads as. -/
abbrev Memory.wf (m : Memory) : Prop := m.Pairwise (fun x y => x.1 < y.1)

/-- A one-byte write (R64) to a memory of `size` bytes: an address it does not have is no byte (R36, R41). -/
def storeByte (size : Nat) (m : Memory) (a : Nat) (v : Byte) : Except Stop Memory :=
  if a < size then .ok (m.write a v) else .error (.broken .noSuchByte)

/-- A one-byte read (R64): a byte that nothing has written has no value (R50, R66). -/
def loadByte (m : Memory) (a : Nat) : Except Stop Byte :=
  match m.read a with
  | some v => .ok v
  | none => .error (.broken .unwrittenByte)

/-! ### Responses, faults, and the frame of a command -/

/-- Send one response (R93). -/
def State.respond (s : State) (c : RspCode) (d : Data) : State :=
  { s with port := { s.port with rsps := s.port.rsps ++ [⟨c, d⟩] } }

/-- Fault entry (R252), applied to the state the command started in, so that every change and every `UB` bit of
the command is undone: `ERR <- code(E_X); EINFO <- W`, response `{code(E_X), 0}`. -/
def State.raiseFault (s : State) (e : ErrCode) (w : CmdWord) : State :=
  { s with flt := { err := some e, einfo := w } }.respond (.fault e) 0#64

/-- The refusal of a faulted engine (R253): nothing changes, response `{0x0F, 0}`. -/
def State.refuseFaulted (s : State) : State := s.respond .faulted 0#64

/-- An illegal word (R96, R253, R254 (2) and (3)). -/
def State.illegalWord (s : State) (w : CmdWord) : State :=
  if s.faulted then s.refuseFaulted else s.raiseFault .ill w

/-- Leaving the faulted state (R255, R280): every piece of state at its reset value. What the host has still to
say and what the engine has already said are not state (R51), nor is the configuration. -/
def State.clearAll (s : State) : State := { State.reset with cfg := s.cfg, port := s.port }

/-- How a command that may execute ends: normally with its data and code `OK`, or by its first `raise`. -/
def State.finish (s : State) (w : CmdWord) (r : Except Stop (State × Data)) :
    Host.Outcome State Fault Refusal :=
  match r with
  | .ok (t, d) => .next (t.respond .ok d)
  | .error (.raise e) => .next (s.raiseFault e w)
  | .error (.broken f) => .fault f

/-- A command under the order of checks of R254: refused while faulted (R253), else its rule from top to
bottom. `w` is the command's word, `body` its rule. -/
def command (w : CmdWord) (body : State → Except Stop (State × Data)) (s : State) :
    Host.Outcome State Fault Refusal :=
  if s.faulted then .next s.refuseFaulted else s.finish w (body s)

/-- The end of a rule with no data of its own: `respond(0)` (R10). -/
def ended (s : State) : Except Stop (State × Data) := .ok (s, 0#64)

/-- `raise E_X` inside a rule (R11). -/
def raise {α : Type} (e : ErrCode) : Except Stop α := .error (.raise e)

/-! ### The command port -/

/-- What the engine finds when it is ready for the next word (R90). -/
inductive Arrival where
  /-- the host has sent nothing: the engine waits -/
  | nothing
  /-- `rst` is asserted -/
  | rst
  /-- a command word -/
  | word (w : CmdWord)
  deriving DecidableEq, Repr

/-- Take the oldest thing the host has sent (R70, R90). -/
def State.take (s : State) : Arrival × State :=
  match s.port.inq with
  | [] => (.nothing, s)
  | .rst :: rest => (.rst, { s with port := { s.port with inq := rest } })
  | .word w :: rest => (.word w, { s with port := { s.port with inq := rest } })

/-- The host's next word is `w`. -/
def State.placeWord (s : State) (w : CmdWord) : State :=
  { s with port := { s.port with inq := .word w :: s.port.inq } }

end Sys2Proof.Machine
end

