-- ==== Sys2Proof/Machine/Control.lean ====
section
/-! DEFINITION. Control commands `NOP`, `CLR`, `RDSR` (45_control.md): the three that a faulted engine
executes (R253). -/

namespace Sys2Proof.Machine

/-- `NOP` (R240). -/
def execNop (s : State) : Host.Outcome State Fault Refusal := .next (s.respond .ok 0#64)

/-- `CLR` (R241), the way back from the faulted state (R255). -/
def execClr (s : State) : Host.Outcome State Fault Refusal := .next (s.clearAll.respond .ok 0#64)

/-- `RDSR n` (R242). A number above 11 is no status register: the word is illegal (R96). -/
def execRdsr (n : BitVec 8) (s : State) : Host.Outcome State Fault Refusal :=
  match s.statusReg n with
  | some d => .next (s.respond .ok d)
  | none => .next (s.illegalWord (encode (.rdsr n)))

end Sys2Proof.Machine
end

