-- ==== Sys2Proof/Machine/Pack.lean ====
section
/-! DEFINITION. Bit Packer commands `PINIT`, `PBIT`, `ENC`, `PFLUSH`, `RDP` (42_bit_packer.md). -/

namespace Sys2Proof.Machine

/-- `{PACC[6:0], b}` (R182). -/
def shiftIn (acc : BitVec 8) (b : Bool) : BitVec 8 := acc.extractLsb' 0 7 ++ BitVec.ofBool b

/-- Micro-step `P_PUSH(b)` (R182). -/
def pPush (c : Config) (p : Packer) (b : Bool) : Except Stop Packer :=
  if p.pnb = 7#3 ∧ p.pwp.toNat = c.pmemBytes then raise .ovf
  else if p.pnb = 7#3 then
    match storeByte c.pmemBytes p.pmem p.pwp.toNat (shiftIn p.pacc b) with
    | .error e => .error e
    | .ok m => .ok { p with pacc := 0#8, pnb := 0#3, pwp := p.pwp + 1#33, pbitcnt := p.pbitcnt + 1#64, pmem := m }
  else .ok { p with pacc := shiftIn p.pacc b, pnb := p.pnb + 1#3, pbitcnt := p.pbitcnt + 1#64 }

/-- `P_PUSH` of each bit in order (R183). -/
def pPushAll (c : Config) (p : Packer) : BitString → Except Stop Packer
  | [] => .ok p
  | b :: bs =>
    match pPush c p b with
    | .error e => .error e
    | .ok q => pPushAll c q bs

/-- `pad <- (8 - PNB) mod 8` (R184, R12 (c)). -/
def padCount (p : Packer) : Nat := (8 - p.pnb.toNat) % 8

/-- The last, partial byte of a payload (R184): written only if bits are waiting. -/
def writePartial (c : Config) (p : Packer) : Except Stop Packer :=
  if p.pnb = 0#3 then .ok p
  else if p.pwp.toNat = c.pmemBytes then raise .ovf
  else
    match storeByte c.pmemBytes p.pmem p.pwp.toNat (p.pacc <<< padCount p) with
    | .error e => .error e
    | .ok m => .ok { p with pmem := m, pwp := p.pwp + 1#33 }

/-- The body of `PFLUSH` (R184) on an active packer. -/
def flush (c : Config) (p : Packer) : Except Stop Packer :=
  match writePartial c p with
  | .error e => .error e
  | .ok q =>
    match storeByte c.pmemBytes q.pmem 0 (BitVec.ofNat 8 (padCount p)) with
    | .error e => .error e
    | .ok m =>
      .ok { q with pacc := 0#8, pnb := 0#3, ppad := BitVec.ofNat 3 (padCount p), pmem := m, pstate := .done }

/-- `PINIT` (R180). -/
def execPinit (s : State) : Host.Outcome State Fault Refusal :=
  command (encode .pinit)
    (fun s =>
      match storeByte s.cfg.pmemBytes s.pack.pmem 0 0#8 with
      | .error e => .error e
      | .ok m => ended { s with pack :=
          { pstate := .active, pacc := 0#8, pnb := 0#3, pwp := 1#33, ppad := 0#3, pbitcnt := 0#64, pmem := m } }) s

/-- `PBIT b` (R181). -/
def execPbit (b : Bool) (s : State) : Host.Outcome State Fault Refusal :=
  command (encode (.pbit b))
    (fun s =>
      if s.pack.pstate = .active then
        match pPush s.cfg s.pack b with
        | .error e => .error e
        | .ok p => ended { s with pack := p }
      else raise .seq) s

/-- `ENC s` (R183). -/
def execEnc (x : Symbol) (s : State) : Host.Outcome State Fault Refusal :=
  command (encode (.enc x))
    (fun s =>
      if s.pack.pstate = .active ∧ s.table.ctValid then
        if (s.table.entry x).v then
          match pPushAll s.cfg s.pack (s.table.entry x).code with
          | .error e => .error e
          | .ok p => ended { s with pack := p }
        else raise .nocode
      else raise .seq) s

/-- `PFLUSH` (R184). -/
def execPflush (s : State) : Host.Outcome State Fault Refusal :=
  command (encode .pflush)
    (fun s =>
      if s.pack.pstate = .active then
        match flush s.cfg s.pack with
        | .error e => .error e
        | .ok p => .ok ({ s with pack := p }, BitVec.ofNat 64 (padCount s.pack))
      else raise .seq) s

/-- `RDP a` (R185). -/
def execRdp (a : BitVec 32) (s : State) : Host.Outcome State Fault Refusal :=
  command (encode (.rdp a))
    (fun s =>
      if s.pack.pstate = .done then
        if s.pack.pwp.toNat ≤ a.toNat then raise .range
        else
          match loadByte s.pack.pmem a.toNat with
          | .error e => .error e
          | .ok v => .ok (s, v.setWidth 64)
      else raise .seq) s

end Sys2Proof.Machine
end

