-- ==== Sys2Proof/Machine/Table.lean ====
section
/-! DEFINITION. Code Table commands `GEN`, `RDCL`, `RDCW`, `TCLR`, `TSYM`, `TBIT`, `TEND`, `TCHK`
(41_code_table.md). -/

namespace Sys2Proof.Machine

/-- `LEAF1`, the code of the single leaf of a one-symbol tree (R7, R152). -/
def leaf1 : BitString := [false]

/-- `WALK(n, path)` (R151), left subtree first, the right one waiting on `WSTK` (R27). The fuel is the number of
levels still allowed: a tree of 256 leaves has paths of at most 255 bits. -/
def walk (t : TreeBuilder) : Nat → NodeIdx → BitString → CodeTable → Except Stop CodeTable
  | 0, _, _, _ => .error (.broken .treeBroken)
  | k + 1, n, path, g =>
    if n.toNat < 256 then .ok (g.record (n.setWidth 8) path)
    else if n.toNat < 511 then
      match walk t k (t.nodeAt n).l (path ++ [false])
          { g with wstk := ((t.nodeAt n).r, path ++ [true]) :: g.wstk } with
      | .error e => .error e
      | .ok g =>
        match g.wstk with
        | [] => .error (.broken .treeBroken)
        | (m, p) :: rest => walk t k m p { g with wstk := rest }
    else .error (.broken .treeBroken)

/-- The table of a tree (R150 to R152), entries only. -/
def genEntries (t : TreeBuilder) (g : CodeTable) : Except Stop CodeTable :=
  if t.root.toNat < 256 then .ok (g.record (t.root.setWidth 8) leaf1) else walk t 256 t.root [] g

/-- `GEN` (R150). -/
def execGen (s : State) : Host.Outcome State Fault Refusal :=
  command (encode .gen)
    (fun s =>
      if s.tree.treeValid then
        match genEntries s.tree { s.table.clearEntries with topen := false } with
        | .error e => .error e
        | .ok g => ended { s with table := { g with nent := s.tree.nleaf, ctValid := true } }
      else raise .seq) s

/-- `RDCL s` (R154). -/
def execRdcl (x : Symbol) (s : State) : Host.Outcome State Fault Refusal :=
  command (encode (.rdcl x))
    (fun s => .ok (s, if (s.table.entry x).v then codeLength (s.table.entry x).code else 0#64)) s

/-- `RDCW s, w` (R155). -/
def execRdcw (x : Symbol) (w : BitVec 2) (s : State) : Host.Outcome State Fault Refusal :=
  command (encode (.rdcw x w))
    (fun s => .ok (s, if (s.table.entry x).v then codeWord (s.table.entry x).code w else 0#64)) s

/-- `TCLR` (R156). -/
def execTclr (s : State) : Host.Outcome State Fault Refusal :=
  command (encode .tclr)
    (fun s => ended { s with table := { s.table.clearEntries with nent := 0#9, ctValid := false, topen := false } }) s

/-- `TSYM s` (R157). -/
def execTsym (x : Symbol) (s : State) : Host.Outcome State Fault Refusal :=
  command (encode (.tsym x))
    (fun s =>
      if s.table.topen then raise .seq
      else if (s.table.entry x).v then raise .corrupt
      else ended { s with table := { s.table with topen := true, ts := x, tc := [], ctValid := false } }) s

/-- `TBIT b` (R158); `TL` is the length of `TC`. -/
def execTbit (b : Bool) (s : State) : Host.Outcome State Fault Refusal :=
  command (encode (.tbit b))
    (fun s =>
      if !s.table.topen then raise .seq
      else if 255 ≤ s.table.tc.length then raise .corrupt
      else ended { s with table := { s.table with tc := s.table.tc ++ [b] } }) s

/-- `TEND` (R159). -/
def execTend (s : State) : Host.Outcome State Fault Refusal :=
  command (encode .tend)
    (fun s =>
      if !s.table.topen then raise .seq
      else if s.table.tc = [] then raise .corrupt
      else ended { s with table :=
        { s.table.record s.table.ts s.table.tc with nent := s.table.nent + 1#9, topen := false } }) s

/-- `TCHK` (R160). -/
def execTchk (s : State) : Host.Outcome State Fault Refusal :=
  command (encode .tchk)
    (fun s =>
      if s.table.topen then raise .seq
      else if ambig s.table.ct then raise .ambig
      else ended { s with table := { s.table with ctValid := true } }) s

end Sys2Proof.Machine
end

