-- ==== Sys2Proof/Machine/Heap.lean ====
section
/-! DEFINITION. The key order `KEYLT` (R125) and the hidden min-heap (R130). -/

namespace Sys2Proof

/-- The rank of a key in the tie-break table (log entry 3). -/
def Config.rank (c : Config) (k : Key) : Nat := (c.ties.lookup k).getD 0

/-- `KEYLT` (R7, R125): smaller `F` first; the tie-break decides among equal `F`, and by default it is the smaller
index. -/
def Config.keyLt (c : Config) (x y : Key) : Bool :=
  decide (x.f < y.f) ||
    (x.f == y.f && (decide (c.rank x < c.rank y) || (c.rank x == c.rank y && decide (x.i < y.i))))

namespace Machine

/-- The key of a node (glossary of 00_scope.md). -/
def TreeBuilder.keyOf (t : TreeBuilder) (j : NodeIdx) : Key := { f := (t.nodeAt j).f, i := j }

/-- `KEYLT(x, y)` for two nodes (R125). -/
def TreeBuilder.before (t : TreeBuilder) (c : Config) (x y : NodeIdx) : Bool := c.keyLt (t.keyOf x) (t.keyOf y)

/-- `HEAP[j]` (R130). -/
def heapAt (h : List NodeIdx) (j : Nat) : NodeIdx := h.getD j 0#9

/-- Swap `HEAP[i]` and `HEAP[j]` (R130). -/
def heapSwap (h : List NodeIdx) (i j : Nat) : List NodeIdx := (h.set i (heapAt h j)).set j (heapAt h i)

/-- The loop of `INSERT` (R130). The fuel is a bound on the number of swaps. -/
def siftUp (lt : NodeIdx → NodeIdx → Bool) : Nat → Nat → List NodeIdx → List NodeIdx
  | 0, _, h => h
  | k + 1, j, h =>
    if 0 < j ∧ lt (heapAt h j) (heapAt h ((j - 1) / 2)) then siftUp lt k ((j - 1) / 2) (heapSwap h j ((j - 1) / 2))
    else h

/-- `INSERT(x)` (R130). -/
def heapInsert (lt : NodeIdx → NodeIdx → Bool) (h : List NodeIdx) (x : NodeIdx) : List NodeIdx :=
  siftUp lt h.length h.length (h ++ [x])

/-- The index `m` of one turn of `EXTRACT`'s loop (R130): the least of `HEAP[j]` and its children. -/
def leastChild (lt : NodeIdx → NodeIdx → Bool) (h : List NodeIdx) (j : Nat) : Nat :=
  let m := if 2 * j + 1 < h.length ∧ lt (heapAt h (2 * j + 1)) (heapAt h j) then 2 * j + 1 else j
  if 2 * j + 2 < h.length ∧ lt (heapAt h (2 * j + 2)) (heapAt h m) then 2 * j + 2 else m

/-- The loop of `EXTRACT` (R130). The fuel is a bound on the number of swaps. -/
def siftDown (lt : NodeIdx → NodeIdx → Bool) : Nat → Nat → List NodeIdx → List NodeIdx
  | 0, _, h => h
  | k + 1, j, h =>
    if leastChild lt h j = j then h
    else siftDown lt k (leastChild lt h j) (heapSwap h j (leastChild lt h j))

/-- `EXTRACT()` (R130): the node returned and the heap left. -/
def heapExtract (lt : NodeIdx → NodeIdx → Bool) (h : List NodeIdx) : NodeIdx × List NodeIdx :=
  let rest := h.dropLast
  (heapAt h 0,
    if rest = [] then [] else siftDown lt rest.length 0 (rest.set 0 (heapAt h rest.length)))

end Machine
end Sys2Proof
end

