-- ==== Sys2Proof/Machine/Tree.lean ====
section
/-! DEFINITION. Tree Builder commands `FCLR`, `LDF`, `RDF`, `BUILD`, `RDN`, `RDNF` (40_tree_builder.md). -/

namespace Sys2Proof.Machine

/-- One turn of the loop of `B_INIT` (R124): the leaf of Symbol `x`, if its count is not 0. -/
def initLeaf (c : Config) (t : TreeBuilder) (x : Nat) (n : Count) : TreeBuilder :=
  if n = 0#32 then t
  else
    let t := t.setNode (BitVec.ofNat 9 x) { v := true, f := n.setWidth 40, l := 0#9, r := 0#9 }
    { t with heap := heapInsert (t.before c) t.heap (BitVec.ofNat 9 x) }

/-- The loop of `B_INIT` (R124), over the counts of the Symbols from `x` on, in increasing order. -/
def initLeaves (c : Config) : List Count → Nat → TreeBuilder → TreeBuilder
  | [], _, t => t
  | n :: ns, x, t => initLeaves c ns (x + 1) (initLeaf c t x n)

/-- Micro-step `B_INIT` (R124). -/
def bInit (c : Config) (t : TreeBuilder) : TreeBuilder :=
  initLeaves c t.freq.cells 0
    { t with node := t.node.map (fun n => { n with v := false }), heap := [] }

/-- `POOL <- POOL - {MIN(POOL)}` and the node removed (R126, R130). -/
def poolTake (c : Config) (t : TreeBuilder) : NodeIdx × TreeBuilder :=
  let r := heapExtract (t.before c) t.heap
  (r.1, { t with heap := r.2 })

/-- The node that a merge writes (R126): the sum of the frequencies, the children as `CHILD` says. -/
def mergedNode (c : Config) (t : TreeBuilder) (x y : NodeIdx) : Node :=
  match c.child with
  | .firstIsLeft => { v := true, f := (t.nodeAt x).f + (t.nodeAt y).f, l := x, r := y }
  | .firstIsRight => { v := true, f := (t.nodeAt x).f + (t.nodeAt y).f, l := y, r := x }

/-- Micro-step `B_MERGE` (R126), writing entry `next`. -/
def bMerge (c : Config) (next : NodeIdx) (t : TreeBuilder) : TreeBuilder :=
  let p := poolTake c t
  let q := poolTake c p.2
  let t := q.2.setNode next (mergedNode c t p.1 q.1)
  { t with heap := heapInsert (t.before c) t.heap next }

/-- `while |POOL| > 1: B_MERGE` (R123). The fuel is a bound on the number of merges. -/
def bMerges (c : Config) : Nat → NodeIdx → TreeBuilder → TreeBuilder
  | 0, _, t => t
  | k + 1, next, t => if 1 < t.heap.length then bMerges c k (next + 1#9) (bMerge c next t) else t

/-- Micro-step `B_FINISH` (R127) with `NL` leaves. -/
def bFinish (nl : Nat) (t : TreeBuilder) : TreeBuilder :=
  { t with root := heapAt t.heap 0, nleaf := BitVec.ofNat 9 nl, treeValid := true, heap := [] }

/-- `B_INIT`, the merges and `B_FINISH` (R123). -/
def buildTree (c : Config) (t : TreeBuilder) : TreeBuilder :=
  let t0 := bInit c t
  bFinish t0.heap.length (bMerges c t0.heap.length 256#9 t0)

/-- The Frequency Table is empty (R123). -/
def TreeBuilder.noSymbols (t : TreeBuilder) : Bool := t.freq.cells.all (fun n => n == 0#32)

/-- `FCLR` (R120). -/
def execFclr (s : State) : Host.Outcome State Fault Refusal :=
  command (encode .fclr)
    (fun s => ended { s with tree := { s.tree with freq := .fill 256 0#32 }.invalidate }) s

/-- `LDF s, n` (R121). -/
def execLdf (x : Symbol) (n : Count) (s : State) : Host.Outcome State Fault Refusal :=
  command (encode (.ldf x n))
    (fun s => ended { s with tree := { s.tree with freq := s.tree.freq.set x.toFin n }.invalidate }) s

/-- `RDF s` (R122). -/
def execRdf (x : Symbol) (s : State) : Host.Outcome State Fault Refusal :=
  command (encode (.rdf x)) (fun s => .ok (s, (s.tree.freqAt x).setWidth 64)) s

/-- `BUILD` (R123). -/
def execBuild (s : State) : Host.Outcome State Fault Refusal :=
  command (encode .build)
    (fun s => if s.tree.noSymbols then raise .empty else ended { s with tree := buildTree s.cfg s.tree }) s

/-- Response data of `RDN i` with a valid tree (R131). -/
def linksData (t : TreeBuilder) (j : NodeIdx) : Data :=
  if (t.nodeAt j).v then
    if j.toNat < 256 then leafLinks else nodeLinks (t.nodeAt j)
  else 0#64

/-- `RDN i` (R131). -/
def execRdn (j : NodeIdx) (s : State) : Host.Outcome State Fault Refusal :=
  command (encode (.rdn j))
    (fun s => if s.tree.treeValid then .ok (s, linksData s.tree j) else raise .seq) s

/-- Response data of `RDNF i` with a valid tree (R132). -/
def freqData (t : TreeBuilder) (j : NodeIdx) : Data :=
  if (t.nodeAt j).v then (t.nodeAt j).f.setWidth 64 else 0#64

/-- `RDNF i` (R132). -/
def execRdnf (j : NodeIdx) (s : State) : Host.Outcome State Fault Refusal :=
  command (encode (.rdnf j))
    (fun s => if s.tree.treeValid then .ok (s, freqData s.tree j) else raise .seq) s

end Sys2Proof.Machine
end

