-- ==== Sys2Proof/Machine/Decoder.lean ====
section
/-! DEFINITION. Decoder commands `DINIT`, `DBIT`, `DEND`, `RDO` and the micro-steps `D_STEP` and `D_FINISH`
(44_decoder.md). -/

namespace Sys2Proof.Machine

/-- The Symbol whose code is `c`: the smallest `s` with `CT[s].V = 1` and `CT[s].CODE = c` (R222). While
`CT_VALID = 1` there is at most one, and `D_STEP` runs in no other state (log entry 8). -/
def CodeTable.symbolOf (g : CodeTable) (c : BitString) : Option Symbol :=
  (g.ct.cells.findIdx? (fun e => e.v && e.code == c)).map (BitVec.ofNat 8)

/-- `c` is a proper prefix of some live code (R9, R222). -/
def CodeTable.extendable (g : CodeTable) (c : BitString) : Bool :=
  g.ct.cells.any (fun e => e.v && (c.isPrefixOf e.code && decide (c.length < e.code.length)))

/-- The start of a decode: `DSTATE <- D_RUN; DCAND <- ""; DCLEN <- 0; OCNT <- 0` (R200, R220). -/
def Decoder.start (d : Decoder) : Decoder := { d with dstate := .run, dcand := [], ocnt := 0#33 }

/-- Micro-step `D_STEP(b)` (R222). -/
def dStep (c : Config) (g : CodeTable) (d : Decoder) (b : Bool) : Except Stop Decoder :=
  match g.symbolOf (d.dcand ++ [b]) with
  | some x =>
    if d.ocnt.toNat = c.omemBytes.val then raise .ovf
    else
      match storeByte c.omemBytes.val d.omem d.ocnt.toNat x with
      | .error e => .error e
      | .ok m => .ok { d with omem := m, ocnt := d.ocnt + 1#33, dcand := [] }
  | none => if g.extendable (d.dcand ++ [b]) then .ok { d with dcand := d.dcand ++ [b] } else raise .trunc

/-- Micro-step `D_FINISH` (R224). -/
def dFinish (d : Decoder) : Except Stop Decoder :=
  if d.dcand = [] then .ok { d with dstate := .done } else raise .trunc

/-- `DINIT` (R220). -/
def execDinit (s : State) : Host.Outcome State Fault Refusal :=
  command (encode .dinit)
    (fun s => if s.table.ctValid then ended { s with dec := s.dec.start } else raise .seq) s

/-- `DBIT b` (R221). -/
def execDbit (b : Bool) (s : State) : Host.Outcome State Fault Refusal :=
  command (encode (.dbit b))
    (fun s =>
      if s.decoding then
        match dStep s.cfg s.table s.dec b with
        | .error e => .error e
        | .ok d => ended { s with dec := d }
      else raise .seq) s

/-- `DEND` (R223). -/
def execDend (s : State) : Host.Outcome State Fault Refusal :=
  command (encode .dend)
    (fun s =>
      if s.dec.dstate = .run then
        match dFinish s.dec with
        | .error e => .error e
        | .ok d => ended { s with dec := d }
      else raise .seq) s

/-- `RDO a` (R225). -/
def execRdo (a : BitVec 32) (s : State) : Host.Outcome State Fault Refusal :=
  command (encode (.rdo a))
    (fun s =>
      if s.dec.dstate = .done then
        if s.dec.ocnt.toNat ≤ a.toNat then raise .range
        else
          match loadByte s.dec.omem a.toNat with
          | .error e => .error e
          | .ok v => .ok (s, v.setWidth 64)
      else raise .seq) s

end Sys2Proof.Machine
end

