-- ==== Sys2Proof/Machine/Unpack.lean ====
section
/-! DEFINITION. Bit Unpacker commands `UINIT`, `UBYTE`, `UEND` and the micro-step `U_EMIT` (43_unpacker.md). -/

namespace Sys2Proof.Machine

/-- `emit UB(b)` and `UBITCNT <- (UBITCNT + 1) mod 2^64` (R201). -/
def State.emit (s : State) (b : Bool) : State :=
  { s with unpack := { s.unpack with ubitcnt := s.unpack.ubitcnt + 1#64 },
           port := { s.port with ub := s.port.ub ++ [b] } }

/-- Micro-step `U_EMIT(b)` (R201). -/
def uEmit (s : State) (b : Bool) : Except Stop State :=
  if s.unpack.umode then
    match dStep s.cfg s.table s.dec b with
    | .error e => .error e
    | .ok d => .ok { s.emit b with dec := d }
  else .ok (s.emit b)

/-- `U_EMIT` of each bit in order (R202, R203). -/
def uEmitAll (s : State) : BitString → Except Stop State
  | [] => .ok s
  | b :: bs =>
    match uEmit s b with
    | .error e => .error e
    | .ok t => uEmitAll t bs

/-- Hold back a data byte: `UHOLD <- v; UHOLDV <- 1` (R202). -/
def State.hold (s : State) (v : Byte) : State :=
  { s with unpack := { s.unpack with uhold := v, uholdv := true } }

/-- The first payload byte, the padding count (R202). -/
def takePadding (v : Byte) (s : State) : Except Stop State :=
  if 7 < v.toNat then raise .pad
  else .ok { s with unpack := { s.unpack with upad := v.setWidth 3, ustate := .data } }

/-- A data byte: the held byte is released, this one is held (R202). -/
def takeData (v : Byte) (s : State) : Except Stop State :=
  match uEmitAll s (if s.unpack.uholdv then byteBits s.unpack.uhold else []) with
  | .error e => .error e
  | .ok t => .ok (t.hold v)

/-- What `UEND` releases (R203): in `U_DATA`, the leading `8 - UPAD` bits of the held byte. -/
def releaseLast (s : State) : Except Stop State :=
  if s.unpack.ustate = .data then
    if s.unpack.uholdv then
      match uEmitAll s ((byteBits s.unpack.uhold).take (8 - s.unpack.upad.toNat)) with
      | .error e => .error e
      | .ok t => .ok { t with unpack := { t.unpack with uholdv := false } }
    else if s.unpack.upad = 0#3 then .ok s else raise .pad
  else .ok s

/-- The end of a payload (R203): `USTATE <- U_DONE`, and in mode 1 `D_FINISH`. -/
def endPayload (s : State) : Except Stop State :=
  let s := { s with unpack := { s.unpack with ustate := .done } }
  if s.unpack.umode then
    match dFinish s.dec with
    | .error e => .error e
    | .ok d => .ok { s with dec := d }
  else .ok s

/-- `UINIT m` (R200). -/
def execUinit (m : Bool) (s : State) : Host.Outcome State Fault Refusal :=
  command (encode (.uinit m))
    (fun s =>
      if m && !s.table.ctValid then raise .seq
      else ended { s with
        unpack := { s.unpack with umode := m, ustate := .pad, upad := 0#3, uholdv := false, ubitcnt := 0#64 },
        dec := if m then s.dec.start else s.dec }) s

/-- `UBYTE v` (R202). -/
def execUbyte (v : Byte) (s : State) : Host.Outcome State Fault Refusal :=
  command (encode (.ubyte v))
    (fun s =>
      if !s.unpack.taking then raise .seq
      else if !s.linked then raise .seq
      else
        match (if s.unpack.ustate = .pad then takePadding v s else takeData v s) with
        | .error e => .error e
        | .ok t => ended t) s

/-- `UEND` (R203). -/
def execUend (s : State) : Host.Outcome State Fault Refusal :=
  command (encode .uend)
    (fun s =>
      if !s.unpack.taking then raise .seq
      else if !s.linked then raise .seq
      else
        match releaseLast s with
        | .error e => .error e
        | .ok t =>
          match endPayload t with
          | .error e => .error e
          | .ok u => ended u) s

end Sys2Proof.Machine
end

