-- ==== Sys2Proof/Machine/Dispatch.lean ====
section
/-! DEFINITION. One arm per command. -/

namespace Sys2Proof.Machine

def exec (i : Instr) (s : State) : Host.Outcome State Fault Refusal :=
  match i with
  | .nop => Sys2Proof.Machine.execNop s
  | .clr => Sys2Proof.Machine.execClr s
  | .rdsr n => Sys2Proof.Machine.execRdsr n s
  | .fclr => Sys2Proof.Machine.execFclr s
  | .ldf x n => Sys2Proof.Machine.execLdf x n s
  | .rdf x => Sys2Proof.Machine.execRdf x s
  | .build => Sys2Proof.Machine.execBuild s
  | .rdn j => Sys2Proof.Machine.execRdn j s
  | .rdnf j => Sys2Proof.Machine.execRdnf j s
  | .gen => Sys2Proof.Machine.execGen s
  | .rdcl x => Sys2Proof.Machine.execRdcl x s
  | .rdcw x w => Sys2Proof.Machine.execRdcw x w s
  | .tclr => Sys2Proof.Machine.execTclr s
  | .tsym x => Sys2Proof.Machine.execTsym x s
  | .tbit b => Sys2Proof.Machine.execTbit b s
  | .tend => Sys2Proof.Machine.execTend s
  | .tchk => Sys2Proof.Machine.execTchk s
  | .pinit => Sys2Proof.Machine.execPinit s
  | .pbit b => Sys2Proof.Machine.execPbit b s
  | .enc x => Sys2Proof.Machine.execEnc x s
  | .pflush => Sys2Proof.Machine.execPflush s
  | .rdp a => Sys2Proof.Machine.execRdp a s
  | .uinit m => Sys2Proof.Machine.execUinit m s
  | .ubyte v => Sys2Proof.Machine.execUbyte v s
  | .uend => Sys2Proof.Machine.execUend s
  | .dinit => Sys2Proof.Machine.execDinit s
  | .dbit b => Sys2Proof.Machine.execDbit b s
  | .dend => Sys2Proof.Machine.execDend s
  | .rdo a => Sys2Proof.Machine.execRdo a s

end Sys2Proof.Machine
end

