-- ==== Sys2Proof/Machine/Step.lean ====
section
/-! DEFINITION. One step: the engine takes the oldest thing the host has sent and executes it to completion
(R5, R90). With nothing sent it waits, unchanged (log entry 1). -/

namespace Sys2Proof.Machine

/-- One step (R5, R70, R280). -/
def step (s : State) : Host.Outcome State Fault Refusal :=
  match s.take with
  | (.nothing, t) => .next t
  | (.rst, t) => .next t.clearAll
  | (.word w, t) =>
    match decode w with
    | .ok i => exec i t
    | .error _ => .next (t.illegalWord w)

/-- The host's next word is the table word `w`: the very next step takes it. -/
def State.withFetchWord (s : State) (nbits w : Nat) : State := s.placeWord (tableWord nbits w)

end Sys2Proof.Machine
end

