-- ==== Sys2Proof/Safety.lean ====
section
/-! DEFINITION. The terms in which claims about the engine are made: runs of commands, the legality table (R287),
the invariant of the machine (R25, R31, R35, R40, R61), and the functions of the source that the units compute
(greedy merge, path in the tree, `Pack`, `Unpack`), written without the engine's registers. -/

namespace Sys2Proof.Machine

/-- Commands executed in order, each from the state the one before left (R70). -/
def runCommands : List Instr → State → Host.Outcome State Fault Refusal
  | [], s => .next s
  | i :: is, s =>
    match exec i s with
    | .next t => runCommands is t
    | .fault f => .fault f
    | .refused r => .refused r

/-- `t` answers a command given in `s` with code `OK` and data `d`, and emits the bits `u` on `UB` (R93, R201);
what the host has still to say, and the configuration, are as before (R51). -/
def Emitted (s t : State) (d : Data) (u : BitString) : Prop :=
  t.cfg = s.cfg ∧ t.port = { s.port with rsps := s.port.rsps ++ [⟨.ok, d⟩], ub := s.port.ub ++ u }

/-- `t` answers a command given in `s` with code `OK` and data `d`, and emits nothing on `UB` (R93, R201). -/
def Answered (s t : State) (d : Data) : Prop :=
  t.cfg = s.cfg ∧ t.port = { s.port with rsps := s.port.rsps ++ [⟨.ok, d⟩] }

/-! ### Frames: which units are as before, memories included -/

def OnlyTree (s t : State) : Prop :=
  t.table = s.table ∧ t.pack = s.pack ∧ t.unpack = s.unpack ∧ t.dec = s.dec ∧ t.flt = s.flt

def OnlyTable (s t : State) : Prop :=
  t.tree = s.tree ∧ t.pack = s.pack ∧ t.unpack = s.unpack ∧ t.dec = s.dec ∧ t.flt = s.flt

def OnlyPack (s t : State) : Prop :=
  t.tree = s.tree ∧ t.table = s.table ∧ t.unpack = s.unpack ∧ t.dec = s.dec ∧ t.flt = s.flt

def OnlyUnpack (s t : State) : Prop :=
  t.tree = s.tree ∧ t.table = s.table ∧ t.pack = s.pack ∧ t.dec = s.dec ∧ t.flt = s.flt

def OnlyDec (s t : State) : Prop :=
  t.tree = s.tree ∧ t.table = s.table ∧ t.pack = s.pack ∧ t.unpack = s.unpack ∧ t.flt = s.flt

/-- The five units are as before; the fault registers may differ. -/
def SameUnits (s t : State) : Prop :=
  t.tree = s.tree ∧ t.table = s.table ∧ t.pack = s.pack ∧ t.unpack = s.unpack ∧ t.dec = s.dec

/-- Every piece of state of R20 is as before. -/
def Unchanged (s t : State) : Prop := SameUnits s t ∧ t.flt = s.flt

/-- The command `i` in `s` ends in fault entry (R252) with code `e`: nothing changes but `ERR` and `EINFO`, nothing
is emitted, the response is `{e, 0}`. -/
def Raises (i : Instr) (s : State) (e : ErrCode) : Prop :=
  ∃ t, exec i s = .next t ∧ SameUnits s t ∧ t.cfg = s.cfg ∧ t.flt = { err := some e, einfo := encode i } ∧
    t.port = { s.port with rsps := s.port.rsps ++ [⟨.fault e, 0#64⟩] }

/-- The commands that a faulted engine executes (R253). -/
def runsWhileFaulted : Instr → Bool
  | .nop | .clr | .rdsr _ => true
  | _ => false

/-- The commands whose response carries data (R94). -/
def carriesData : Instr → Bool
  | .rdsr _ | .rdf _ | .rdn _ | .rdnf _ | .rdcl _ | .rdcw _ _ | .pflush | .rdp _ | .rdo _ => true
  | _ => false

/-- The read commands of R67. -/
def isRead : Instr → Bool
  | .rdf _ | .rdn _ | .rdnf _ | .rdcl _ | .rdcw _ _ | .rdp _ | .rdo _ | .rdsr _ => true
  | _ => false

/-- The values that R50 gives after reset and after `CLR`, and no others: what R50 leaves unspecified is not
named here. -/
structure AtReset (s : State) : Prop where
  freq   : ∀ x, s.tree.freqAt x = 0#32
  tree   : s.tree.treeValid = false ∧ s.tree.nleaf = 0#9 ∧ s.tree.root = 0#9
  node   : ∀ j, (s.tree.nodeAt j).v = false
  hidden : s.tree.heap = [] ∧ s.table.wstk = []
  ct     : ∀ x, (s.table.entry x).v = false
  table  : s.table.ctValid = false ∧ s.table.nent = 0#9 ∧ s.table.topen = false
  pack   : s.pack.pstate = .idle ∧ s.pack.pacc = 0#8 ∧ s.pack.pnb = 0#3 ∧ s.pack.pwp = 0#33 ∧ s.pack.ppad = 0#3 ∧
    s.pack.pbitcnt = 0#64
  unpack : s.unpack.ustate = .idle ∧ s.unpack.umode = false ∧ s.unpack.upad = 0#3 ∧ s.unpack.uholdv = false ∧
    s.unpack.ubitcnt = 0#64
  dec    : s.dec.dstate = .idle ∧ s.dec.dcand = [] ∧ s.dec.ocnt = 0#33
  flt    : s.flt.err = none ∧ s.flt.einfo = 0#48

/-- The legality table of R287 (R259): what a command needs, or else it raises `E_SEQ`. -/
def legal (s : State) : Instr → Bool
  | .nop | .clr | .rdsr _ | .fclr | .ldf _ _ | .rdf _ | .build | .rdcl _ | .rdcw _ _ | .tclr | .pinit => true
  | .rdn _ | .rdnf _ | .gen => s.tree.treeValid
  | .tsym _ | .tchk => !s.table.topen
  | .tbit _ | .tend => s.table.topen
  | .pbit _ | .pflush => decide (s.pack.pstate = .active)
  | .enc _ => decide (s.pack.pstate = .active) && s.table.ctValid
  | .rdp _ => decide (s.pack.pstate = .done)
  | .uinit m => !m || s.table.ctValid
  | .ubyte _ | .uend =>
    (decide (s.unpack.ustate = .pad) || decide (s.unpack.ustate = .data)) &&
      (!s.unpack.umode || (decide (s.dec.dstate = .run) && s.table.ctValid))
  | .dinit => s.table.ctValid
  | .dbit _ => decide (s.dec.dstate = .run) && s.table.ctValid
  | .dend => decide (s.dec.dstate = .run)
  | .rdo _ => decide (s.dec.dstate = .done)

/-- The commands that the table of R251 lists as raising a fault code. -/
def raisedBy : ErrCode → Instr → Bool
  | .ill, i => !i.wellFormed
  | .seq, .rdn _ | .seq, .rdnf _ | .seq, .gen | .seq, .tsym _ | .seq, .tbit _ | .seq, .tend | .seq, .tchk
  | .seq, .pbit _ | .seq, .enc _ | .seq, .pflush | .seq, .rdp _ | .seq, .uinit true | .seq, .ubyte _ | .seq, .uend
  | .seq, .dinit | .seq, .dbit _ | .seq, .dend | .seq, .rdo _ => true
  | .empty, .build => true
  | .corrupt, .tsym _ | .corrupt, .tbit _ | .corrupt, .tend => true
  | .ambig, .tchk => true
  | .trunc, .dbit _ | .trunc, .dend | .trunc, .ubyte _ | .trunc, .uend => true
  | .pad, .ubyte _ | .pad, .uend => true
  | .nocode, .enc _ => true
  | .ovf, .pbit _ | .ovf, .enc _ | .ovf, .pflush | .ovf, .dbit _ | .ovf, .ubyte _ | .ovf, .uend => true
  | .range, .rdp _ | .range, .rdo _ => true
  | _, _ => false

/-! ### Key orders -/

/-- An admissible `KEYLT` (R7, R125): a strict total order on keys that refines "smaller `F` first". -/
structure AdmissibleOrder (lt : Key → Key → Bool) : Prop where
  irrefl : ∀ x, lt x x = false
  trans  : ∀ x y z, lt x y = true → lt y z = true → lt x z = true
  total  : ∀ x y, x ≠ y → lt x y = true ∨ lt y x = true
  refines : ∀ x y, x.f < y.f → lt x y = true

/-- A strict total order on nodes, as `KEYLT` is on a pool (R125). -/
structure StrictTotal (lt : NodeIdx → NodeIdx → Bool) : Prop where
  irrefl : ∀ x, lt x x = false
  trans  : ∀ x y z, lt x y = true → lt y z = true → lt x z = true
  total  : ∀ x y, x ≠ y → lt x y = true ∨ lt y x = true

/-- Binary-heap order (R130): no entry comes before its parent. -/
def HeapOrdered (lt : NodeIdx → NodeIdx → Bool) (h : List NodeIdx) : Prop :=
  ∀ j, 0 < j → j < h.length → lt (heapAt h j) (heapAt h ((j - 1) / 2)) = false

/-! ### The tree -/

/-- The internal node written by merge `k` (R24). -/
def internalIdx (k : Nat) : NodeIdx := BitVec.ofNat 9 (256 + k)

/-- The leaf of a Symbol (R24). -/
def leafIdx (x : Symbol) : NodeIdx := x.setWidth 9

/-- `p` is a live internal node and `n` one of its children. -/
def TreeBuilder.IsChild (t : TreeBuilder) (p n : NodeIdx) : Prop :=
  256 ≤ p.toNat ∧ (t.nodeAt p).v = true ∧ ((t.nodeAt p).l = n ∨ (t.nodeAt p).r = n)

/-- The invariants (a) to (f) of R25, (e) with the index 254 + `NLEAF` that R124 to R126 and R129 give (log
entry 6). -/
structure TreeBuilder.IsTree (t : TreeBuilder) : Prop where
  leaves : ∀ x, ((t.nodeAt (leafIdx x)).v = true ↔ t.freqAt x ≠ 0#32) ∧
    ((t.nodeAt (leafIdx x)).v = true → (t.nodeAt (leafIdx x)).f = (t.freqAt x).setWidth 40)
  internals : ∀ k, k < 255 → ((t.nodeAt (internalIdx k)).v = true ↔ k + 1 < t.nleaf.toNat)
  children : ∀ n, 256 ≤ n.toNat → (t.nodeAt n).v = true →
    (t.nodeAt n).l < n ∧ (t.nodeAt n).r < n ∧ (t.nodeAt n).l ≠ (t.nodeAt n).r ∧
    (t.nodeAt (t.nodeAt n).l).v = true ∧ (t.nodeAt (t.nodeAt n).r).v = true ∧
    (t.nodeAt n).f.toNat = (t.nodeAt (t.nodeAt n).l).f.toNat + (t.nodeAt (t.nodeAt n).r).f.toNat
  parents : ∀ n, (t.nodeAt n).v = true → n ≠ t.root → ∃ p, t.IsChild p n ∧ ∀ q, t.IsChild q n → q = p
  rootless : ∀ p, ¬ t.IsChild p t.root
  rootAt : (t.nodeAt t.root).v = true ∧ 1 ≤ t.nleaf.toNat ∧ t.nleaf.toNat ≤ 256 ∧
    (2 ≤ t.nleaf.toNat → t.root.toNat = 254 + t.nleaf.toNat) ∧ (t.nleaf.toNat = 1 → t.root.toNat < 256)
  counted : t.freq.cells.countP (fun n => n != 0#32) = t.nleaf.toNat
  total : (t.nodeAt t.root).f.toNat = (t.freq.cells.map BitVec.toNat).sum

/-- The Tree Builder between two commands (R23, R25, R26). -/
structure TreeInv (t : TreeBuilder) : Prop where
  valid   : t.treeValid = true → t.IsTree
  invalid : t.treeValid = false → t.nleaf = 0#9 ∧ t.root = 0#9
  heap    : t.heap = []

/-- The node reached from `n` along a bit-string, 0 to the left and 1 to the right (R101, R151). -/
def TreeBuilder.follow (t : TreeBuilder) : NodeIdx → BitString → Option NodeIdx
  | n, [] => some n
  | n, b :: c =>
    if n.toNat < 256 then none else t.follow (if b then (t.nodeAt n).r else (t.nodeAt n).l) c

/-- The least node of a pool under `lt`, `m` being the least seen so far (R125). -/
def leastOf (lt : NodeIdx → NodeIdx → Bool) (m : NodeIdx) : List NodeIdx → NodeIdx
  | [] => m
  | y :: ys => leastOf lt (if lt y m then y else m) ys

/-- `MIN(POOL)` (R125). -/
def minPool (lt : NodeIdx → NodeIdx → Bool) : List NodeIdx → NodeIdx
  | [] => 0#9
  | x :: xs => leastOf lt x xs

/-- The leaves of `B_INIT` (R124), with the pool a plain set of nodes. -/
def plantLeaves : List Count → Nat → List NodeIdx × TreeBuilder → List NodeIdx × TreeBuilder
  | [], _, p => p
  | n :: ns, x, p =>
    plantLeaves ns (x + 1)
      (if n = 0#32 then p
       else (BitVec.ofNat 9 x :: p.1,
         p.2.setNode (BitVec.ofNat 9 x) { v := true, f := n.setWidth 40, l := 0#9, r := 0#9 }))

/-- The merges of R126, with the pool a plain set of nodes: remove the least, remove the least again, add the
node that joins them. -/
def poolMerges (c : Config) : Nat → NodeIdx → List NodeIdx × TreeBuilder → List NodeIdx × TreeBuilder
  | 0, _, p => p
  | k + 1, next, (pool, t) =>
    if 1 < pool.length then
      let x := minPool (t.before c) pool
      let y := minPool (t.before c) (pool.erase x)
      poolMerges c k (next + 1#9) (next :: (pool.erase x).erase y, t.setNode next (mergedNode c t x y))
    else (pool, t)

/-- `BUILD` as rules R123 to R127 state it, without the heap of R130. -/
def poolBuild (c : Config) (t : TreeBuilder) : TreeBuilder :=
  let p := plantLeaves t.freq.cells 0 ([], { t with node := t.node.map (fun n => { n with v := false }) })
  let q := poolMerges c p.1.length 256#9 p
  { q.2 with root := minPool (q.2.before c) q.1, nleaf := BitVec.ofNat 9 p.1.length, treeValid := true, heap := [] }

/-! ### The Code Table -/

/-- No live code is a prefix of another live entry's code (R31). -/
def PrefixFree (g : CodeTable) : Prop :=
  ∀ x y, x ≠ y → (g.entry x).v = true → (g.entry y).v = true → ¬ (g.entry x).code <+: (g.entry y).code

/-- The number of live entries (R31). -/
def CodeTable.liveCount (g : CodeTable) : Nat := g.ct.cells.countP (fun e => e.v)

/-- The Code Table Generator between two commands (R27, R30 to R32). -/
structure TableInv (g : CodeTable) : Prop where
  lengths : ∀ x, (g.entry x).v = true → 1 ≤ (g.entry x).code.length ∧ (g.entry x).code.length ≤ 255
  prefixFree : g.ctValid = true → PrefixFree g
  counted : g.nent.toNat = g.liveCount
  opened : g.topen = true → g.ctValid = false ∧ (g.entry g.ts).v = false
  scratch : g.tc.length ≤ 255
  stack : g.wstk = []

/-! ### The packer, the unpacker, the decoder -/

/-- The Bit Packer between two commands (R35, R61, R66). -/
structure PackInv (c : Config) (p : Packer) : Prop where
  canonical : p.pmem.wf
  inside : ∀ a, (p.pmem.read a).isSome = true → a < c.pmemBytes
  written : ∀ a, a < p.pwp.toNat → (p.pmem.read a).isSome = true
  capacity : p.pwp.toNat ≤ c.pmemBytes
  idle : p.pstate = .idle → p = .reset
  active : p.pstate = .active →
    p.pnb.toNat = p.pbitcnt.toNat % 8 ∧ p.pwp.toNat = 1 + p.pbitcnt.toNat / 8 ∧ p.pacc.toNat < 2 ^ p.pnb.toNat
  done : p.pstate = .done →
    p.pnb = 0#3 ∧ p.pacc = 0#8 ∧ p.pwp.toNat = 1 + (p.pbitcnt.toNat + 7) / 8 ∧
    p.ppad.toNat = (8 - p.pbitcnt.toNat % 8) % 8 ∧ p.pmem.read 0 = some (p.ppad.setWidth 8)

/-- The Bit Unpacker between two commands (R38): a byte is held only while data bytes are taken. -/
def UnpackInv (u : Unpacker) : Prop := u.uholdv = true → u.ustate = .data

/-- The Decoder between two commands (R40, R62, R66). -/
structure DecInv (c : Config) (d : Decoder) : Prop where
  canonical : d.omem.wf
  inside : ∀ a, (d.omem.read a).isSome = true → a < c.omemBytes.val
  written : ∀ a, a < d.ocnt.toNat → (d.omem.read a).isSome = true
  capacity : d.ocnt.toNat ≤ c.omemBytes.val
  candidate : d.dcand.length ≤ 254
  atRest : d.dstate ≠ .run → d.dcand = []

/-- The invariant of the machine: every unit's, and `EINFO` is 0 while no fault is recorded (R43, R50). -/
structure EngineInv (s : State) : Prop where
  tree   : TreeInv s.tree
  table  : TableInv s.table
  pack   : PackInv s.cfg s.pack
  unpack : UnpackInv s.unpack
  dec    : DecInv s.cfg s.dec
  flt    : s.flt.err = none → s.flt.einfo = 0#48

/-! ### `Pack`, `Unpack` and codes -/

/-- The padding count of `n` bits (R12 (c)). -/
def padOf (n : Nat) : Nat := (8 - n % 8) % 8

/-- A byte from its eight bits, most significant first (R63). -/
def byteOf (b0 b1 b2 b3 b4 b5 b6 b7 : Bool) : Byte :=
  BitVec.ofBool b0 ++ BitVec.ofBool b1 ++ BitVec.ofBool b2 ++ BitVec.ofBool b3
    ++ BitVec.ofBool b4 ++ BitVec.ofBool b5 ++ BitVec.ofBool b6 ++ BitVec.ofBool b7

/-- Consecutive 8-bit chunks as bytes (R63, R186). -/
def chunks : BitString → List Byte
  | b0 :: b1 :: b2 :: b3 :: b4 :: b5 :: b6 :: b7 :: u => byteOf b0 b1 b2 b3 b4 b5 b6 b7 :: chunks u
  | _ => []

/-- The payload of a bit-string, `[pad] ++ bytes` of `Pack` (R186). -/
def payloadOf (u : BitString) : List Byte :=
  BitVec.ofNat 8 (padOf u.length) :: chunks (u ++ List.replicate (padOf u.length) false)

/-- `Unpack(p)` (R204). -/
def unpackOf : List Byte → BitString
  | [] => []
  | pad :: ps => (ps.flatMap byteBits).take (8 * ps.length - pad.toNat)

/-- The concatenation of the codes of a sequence of Symbols (R183, R227). -/
def codesOf (g : CodeTable) (xs : List Symbol) : BitString := xs.flatMap (fun x => (g.entry x).code)

/-- A bit operand or a Symbol operand: what one `PBIT` or one `ENC` appends (R186). -/
abbrev Feed := Bool ⊕ Symbol

/-- The command of a feed. -/
def Feed.command : Feed → Instr
  | .inl b => .pbit b
  | .inr x => .enc x

/-- The bits that a feed pushes (R181, R183). -/
def Feed.bits (g : CodeTable) : Feed → BitString
  | .inl b => [b]
  | .inr x => (g.entry x).code

/-- The table is the one `GEN` makes of a tree of two or more leaves (R151, R226). -/
def TableOfTree (g : CodeTable) (t : TreeBuilder) : Prop :=
  ∀ x c, ((g.entry x).v = true ∧ (g.entry x).code = c) ↔ t.follow t.root c = some (leafIdx x)

/-- `FREQS` (R100): `FCLR`, then the counts of the Symbols of an input, in increasing order. -/
def freqCommands (xs : List Symbol) : List Instr :=
  .fclr :: (((List.range 256).map (BitVec.ofNat 8)).filter (fun x => xs.contains x)).map
    (fun x => .ldf x (BitVec.ofNat 32 (xs.count x)))

/-! ### What is never read -/

/-- Two states that differ at most in what R50 and 93_implementation_defined.md (S1, S2) leave unspecified: the
fields of dead nodes and dead table entries, the entry scratch while no entry is open, the held byte while none is
held, and the bytes of the memories at and beyond `PWP` and `OCNT`. -/
structure SameSpecified (s u : State) : Prop where
  cfg    : u.cfg = s.cfg
  port   : u.port = s.port
  flt    : u.flt = s.flt
  tree   : u.tree.freq = s.tree.freq ∧ u.tree.treeValid = s.tree.treeValid ∧ u.tree.nleaf = s.tree.nleaf ∧
    u.tree.root = s.tree.root ∧ u.tree.heap = s.tree.heap
  node   : ∀ j, (u.tree.nodeAt j).v = (s.tree.nodeAt j).v ∧
    ((s.tree.nodeAt j).v = true → u.tree.nodeAt j = s.tree.nodeAt j)
  table  : u.table.ctValid = s.table.ctValid ∧ u.table.nent = s.table.nent ∧ u.table.topen = s.table.topen ∧
    u.table.wstk = s.table.wstk
  ct     : ∀ x, (u.table.entry x).v = (s.table.entry x).v ∧
    ((s.table.entry x).v = true → u.table.entry x = s.table.entry x)
  opened : s.table.topen = true → u.table.ts = s.table.ts ∧ u.table.tc = s.table.tc
  pack   : { u.pack with pmem := s.pack.pmem } = s.pack
  pmem   : ∀ a, a < s.pack.pwp.toNat → u.pack.pmem.read a = s.pack.pmem.read a
  unpack : { u.unpack with uhold := s.unpack.uhold } = s.unpack
  held   : s.unpack.uholdv = true → u.unpack.uhold = s.unpack.uhold
  dec    : { u.dec with omem := s.dec.omem } = s.dec
  omem   : ∀ a, a < s.dec.ocnt.toNat → u.dec.omem.read a = s.dec.omem.read a

end Sys2Proof.Machine
end

