-- ==== Sys2Proof/Certificates/Slice0/Obligations.lean ====
section
/-! DEFINITION. The statements for the provers, in the order of OBLIGATIONS.json. Each holds for every
configuration a state can carry (every admissible `KEYLT`, `CHILD`, `PMEM_BYTES`, `OMEM_BYTES`) unless it names
one. A frame such as `OnlyPack s t` says that every other unit is as before, its memory included. -/

open Sys2Proof Sys2Proof.Machine

/-! ### Encoding -/

/-- Words written out from the opcode map (R95) and the formats (R91), at least one per family, decode to the
commands they stand for. -/
def Obligations.WrittenOutWordsDecode : Prop :=
  decode 0x000000000000#48 = .ok .nop ∧ decode 0x020B00000000#48 = .ok (.rdsr 11#8) ∧
  decode 0x116100000005#48 = .ok (.ldf 0x61#8 5#32) ∧ decode 0x1400000001FE#48 = .ok (.rdn 510#9) ∧
  decode 0x227200000003#48 = .ok (.rdcw 0x72#8 3#2) ∧ decode 0x250000000001#48 = .ok (.tbit true) ∧
  decode 0x326200000000#48 = .ok (.enc 0x62#8) ∧ decode 0x340080000000#48 = .ok (.rdp 0x80000000#32) ∧
  decode 0x400000000001#48 = .ok (.uinit true) ∧ decode 0x41DC00000000#48 = .ok (.ubyte 0xDC#8) ∧
  decode 0x440000000000#48 = .ok (.dbit false) ∧ decode 0x310000000002#48 = .error .reservedBit

/-- Decode and encode agree, for every command at every operand value. -/
def Obligations.DecodeEncodeRoundTrip : Prop :=
  ∀ i : Instr, i.wellFormed = true → decode (encode i) = .ok i

/-- A word that decodes is the word of the command it decodes to: no bit of a legal word is dropped. -/
def Obligations.DecodedWordsEncodeBack : Prop :=
  ∀ w i, decode w = .ok i → encode i = w ∧ i.wellFormed = true

/-- R96: which words are illegal, and what an illegal word does. -/
def Obligations.IllegalWordsAreTheRest : Prop :=
  opcodeTable.map (fun r => r.opcode) =
    [0x00#8, 0x01#8, 0x02#8, 0x10#8, 0x11#8, 0x12#8, 0x13#8, 0x14#8, 0x15#8, 0x20#8, 0x21#8, 0x22#8, 0x23#8, 0x24#8,
     0x25#8, 0x26#8, 0x27#8, 0x30#8, 0x31#8, 0x32#8, 0x33#8, 0x34#8, 0x40#8, 0x41#8, 0x42#8, 0x43#8, 0x44#8, 0x45#8,
     0x46#8] ∧
  (∀ w : CmdWord, (∃ e, decode w = .error e) ↔
    ((∀ r ∈ opcodeTable, w &&& r.format.mask ≠ r.matchWord) ∨
     (w &&& 0xFF00FFFFFFFF#48 = 0x020000000000#48 ∧ 12 ≤ (fieldA w).toNat))) ∧
  (∀ w e s rest, decode w = .error e → s.port.inq = .word w :: rest →
    ∃ t, step s = .next t ∧ SameUnits s t ∧ t.cfg = s.cfg ∧ t.port.inq = rest ∧ t.port.ub = s.port.ub ∧
      (s.flt.err = none → t.flt = { err := some .ill, einfo := w } ∧
        t.port.rsps = s.port.rsps ++ [⟨.fault .ill, 0#64⟩]) ∧
      (s.flt.err ≠ none → t.flt = s.flt ∧ t.port.rsps = s.port.rsps ++ [⟨.faulted, 0#64⟩]))

/-! ### The step, responses and faults -/

/-- R90, R103: when the oldest thing the host has sent is a word that decodes to `i`, the step takes it and is
`exec i`; the words after it wait. -/
def Obligations.StepRunsTheDecodedCommand : Prop :=
  ∀ s w i rest, s.port.inq = .word w :: rest → decode w = .ok i →
    step s = exec i { s with port := { s.port with inq := rest } }

/-- R280, R281: `rst` leaves the reset values of R50 and sends no response, and has the same effect on state as
`CLR`. That an `rst` arrives between words is log entry 2. With nothing sent the engine waits: that a step then
answers the same state is the model's choice, log entry 1. -/
def Obligations.StepResetsOrWaits : Prop :=
  (∀ s rest, s.port.inq = .rst :: rest →
    ∃ t u, step s = .next t ∧ AtReset t ∧ t.cfg = s.cfg ∧ t.port = { s.port with inq := rest } ∧
      exec .clr { s with port := { s.port with inq := rest } } = .next u ∧ Answered t u 0#64 ∧ Unchanged t u) ∧
  (∀ s, s.port.inq = [] → step s = .next s)

/-- R253: the faulted state. `NOP`, `CLR` and `RDSR` run; every other word is refused; what is recorded stays until
`CLR`, so the first fault wins. -/
def Obligations.FaultedEngineRefuses : Prop :=
  ∀ s w rest, s.flt.err ≠ none → s.port.inq = .word w :: rest →
    (∀ i, decode w = .ok i → runsWhileFaulted i = true →
      ∃ t d, step s = .next t ∧ t.cfg = s.cfg ∧
        t.port = { inq := rest, rsps := s.port.rsps ++ [⟨.ok, d⟩], ub := s.port.ub } ∧
        exec i { s with port := { s.port with inq := rest } } = .next t ∧ (i = .clr ∨ Unchanged s t)) ∧
    ((∀ i, decode w = .ok i → runsWhileFaulted i = false) →
      ∃ t, step s = .next t ∧ Unchanged s t ∧ t.cfg = s.cfg ∧
        t.port = { inq := rest, rsps := s.port.rsps ++ [⟨.faulted, 0#64⟩], ub := s.port.ub })

/-- R252 (and R250, precision): a step that records a fault has undone everything else the command did, emits
nothing, and `EINFO` is the word. -/
def Obligations.FaultEntryIsPrecise : Prop :=
  ∀ s w rest t, s.flt.err = none → s.port.inq = .word w :: rest → step s = .next t → t.flt.err ≠ none →
    ∃ e, t.flt = { err := some e, einfo := w } ∧ SameUnits s t ∧ t.cfg = s.cfg ∧
      t.port = { inq := rest, rsps := s.port.rsps ++ [⟨.fault e, 0#64⟩], ub := s.port.ub }

/-- R93, R94: one response per word, its layout, no data with a code other than 0 nor from a command whose rule
gives none, and no change but to `ERR` and `EINFO` with a code other than 0. -/
def Obligations.EveryWordIsAnsweredOnce : Prop :=
  ∀ s w rest t, s.port.inq = .word w :: rest → step s = .next t →
    t.port.inq = rest ∧ t.cfg = s.cfg ∧
    ∃ r, t.port.rsps = s.port.rsps ++ [r] ∧
      r.word.extractLsb' 64 8 = r.code.number ∧ r.word.extractLsb' 0 64 = r.data ∧
      (r.code.number = 0#8 ↔ r.code = .ok) ∧
      (r.code ≠ .ok → r.data = 0#64 ∧ SameUnits s t ∧ t.port.ub = s.port.ub) ∧
      (∀ i, decode w = .ok i → carriesData i = false → r.data = 0#64)

/-- R253, R43: the first fault wins. No run of commands without `CLR` changes anything once a fault is recorded. -/
def Obligations.FirstFaultWins : Prop :=
  ∀ (is : List Instr) s t, s.flt.err ≠ none → .clr ∉ is → runCommands is s = .next t → Unchanged s t

/-- R259: `E_SEQ` is raised exactly where the legality table says. -/
def Obligations.SequenceFaultsExactly : Prop :=
  ∀ s i, s.flt.err = none → (Raises i s .seq ↔ legal s i = false)

/-- R251: the numbers of the codes, and which commands raise which. -/
def Obligations.FaultCodesComeFromTheirCommands : Prop :=
  (∀ s i t e, s.flt.err = none → exec i s = .next t → t.flt.err = some e → raisedBy e i = true) ∧
  [ErrCode.ill, .seq, .empty, .corrupt, .ambig, .trunc, .pad, .nocode, .ovf, .range].map ErrCode.number =
    [1#8, 2#8, 3#8, 4#8, 5#8, 6#8, 7#8, 8#8, 9#8, 10#8] ∧
  RspCode.ok.number = 0#8 ∧ RspCode.faulted.number = 15#8

/-- R45: each flag is set and cleared by the commands of its row alone, and only `UBYTE` and `UEND` emit (R201). -/
def Obligations.FlagsChangeOnlyByTheirCommands : Prop :=
  ∀ s i t, exec i s = .next t →
    (s.tree.treeValid = false → t.tree.treeValid = true → i = .build) ∧
    (s.tree.treeValid = true → t.tree.treeValid = false → i = .fclr ∨ (∃ x n, i = .ldf x n) ∨ i = .clr) ∧
    (s.table.ctValid = false → t.table.ctValid = true → i = .gen ∨ i = .tchk) ∧
    (s.table.ctValid = true → t.table.ctValid = false → i = .tclr ∨ (∃ x, i = .tsym x) ∨ i = .clr) ∧
    (s.table.topen = false → t.table.topen = true → ∃ x, i = .tsym x) ∧
    (s.table.topen = true → t.table.topen = false → i = .tend ∨ i = .gen ∨ i = .tclr ∨ i = .clr) ∧
    (t.pack.pstate ≠ s.pack.pstate → (i = .pinit ∧ t.pack.pstate = .active) ∨ (i = .pflush ∧ t.pack.pstate = .done) ∨
      (i = .clr ∧ t.pack.pstate = .idle)) ∧
    (t.unpack.ustate ≠ s.unpack.ustate → ((∃ m, i = .uinit m) ∧ t.unpack.ustate = .pad) ∨
      ((∃ v, i = .ubyte v) ∧ s.unpack.ustate = .pad ∧ t.unpack.ustate = .data) ∨
      (i = .uend ∧ t.unpack.ustate = .done) ∨ (i = .clr ∧ t.unpack.ustate = .idle)) ∧
    (t.unpack.umode ≠ s.unpack.umode → i = .uinit t.unpack.umode ∨ (i = .clr ∧ t.unpack.umode = false)) ∧
    (s.unpack.uholdv = false → t.unpack.uholdv = true → (∃ v, i = .ubyte v) ∧ s.unpack.ustate = .data) ∧
    (s.unpack.uholdv = true → t.unpack.uholdv = false → (∃ m, i = .uinit m) ∨ i = .uend ∨ i = .clr) ∧
    (t.dec.dstate ≠ s.dec.dstate → ((i = .dinit ∨ i = .uinit true) ∧ t.dec.dstate = .run) ∨
      ((i = .dend ∨ (i = .uend ∧ s.unpack.umode = true)) ∧ t.dec.dstate = .done) ∨
      (i = .clr ∧ t.dec.dstate = .idle)) ∧
    (s.flt.err ≠ none → t.flt.err = none → i = .clr) ∧
    (t.port.ub ≠ s.port.ub → (∃ v, i = .ubyte v) ∨ i = .uend)

/-- R67: a read that succeeds changes nothing, and the same read again answers the same. -/
def Obligations.ReadsHaveNoSideEffect : Prop :=
  ∀ s i t d, isRead i = true → exec i s = .next t → Answered s t d →
    Unchanged s t ∧ ∃ u, exec i t = .next u ∧ Answered t u d ∧ Unchanged t u

/-! ### Control -/

/-- R240: `NOP`, faulted or not. -/
def Obligations.NopDoesNothing : Prop :=
  encode .nop = 0x000000000000#48 ∧
  (∀ s, ∃ t, exec .nop s = .next t ∧ Answered s t 0#64 ∧ Unchanged s t) ∧
  (∀ w : CmdWord, opcOf w = 0x00#8 → w ≠ 0#48 → ∃ e, decode w = .error e)

/-- R241, R50: `CLR` in every state, faulted or not. -/
def Obligations.ClrResets : Prop :=
  encode .clr = 0x010000000000#48 ∧
  ∀ s, ∃ t, exec .clr s = .next t ∧ Answered s t 0#64 ∧ AtReset t

/-- R242, R46, R47: every status register, its value, the fields of `STATUS`, zero after reset; in every state,
faulted or not. A number from 12 on is an illegal word, refused while faulted. -/
def Obligations.RdsrReadsTheStatusRegisters : Prop :=
  (∀ n, encode (.rdsr n) = 0x02#8 ++ n ++ 0#32) ∧
  (∀ s : State, ∀ p ∈ ([(0#8, s.status.setWidth 64), (1#8, s.flt.errNumber.setWidth 64), (2#8, s.flt.einfo.setWidth 64),
      (3#8, s.tree.nleaf.setWidth 64), (4#8, s.tree.root.setWidth 64), (5#8, s.table.nent.setWidth 64),
      (6#8, s.pack.pwp.setWidth 64), (7#8, s.pack.pbitcnt), (8#8, s.pack.ppad.setWidth 64), (9#8, s.unpack.ubitcnt),
      (10#8, s.dec.ocnt.setWidth 64), (11#8, (BitVec.ofNat 8 s.dec.dcand.length).setWidth 64)] :
      List (BitVec 8 × Data)),
    ∃ t, exec (.rdsr p.1) s = .next t ∧ Answered s t p.2 ∧ Unchanged s t) ∧
  (∀ s n, s.flt.err = none → 12 ≤ n.toNat → Raises (.rdsr n) s .ill) ∧
  (∀ s n, s.flt.err ≠ none → 12 ≤ n.toNat → ∃ t, exec (.rdsr n) s = .next t ∧ Unchanged s t ∧ t.cfg = s.cfg ∧
    t.port = { s.port with rsps := s.port.rsps ++ [⟨.faulted, 0#64⟩] }) ∧
  (∀ s, TreeInv s.tree → s.tree.treeValid = false →
    ∃ t u, exec (.rdsr 3#8) s = .next t ∧ Answered s t 0#64 ∧ exec (.rdsr 4#8) s = .next u ∧ Answered s u 0#64) ∧
  (∀ s : State, s.status.extractLsb' 0 1 = BitVec.ofBool s.tree.treeValid ∧
    s.status.extractLsb' 1 1 = BitVec.ofBool s.table.ctValid ∧ s.status.extractLsb' 2 1 = BitVec.ofBool s.table.topen ∧
    s.status.extractLsb' 3 2 = s.pack.pstate.number ∧ s.status.extractLsb' 5 2 = s.unpack.ustate.number ∧
    s.status.extractLsb' 7 1 = BitVec.ofBool s.unpack.umode ∧ s.status.extractLsb' 8 2 = s.dec.dstate.number ∧
    (s.status.extractLsb' 10 1 = 1#1 ↔ s.flt.err ≠ none) ∧
    s.pack.pstate.number ≠ 3#2 ∧ s.dec.dstate.number ≠ 3#2 ∧ (s.flt.errNumber = 0#8 ↔ s.flt.err = none)) ∧
  (∀ n : BitVec 8, n.toNat < 12 → ∃ t, exec (.rdsr n) State.reset = .next t ∧ Answered State.reset t 0#64)

/-! ### Tree Builder -/

/-- R120: `FCLR`. -/
def Obligations.FclrEmptiesTheFrequencyTable : Prop :=
  encode .fclr = 0x100000000000#48 ∧
  ∀ s, s.flt.err = none → ∃ t, exec .fclr s = .next t ∧ Answered s t 0#64 ∧ (∀ x, t.tree.freqAt x = 0#32) ∧
    t.tree.treeValid = false ∧ t.tree.nleaf = 0#9 ∧ t.tree.root = 0#9 ∧
    t.tree.node = s.tree.node ∧ t.tree.heap = s.tree.heap ∧ OnlyTree s t

/-- R121: `LDF s, n`, for every count, 0 included. -/
def Obligations.LdfLoadsOneFrequency : Prop :=
  (∀ x n, encode (.ldf x n) = 0x11#8 ++ x ++ n) ∧
  ∀ s x n, s.flt.err = none → ∃ t, exec (.ldf x n) s = .next t ∧ Answered s t 0#64 ∧ t.tree.freqAt x = n ∧
    (∀ y, y ≠ x → t.tree.freqAt y = s.tree.freqAt y) ∧
    t.tree.treeValid = false ∧ t.tree.nleaf = 0#9 ∧ t.tree.root = 0#9 ∧
    t.tree.node = s.tree.node ∧ t.tree.heap = s.tree.heap ∧ OnlyTree s t

/-- R122: `RDF s`; after reset every Symbol reads 0 (R50). -/
def Obligations.RdfReadsOneFrequency : Prop :=
  (∀ x, encode (.rdf x) = 0x12#8 ++ x ++ 0#32) ∧
  (∀ s x, s.flt.err = none →
    ∃ t, exec (.rdf x) s = .next t ∧ Answered s t ((s.tree.freqAt x).setWidth 64) ∧ Unchanged s t) ∧
  (∀ s x, AtReset s → ∃ t, exec (.rdf x) s = .next t ∧ Answered s t 0#64)

/-- R123, R25: `BUILD` raises `E_EMPTY` on an empty Frequency Table and otherwise leaves a tree with the invariants
of R25; the index of the root is that of R124 to R127 and R129 (log entry 6). -/
def Obligations.BuildGivesATree : Prop :=
  encode .build = 0x130000000000#48 ∧
  (∀ s, s.flt.err = none → (∀ x, s.tree.freqAt x = 0#32) → Raises .build s .empty) ∧
  (∀ s x, s.flt.err = none → s.tree.freqAt x ≠ 0#32 →
    ∃ t, exec .build s = .next t ∧ Answered s t 0#64 ∧ t.tree.treeValid = true ∧ t.tree.freq = s.tree.freq ∧
      t.tree.IsTree ∧ t.tree.heap = [] ∧ OnlyTree s t)

/-- R123 to R127, R130: the heap of R130 adds nothing. `BUILD` is the greedy merge over a plain set of nodes, for
every `KEYLT` and both values of `CHILD`. -/
def Obligations.BuildIsTheGreedyMerge : Prop :=
  ∀ s x, s.flt.err = none → s.tree.freqAt x ≠ 0#32 →
    ∃ t, exec .build s = .next t ∧ Answered s t 0#64 ∧ t.tree = poolBuild s.cfg s.tree ∧ OnlyTree s t

/-- R123: "every step is a function of `FREQ` and `KEYLT` alone" (and of `CHILD`, R126): what an earlier tree left
behind, and everything else in the state, has no effect on the tree built. -/
def Obligations.BuildDependsOnTheCountsAlone : Prop :=
  ∀ s u x, s.flt.err = none → u.flt.err = none → s.tree.freqAt x ≠ 0#32 → u.tree.freq = s.tree.freq →
    u.cfg.ties = s.cfg.ties → u.cfg.child = s.cfg.child →
    ∃ s' u', exec .build s = .next s' ∧ exec .build u = .next u' ∧
      u'.tree.root = s'.tree.root ∧ u'.tree.nleaf = s'.tree.nleaf ∧
      ∀ j, (u'.tree.nodeAt j).v = (s'.tree.nodeAt j).v ∧
        ((s'.tree.nodeAt j).v = true → u'.tree.nodeAt j = s'.tree.nodeAt j)

/-- R126: at every internal node the child removed first comes first under `KEYLT`, and it is the left child exactly
when `CHILD` says so. -/
def Obligations.BuildOrdersTheChildren : Prop :=
  ∀ s x, s.flt.err = none → s.tree.freqAt x ≠ 0#32 →
    ∃ t, exec .build s = .next t ∧
      ∀ n, 256 ≤ n.toNat → (t.tree.nodeAt n).v = true →
        (s.cfg.child = .firstIsLeft → t.tree.before s.cfg (t.tree.nodeAt n).l (t.tree.nodeAt n).r = true) ∧
        (s.cfg.child = .firstIsRight → t.tree.before s.cfg (t.tree.nodeAt n).r (t.tree.nodeAt n).l = true)

/-- R128, R152: the one-symbol edge case, tree and table. -/
def Obligations.OneSymbolGetsTheOneBitCode : Prop :=
  ∀ s x, s.flt.err = none → s.tree.freqAt x ≠ 0#32 → (∀ y, y ≠ x → s.tree.freqAt y = 0#32) →
    ∃ t, exec .build s = .next t ∧ Answered s t 0#64 ∧ t.tree.root = leafIdx x ∧ t.tree.nleaf = 1#9 ∧
      t.tree.treeValid = true ∧ (∀ n, 256 ≤ n.toNat → (t.tree.nodeAt n).v = false) ∧
      ∃ u, exec .gen t = .next u ∧ Answered t u 0#64 ∧ (∀ y, (u.table.entry y).v = true ↔ y = x) ∧
        (u.table.entry x).code = [false] ∧ u.table.nent = 1#9 ∧ u.table.ctValid = true ∧ u.table.topen = false ∧
        OnlyTable t u

/-- R128, R151: in a tree, every live leaf is reached from the root along exactly one bit-string, of at most
`NLEAF - 1` bits. -/
def Obligations.EveryLeafHasOneBoundedPath : Prop :=
  ∀ (t : TreeBuilder) x, t.IsTree → (t.nodeAt (leafIdx x)).v = true →
    ∃ c, t.follow t.root c = some (leafIdx x) ∧ (∀ d, t.follow t.root d = some (leafIdx x) → d = c) ∧
      c.length + 1 ≤ t.nleaf.toNat

/-- R7, R125: the orders that a configuration can hold are exactly the admissible ones, and the default is
`(F, index)`. The tie table that holds them is log entry 3. -/
def Obligations.EveryAdmissibleKeyOrderIsHeld : Prop :=
  (∀ lt : Key → Key → Bool,
    AdmissibleOrder lt ↔ ∃ ties, ∀ c : Config, c.ties = ties → ∀ x y, c.keyLt x y = lt x y) ∧
  (∀ x y, Config.standard.keyLt x y = true ↔ x.f < y.f ∨ (x.f = y.f ∧ x.i < y.i))

/-- R131: `RDN i`, for all 512 indices; in a tree a Symbol with no count and an index beyond the last internal node
read 0. -/
def Obligations.RdnReadsTheLinks : Prop :=
  (∀ j, encode (.rdn j) = 0x14#8 ++ 0#31 ++ j) ∧
  (∀ s j, s.flt.err = none → s.tree.treeValid = false → Raises (.rdn j) s .seq) ∧
  (∀ s j, s.flt.err = none → s.tree.treeValid = true →
    ∃ t d, exec (.rdn j) s = .next t ∧ Answered s t d ∧ Unchanged s t ∧
      ((j = 511#9 ∨ (s.tree.nodeAt j).v = false) → d = 0#64) ∧
      (j.toNat < 256 → (s.tree.nodeAt j).v = true → d = 0xC000000000000000#64) ∧
      (256 ≤ j.toNat → j ≠ 511#9 → (s.tree.nodeAt j).v = true →
        d.extractLsb' 62 2 = 0b10#2 ∧ d.extractLsb' 25 37 = 0#37 ∧ d.extractLsb' 16 9 = (s.tree.nodeAt j).l ∧
        d.extractLsb' 9 7 = 0#7 ∧ d.extractLsb' 0 9 = (s.tree.nodeAt j).r) ∧
      (s.tree.IsTree → (∀ x, j = leafIdx x → s.tree.freqAt x = 0#32 → d = 0#64) ∧
        (255 + s.tree.nleaf.toNat ≤ j.toNat → d = 0#64)))

/-- R132: `RDNF i`; in a tree a response of 0 means "no such node". -/
def Obligations.RdnfReadsTheFrequency : Prop :=
  (∀ j, encode (.rdnf j) = 0x15#8 ++ 0#31 ++ j) ∧
  (∀ s j, s.flt.err = none → s.tree.treeValid = false → Raises (.rdnf j) s .seq) ∧
  (∀ s j, s.flt.err = none → s.tree.treeValid = true →
    ∃ t d, exec (.rdnf j) s = .next t ∧ Answered s t d ∧ Unchanged s t ∧
      ((j = 511#9 ∨ (s.tree.nodeAt j).v = false) → d = 0#64) ∧
      (j ≠ 511#9 → (s.tree.nodeAt j).v = true → d = (s.tree.nodeAt j).f.setWidth 64) ∧
      (s.tree.IsTree → d = 0#64 → j = 511#9 ∨ (s.tree.nodeAt j).v = false))

/-! ### Code Table -/

/-- R150 to R152: `GEN` from any tree. Of two or more leaves: the code of a Symbol is its path from the root. Of
one leaf: the code is `"0"`. -/
def Obligations.GenReadsTheTree : Prop :=
  encode .gen = 0x200000000000#48 ∧
  (∀ s, s.flt.err = none → s.tree.treeValid = false → Raises .gen s .seq) ∧
  (∀ s, s.flt.err = none → s.tree.treeValid = true → TreeInv s.tree →
    ∃ t, exec .gen s = .next t ∧ Answered s t 0#64 ∧ t.table.ctValid = true ∧ t.table.topen = false ∧
      t.table.nent = s.tree.nleaf ∧ t.table.wstk = s.table.wstk ∧ OnlyTable s t ∧
      (256 ≤ s.tree.root.toNat → TableOfTree t.table s.tree) ∧
      (s.tree.root.toNat < 256 →
        ∀ x c, ((t.table.entry x).v = true ∧ (t.table.entry x).code = c) ↔ (leafIdx x = s.tree.root ∧ c = [false])))

/-- R153: the guarantees of a generated table, for every admissible `KEYLT` and `CHILD`. -/
def Obligations.GeneratedCodesAreCompleteAndPrefixFree : Prop :=
  ∀ s, s.flt.err = none → s.tree.treeValid = true → TreeInv s.tree →
    ∃ t, exec .gen s = .next t ∧ Answered s t 0#64 ∧
      (∀ x, (t.table.entry x).v = true ↔ s.tree.freqAt x ≠ 0#32) ∧ PrefixFree t.table ∧
      (∀ x, (t.table.entry x).v = true →
        1 ≤ (t.table.entry x).code.length ∧ (t.table.entry x).code.length ≤ 255) ∧
      (2 ≤ s.tree.nleaf.toNat → ∀ u : BitString, u.length = 255 →
        ∃ x, ((t.table.entry x).v = true ∧ (t.table.entry x).code <+: u) ∧
          ∀ y, (t.table.entry y).v = true → (t.table.entry y).code <+: u → y = x) ∧
      (s.tree.nleaf.toNat = 1 → ∀ u : BitString,
        (∃ x, (t.table.entry x).v = true ∧ (t.table.entry x).code <+: u) ↔ u.head? = some false) ∧
      (∀ xs : List Symbol, (∀ x, xs.count x = (s.tree.freqAt x).toNat) →
        (codesOf t.table xs).length =
          ((List.range 256).map (fun k => (s.tree.freqAt (BitVec.ofNat 8 k)).toNat *
            (t.table.entry (BitVec.ofNat 8 k)).code.length)).sum)

/-- R154: `RDCL s`. -/
def Obligations.RdclReadsTheLength : Prop :=
  (∀ x, encode (.rdcl x) = 0x21#8 ++ x ++ 0#32) ∧
  ∀ s x, s.flt.err = none → TableInv s.table →
    ∃ t d, exec (.rdcl x) s = .next t ∧ Answered s t d ∧ Unchanged s t ∧
      ((s.table.entry x).v = false → d = 0#64) ∧
      ((s.table.entry x).v = true → d.extractLsb' 63 1 = 1#1 ∧ d.extractLsb' 8 55 = 0#55 ∧
        (d.extractLsb' 0 8).toNat = (s.table.entry x).code.length ∧ d.extractLsb' 0 8 ≠ 0#8)

/-- R155: `RDCW s, w`: code bit `c[64w + k]` at `RSP[63-k]`, 0 at and beyond `LEN`. -/
def Obligations.RdcwReadsTheCode : Prop :=
  (∀ x w, encode (.rdcw x w) = 0x22#8 ++ x ++ 0#30 ++ w) ∧
  ∀ s x w, s.flt.err = none → TableInv s.table →
    ∃ t d, exec (.rdcw x w) s = .next t ∧ Answered s t d ∧ Unchanged s t ∧
      ((s.table.entry x).v = false → d = 0#64) ∧
      ((s.table.entry x).v = true →
        ∀ k, k < 64 → d.getLsbD (63 - k) = (s.table.entry x).code.getD (64 * w.toNat + k) false)

/-- R156: `TCLR`. -/
def Obligations.TclrEmptiesTheTable : Prop :=
  encode .tclr = 0x230000000000#48 ∧
  ∀ s, s.flt.err = none → ∃ t, exec .tclr s = .next t ∧ Answered s t 0#64 ∧ (∀ x, (t.table.entry x).v = false) ∧
    t.table.nent = 0#9 ∧ t.table.ctValid = false ∧ t.table.topen = false ∧
    t.table.ts = s.table.ts ∧ t.table.tc = s.table.tc ∧ t.table.wstk = s.table.wstk ∧ OnlyTable s t

/-- R157: `TSYM s`, its two faults in their order (R254) and its effect. -/
def Obligations.TsymOpensAnEntry : Prop :=
  (∀ x, encode (.tsym x) = 0x24#8 ++ x ++ 0#32) ∧
  (∀ s x, s.flt.err = none → s.table.topen = true → Raises (.tsym x) s .seq) ∧
  (∀ s x, s.flt.err = none → s.table.topen = false → (s.table.entry x).v = true → Raises (.tsym x) s .corrupt) ∧
  (∀ s x, s.flt.err = none → s.table.topen = false → (s.table.entry x).v = false →
    ∃ t, exec (.tsym x) s = .next t ∧ Answered s t 0#64 ∧ t.table.topen = true ∧ t.table.ts = x ∧ t.table.tc = [] ∧
      t.table.ctValid = false ∧ t.table.ct = s.table.ct ∧ t.table.nent = s.table.nent ∧
      t.table.wstk = s.table.wstk ∧ OnlyTable s t)

/-- R158: `TBIT b`, its two faults in their order (R254) and its effect. -/
def Obligations.TbitAppendsOneBit : Prop :=
  (∀ b, encode (.tbit b) = 0x25#8 ++ 0#39 ++ BitVec.ofBool b) ∧
  (∀ s b, s.flt.err = none → s.table.topen = false → Raises (.tbit b) s .seq) ∧
  (∀ s b, s.flt.err = none → s.table.topen = true → s.table.tc.length = 255 → Raises (.tbit b) s .corrupt) ∧
  (∀ s b, s.flt.err = none → s.table.topen = true → s.table.tc.length < 255 →
    ∃ t, exec (.tbit b) s = .next t ∧ Answered s t 0#64 ∧ t.table = { s.table with tc := s.table.tc ++ [b] } ∧
      t.table.tc.length = s.table.tc.length + 1 ∧ OnlyTable s t)

/-- R159: `TEND`, its two faults in their order (R254) and its effect; `CT_VALID` stays 0 and `NENT` cannot
exceed 256. -/
def Obligations.TendCommitsTheEntry : Prop :=
  encode .tend = 0x260000000000#48 ∧
  (∀ s, s.flt.err = none → s.table.topen = false → Raises .tend s .seq) ∧
  (∀ s, s.flt.err = none → s.table.topen = true → s.table.tc = [] → Raises .tend s .corrupt) ∧
  (∀ s, s.flt.err = none → s.table.topen = true → s.table.tc ≠ [] →
    ∃ t, exec .tend s = .next t ∧ Answered s t 0#64 ∧
      t.table.entry s.table.ts = { v := true, code := s.table.tc } ∧
      (∀ y, y ≠ s.table.ts → t.table.entry y = s.table.entry y) ∧ t.table.nent = s.table.nent + 1#9 ∧
      t.table.topen = false ∧ t.table.ctValid = s.table.ctValid ∧ t.table.ts = s.table.ts ∧
      t.table.tc = s.table.tc ∧ t.table.wstk = s.table.wstk ∧ OnlyTable s t ∧
      (TableInv s.table → t.table.ctValid = false ∧ t.table.nent.toNat ≤ 256))

/-- R160, R161: `TCHK` raises `E_AMBIG` exactly when some code is a prefix of another live entry's code. -/
def Obligations.TchkAcceptsPrefixFreeTables : Prop :=
  encode .tchk = 0x270000000000#48 ∧
  (∀ s, s.flt.err = none → s.table.topen = true → Raises .tchk s .seq) ∧
  (∀ s, s.flt.err = none → s.table.topen = false → ¬ PrefixFree s.table → Raises .tchk s .ambig) ∧
  (∀ s, s.flt.err = none → s.table.topen = false → PrefixFree s.table →
    ∃ t, exec .tchk s = .next t ∧ Answered s t 0#64 ∧ t.table = { s.table with ctValid := true } ∧ OnlyTable s t)

/-! ### Bit Packer -/

/-- R180: `PINIT`, in every packer state. -/
def Obligations.PinitStartsAPayload : Prop :=
  encode .pinit = 0x300000000000#48 ∧
  ∀ s, s.flt.err = none → ∃ t, exec .pinit s = .next t ∧ Answered s t 0#64 ∧ t.pack.pstate = .active ∧
    t.pack.pacc = 0#8 ∧ t.pack.pnb = 0#3 ∧ t.pack.ppad = 0#3 ∧ t.pack.pbitcnt = 0#64 ∧ t.pack.pwp = 1#33 ∧
    t.pack.pmem.read 0 = some 0#8 ∧ (∀ a, a ≠ 0 → t.pack.pmem.read a = s.pack.pmem.read a) ∧ OnlyPack s t

/-- R181, R182: `PBIT b`, most significant bit first; the byte stored to is `PMEM[PWP]`. -/
def Obligations.PbitShiftsOneBitIn : Prop :=
  (∀ b, encode (.pbit b) = 0x31#8 ++ 0#39 ++ BitVec.ofBool b) ∧
  (∀ s b, s.flt.err = none → s.pack.pstate ≠ .active → Raises (.pbit b) s .seq) ∧
  (∀ s b, s.flt.err = none → s.pack.pstate = .active → s.pack.pnb = 7#3 → s.pack.pwp.toNat = s.cfg.pmemBytes →
    Raises (.pbit b) s .ovf) ∧
  (∀ s b, s.flt.err = none → s.pack.pstate = .active → s.pack.pnb ≠ 7#3 →
    ∃ t, exec (.pbit b) s = .next t ∧ Answered s t 0#64 ∧
      t.pack.pacc.toNat = (2 * s.pack.pacc.toNat + b.toNat) % 256 ∧ t.pack.pnb = s.pack.pnb + 1#3 ∧
      t.pack.pbitcnt = s.pack.pbitcnt + 1#64 ∧ t.pack.pwp = s.pack.pwp ∧ t.pack.ppad = s.pack.ppad ∧
      t.pack.pstate = .active ∧ (∀ a, t.pack.pmem.read a = s.pack.pmem.read a) ∧ OnlyPack s t) ∧
  (∀ s b, s.flt.err = none → s.pack.pstate = .active → s.pack.pnb = 7#3 → s.pack.pwp.toNat < s.cfg.pmemBytes →
    ∃ t v, exec (.pbit b) s = .next t ∧ Answered s t 0#64 ∧
      t.pack.pmem.read s.pack.pwp.toNat = some v ∧ v.toNat = (2 * s.pack.pacc.toNat + b.toNat) % 256 ∧
      (∀ a, a ≠ s.pack.pwp.toNat → t.pack.pmem.read a = s.pack.pmem.read a) ∧
      t.pack.pwp.toNat = s.pack.pwp.toNat + 1 ∧ t.pack.pacc = 0#8 ∧ t.pack.pnb = 0#3 ∧
      t.pack.pbitcnt = s.pack.pbitcnt + 1#64 ∧ t.pack.ppad = s.pack.ppad ∧ t.pack.pstate = .active ∧ OnlyPack s t)

/-- R183: `ENC s` pushes the bits of the code in order, as so many `PBIT` would, or nothing at all. The bytes stored
to are `PMEM[PWP]` up to the byte before the new `PWP`. -/
def Obligations.EncPushesTheCode : Prop :=
  (∀ x, encode (.enc x) = 0x32#8 ++ x ++ 0#32) ∧
  (∀ s x, s.flt.err = none → (s.pack.pstate ≠ .active ∨ s.table.ctValid = false) → Raises (.enc x) s .seq) ∧
  (∀ s x, s.flt.err = none → s.pack.pstate = .active → s.table.ctValid = true → (s.table.entry x).v = false →
    Raises (.enc x) s .nocode) ∧
  (∀ s x, s.flt.err = none → s.pack.pstate = .active → s.table.ctValid = true → (s.table.entry x).v = true →
    s.pack.pwp.toNat ≤ s.cfg.pmemBytes →
    s.cfg.pmemBytes < s.pack.pwp.toNat + (s.pack.pnb.toNat + (s.table.entry x).code.length) / 8 →
    Raises (.enc x) s .ovf) ∧
  (∀ s x, s.flt.err = none → s.pack.pstate = .active → s.table.ctValid = true → (s.table.entry x).v = true →
    s.pack.pwp.toNat + (s.pack.pnb.toNat + (s.table.entry x).code.length) / 8 ≤ s.cfg.pmemBytes →
    ∃ t u, exec (.enc x) s = .next t ∧ Answered s t 0#64 ∧
      runCommands ((s.table.entry x).code.map Instr.pbit) s = .next u ∧ u.flt.err = none ∧ t.pack = u.pack ∧
      t.pack.pwp.toNat = s.pack.pwp.toNat + (s.pack.pnb.toNat + (s.table.entry x).code.length) / 8 ∧
      (∀ a, (a < s.pack.pwp.toNat ∨ t.pack.pwp.toNat ≤ a) → t.pack.pmem.read a = s.pack.pmem.read a) ∧
      t.pack.ppad = s.pack.ppad ∧ t.pack.pstate = .active ∧ OnlyPack s t)

/-- R184: `PFLUSH`. The bytes stored to are `PMEM[0]` and, when bits are waiting, `PMEM[PWP]`. -/
def Obligations.PflushPadsAndPublishes : Prop :=
  encode .pflush = 0x330000000000#48 ∧
  (∀ s, s.flt.err = none → s.pack.pstate ≠ .active → Raises .pflush s .seq) ∧
  (∀ s, s.flt.err = none → s.pack.pstate = .active → s.pack.pnb ≠ 0#3 → s.pack.pwp.toNat = s.cfg.pmemBytes →
    Raises .pflush s .ovf) ∧
  (∀ s, s.flt.err = none → s.pack.pstate = .active → s.pack.pnb = 0#3 →
    ∃ t, exec .pflush s = .next t ∧ Answered s t 0#64 ∧ t.pack.ppad = 0#3 ∧ t.pack.pmem.read 0 = some 0#8 ∧
      (∀ a, a ≠ 0 → t.pack.pmem.read a = s.pack.pmem.read a) ∧ t.pack.pwp = s.pack.pwp ∧
      t.pack.pacc = 0#8 ∧ t.pack.pnb = 0#3 ∧ t.pack.pbitcnt = s.pack.pbitcnt ∧ t.pack.pstate = .done ∧
      (PackInv s.cfg s.pack → t.pack.pwp.toNat = 1 + (t.pack.pbitcnt.toNat + 7) / 8 ∧
        t.pack.pbitcnt.toNat % 8 = 0) ∧ OnlyPack s t) ∧
  (∀ s, s.flt.err = none → s.pack.pstate = .active → s.pack.pnb ≠ 0#3 → 1 ≤ s.pack.pwp.toNat →
    s.pack.pwp.toNat < s.cfg.pmemBytes →
    ∃ t v, exec .pflush s = .next t ∧ Answered s t (BitVec.ofNat 64 (8 - s.pack.pnb.toNat)) ∧
      t.pack.ppad.toNat = 8 - s.pack.pnb.toNat ∧
      t.pack.pmem.read 0 = some (BitVec.ofNat 8 (8 - s.pack.pnb.toNat)) ∧
      t.pack.pmem.read s.pack.pwp.toNat = some v ∧
      v.toNat = s.pack.pacc.toNat * 2 ^ (8 - s.pack.pnb.toNat) % 256 ∧
      (∀ a, a ≠ 0 → a ≠ s.pack.pwp.toNat → t.pack.pmem.read a = s.pack.pmem.read a) ∧
      t.pack.pwp.toNat = s.pack.pwp.toNat + 1 ∧ t.pack.pacc = 0#8 ∧ t.pack.pnb = 0#3 ∧
      t.pack.pbitcnt = s.pack.pbitcnt ∧ t.pack.pstate = .done ∧
      (PackInv s.cfg s.pack → t.pack.pwp.toNat = 1 + (t.pack.pbitcnt.toNat + 7) / 8 ∧
        t.pack.ppad.toNat = (8 - t.pack.pbitcnt.toNat % 8) % 8) ∧ OnlyPack s t)

/-- R185, R66: `RDP a`: every byte of a published payload can be read, and nothing else; it stays until `PINIT` or
`CLR` (or `rst`). -/
def Obligations.RdpReadsThePayload : Prop :=
  (∀ a, encode (.rdp a) = 0x34#8 ++ 0#8 ++ a) ∧
  (∀ s a, s.flt.err = none → s.pack.pstate ≠ .done → Raises (.rdp a) s .seq) ∧
  (∀ s a, s.flt.err = none → s.pack.pstate = .done → s.pack.pwp.toNat ≤ a.toNat → Raises (.rdp a) s .range) ∧
  (∀ s a, s.flt.err = none → s.pack.pstate = .done → a.toNat < s.pack.pwp.toNat → PackInv s.cfg s.pack →
    ∃ t v, s.pack.pmem.read a.toNat = some v ∧ exec (.rdp a) s = .next t ∧ Answered s t (v.setWidth 64) ∧
      Unchanged s t) ∧
  (∀ s i t, exec i s = .next t → s.pack.pstate = .done → i ≠ .pinit → i ≠ .clr → t.pack = s.pack)

/-- R186: the packer computes `Pack`, however the bits are split between `PBIT` and `ENC`. -/
def Obligations.PackerComputesPack : Prop :=
  ∀ s (fs : List Feed), s.flt.err = none →
    (∀ x, .inr x ∈ fs → s.table.ctValid = true ∧ (s.table.entry x).v = true) →
    1 + ((fs.flatMap (Feed.bits s.table)).length + 7) / 8 ≤ s.cfg.pmemBytes →
    ∃ t, runCommands (.pinit :: (fs.map Feed.command ++ [.pflush])) s = .next t ∧ t.flt.err = none ∧
      t.pack.pstate = .done ∧
      t.pack.pwp.toNat = (payloadOf (fs.flatMap (Feed.bits s.table))).length ∧
      (∀ k v, (payloadOf (fs.flatMap (Feed.bits s.table)))[k]? = some v → t.pack.pmem.read k = some v) ∧
      t.pack.ppad.toNat = padOf (fs.flatMap (Feed.bits s.table)).length ∧ t.pack.ppad.toNat ≤ 7 ∧
      t.pack.pbitcnt.toNat = (fs.flatMap (Feed.bits s.table)).length ∧ OnlyPack s t

/-! ### Bit Unpacker -/

/-- R200: `UINIT m`, both modes. -/
def Obligations.UinitStartsUnpacking : Prop :=
  (∀ m, encode (.uinit m) = 0x40#8 ++ 0#39 ++ BitVec.ofBool m) ∧
  (∀ s, s.flt.err = none → s.table.ctValid = false → Raises (.uinit true) s .seq) ∧
  (∀ s m, s.flt.err = none → (m = false ∨ s.table.ctValid = true) →
    ∃ t, exec (.uinit m) s = .next t ∧ Answered s t 0#64 ∧
      t.unpack = { ustate := .pad, umode := m, upad := 0#3, uhold := s.unpack.uhold, uholdv := false,
                   ubitcnt := 0#64 } ∧
      (m = false → t.dec = s.dec) ∧
      (m = true → t.dec.dstate = .run ∧ t.dec.dcand = [] ∧ t.dec.ocnt = 0#33 ∧
        ∀ a, t.dec.omem.read a = s.dec.omem.read a) ∧
      t.tree = s.tree ∧ t.table = s.table ∧ t.pack = s.pack ∧ t.flt = s.flt)

/-- R202: `UBYTE v`: its faults in their order (R254), the padding count, the hold-back, and in mode 0 the eight bits
of the byte before it, most significant first. -/
def Obligations.UbyteTakesAPayloadByte : Prop :=
  (∀ v, encode (.ubyte v) = 0x41#8 ++ v ++ 0#32) ∧
  (∀ s v, s.flt.err = none → s.unpack.ustate ≠ .pad → s.unpack.ustate ≠ .data → Raises (.ubyte v) s .seq) ∧
  (∀ s v, s.flt.err = none → s.unpack.umode = true → (s.dec.dstate ≠ .run ∨ s.table.ctValid = false) →
    Raises (.ubyte v) s .seq) ∧
  (∀ s v, s.flt.err = none → legal s (.ubyte v) = true → s.unpack.ustate = .pad → 7 < v.toNat →
    Raises (.ubyte v) s .pad) ∧
  (∀ s v, s.flt.err = none → legal s (.ubyte v) = true → s.unpack.ustate = .pad → v.toNat ≤ 7 →
    ∃ t, exec (.ubyte v) s = .next t ∧ Answered s t 0#64 ∧ t.unpack.upad.toNat = v.toNat ∧
      t.unpack = { s.unpack with upad := t.unpack.upad, ustate := .data } ∧ OnlyUnpack s t) ∧
  (∀ s v, s.flt.err = none → legal s (.ubyte v) = true → s.unpack.ustate = .data → s.unpack.uholdv = false →
    ∃ t, exec (.ubyte v) s = .next t ∧ Answered s t 0#64 ∧
      t.unpack = { s.unpack with uhold := v, uholdv := true } ∧ OnlyUnpack s t) ∧
  (∀ s v, s.flt.err = none → s.unpack.umode = false → s.unpack.ustate = .data → s.unpack.uholdv = true →
    ∃ t, exec (.ubyte v) s = .next t ∧
      Emitted s t 0#64 ((List.range 8).map (fun j => s.unpack.uhold.getLsbD (7 - j))) ∧
      t.unpack = { s.unpack with uhold := v, ubitcnt := s.unpack.ubitcnt + 8#64 } ∧ OnlyUnpack s t)

/-- R203: `UEND`: its faults in their order (R254), and in mode 0 the `8 - UPAD` leading bits of the last byte. -/
def Obligations.UendReleasesTheLastByte : Prop :=
  encode .uend = 0x420000000000#48 ∧
  (∀ s, s.flt.err = none → s.unpack.ustate ≠ .pad → s.unpack.ustate ≠ .data → Raises .uend s .seq) ∧
  (∀ s, s.flt.err = none → s.unpack.umode = true → (s.dec.dstate ≠ .run ∨ s.table.ctValid = false) →
    Raises .uend s .seq) ∧
  (∀ s, s.flt.err = none → legal s .uend = true → s.unpack.ustate = .data → s.unpack.uholdv = false →
    s.unpack.upad ≠ 0#3 → Raises .uend s .pad) ∧
  (∀ s, s.flt.err = none → s.unpack.umode = false → s.unpack.ustate = .data → s.unpack.uholdv = true →
    ∃ t, exec .uend s = .next t ∧
      Emitted s t 0#64
        ((List.range (8 - s.unpack.upad.toNat)).map (fun j => s.unpack.uhold.getLsbD (7 - j))) ∧
      t.unpack = { s.unpack with ustate := .done, uholdv := false,
                                 ubitcnt := s.unpack.ubitcnt + BitVec.ofNat 64 (8 - s.unpack.upad.toNat) } ∧
      OnlyUnpack s t) ∧
  (∀ s, s.flt.err = none → s.unpack.umode = false →
    (s.unpack.ustate = .pad ∨ (s.unpack.ustate = .data ∧ s.unpack.uholdv = false ∧ s.unpack.upad = 0#3)) →
    ∃ t, exec .uend s = .next t ∧ Answered s t 0#64 ∧ t.unpack = { s.unpack with ustate := .done } ∧ OnlyUnpack s t)

/-- R201 to R203: in mode 1 the bits released go to the decoder exactly as so many `DBIT` would bring them, and
`UEND` then finishes the decode as `DEND` would; the first fault among them is the command's, and then nothing at
all is emitted or kept. -/
def Obligations.ModeOneFeedsTheDecoder : Prop :=
  (∀ s v, s.flt.err = none → legal s (.ubyte v) = true → s.unpack.umode = true → s.unpack.ustate = .data →
    s.unpack.uholdv = true → DecInv s.cfg s.dec →
    ∃ u, runCommands (((List.range 8).map (fun j => s.unpack.uhold.getLsbD (7 - j))).map Instr.dbit) s = .next u ∧
      (u.flt.err = none →
        ∃ t, exec (.ubyte v) s = .next t ∧
          Emitted s t 0#64 ((List.range 8).map (fun j => s.unpack.uhold.getLsbD (7 - j))) ∧
          t.unpack = { s.unpack with uhold := v, ubitcnt := s.unpack.ubitcnt + 8#64 } ∧ t.dec = u.dec ∧
          t.tree = s.tree ∧ t.table = s.table ∧ t.pack = s.pack ∧ t.flt = s.flt) ∧
      (∀ e, u.flt.err = some e → Raises (.ubyte v) s e)) ∧
  (∀ s (n : Nat), s.flt.err = none → legal s .uend = true → s.unpack.umode = true → UnpackInv s.unpack →
    DecInv s.cfg s.dec → (s.unpack.uholdv = false → n = 0 ∧ s.unpack.upad = 0#3) →
    (s.unpack.uholdv = true → n = 8 - s.unpack.upad.toNat) →
    ∃ u, runCommands (((List.range n).map (fun j => s.unpack.uhold.getLsbD (7 - j))).map Instr.dbit ++ [.dend]) s
        = .next u ∧
      (u.flt.err = none →
        ∃ t, exec .uend s = .next t ∧
          Emitted s t 0#64 ((List.range n).map (fun j => s.unpack.uhold.getLsbD (7 - j))) ∧
          t.unpack = { s.unpack with ustate := .done, uholdv := false,
                                     ubitcnt := s.unpack.ubitcnt + BitVec.ofNat 64 n } ∧ t.dec = u.dec ∧
          t.tree = s.tree ∧ t.table = s.table ∧ t.pack = s.pack ∧ t.flt = s.flt) ∧
      (∀ e, u.flt.err = some e → Raises .uend s e))

/-- R204: the unpacker computes `Unpack`, faults with `E_PAD` exactly where R204 says, and undoes `Pack`. -/
def Obligations.UnpackerComputesUnpack : Prop :=
  (∀ s (p : List Byte), s.flt.err = none →
    ∃ t, runCommands (.uinit false :: (p.map Instr.ubyte ++ [.uend])) s = .next t ∧
      ((∃ v, p.head? = some v ∧ (7 < v.toNat ∨ (p.length = 1 ∧ v ≠ 0#8))) → t.flt.err = some .pad) ∧
      ((∀ v, p.head? = some v → v.toNat ≤ 7 ∧ (p.length = 1 → v = 0#8)) →
        t.port.ub = s.port.ub ++ unpackOf p ∧ t.unpack.ustate = .done ∧ t.unpack.uholdv = false ∧
        t.unpack.ubitcnt = BitVec.ofNat 64 (unpackOf p).length ∧ OnlyUnpack s t)) ∧
  (∀ u : BitString, unpackOf (payloadOf u) = u ∧ padOf u.length ≤ 7)

/-! ### Decoder -/

/-- R220: `DINIT`, in every decoder state. -/
def Obligations.DinitStartsADecode : Prop :=
  encode .dinit = 0x430000000000#48 ∧
  (∀ s, s.flt.err = none → s.table.ctValid = false → Raises .dinit s .seq) ∧
  (∀ s, s.flt.err = none → s.table.ctValid = true →
    ∃ t, exec .dinit s = .next t ∧ Answered s t 0#64 ∧ t.dec.dstate = .run ∧ t.dec.dcand = [] ∧ t.dec.ocnt = 0#33 ∧
      (∀ a, t.dec.omem.read a = s.dec.omem.read a) ∧ OnlyDec s t)

/-- R221, R222: `DBIT b`, the three cases of `D_STEP`; the byte stored to is `OMEM[OCNT]`. -/
def Obligations.DbitStepsTheDecoder : Prop :=
  (∀ b, encode (.dbit b) = 0x44#8 ++ 0#39 ++ BitVec.ofBool b) ∧
  (∀ s b, s.flt.err = none → (s.dec.dstate ≠ .run ∨ s.table.ctValid = false) → Raises (.dbit b) s .seq) ∧
  (∀ s b x, s.flt.err = none → s.dec.dstate = .run → s.table.ctValid = true → PrefixFree s.table →
    (s.table.entry x).v = true → (s.table.entry x).code = s.dec.dcand ++ [b] →
    s.dec.ocnt.toNat = s.cfg.omemBytes.val → Raises (.dbit b) s .ovf) ∧
  (∀ s b x, s.flt.err = none → s.dec.dstate = .run → s.table.ctValid = true → PrefixFree s.table →
    (s.table.entry x).v = true → (s.table.entry x).code = s.dec.dcand ++ [b] →
    s.dec.ocnt.toNat < s.cfg.omemBytes.val →
    ∃ t, exec (.dbit b) s = .next t ∧ Answered s t 0#64 ∧ t.dec.omem.read s.dec.ocnt.toNat = some x ∧
      (∀ a, a ≠ s.dec.ocnt.toNat → t.dec.omem.read a = s.dec.omem.read a) ∧
      t.dec.ocnt.toNat = s.dec.ocnt.toNat + 1 ∧ t.dec.dcand = [] ∧ t.dec.dstate = .run ∧ OnlyDec s t) ∧
  (∀ s b x, s.flt.err = none → s.dec.dstate = .run → s.table.ctValid = true → PrefixFree s.table →
    (s.table.entry x).v = true → s.dec.dcand ++ [b] <+: (s.table.entry x).code →
    (s.table.entry x).code ≠ s.dec.dcand ++ [b] →
    ∃ t, exec (.dbit b) s = .next t ∧ Answered s t 0#64 ∧ t.dec = { s.dec with dcand := s.dec.dcand ++ [b] } ∧
      (TableInv s.table → t.dec.dcand.length ≤ 254) ∧ OnlyDec s t) ∧
  (∀ s b, s.flt.err = none → s.dec.dstate = .run → s.table.ctValid = true →
    (∀ x, (s.table.entry x).v = true → ¬ s.dec.dcand ++ [b] <+: (s.table.entry x).code) → Raises (.dbit b) s .trunc)

/-- R223, R224: `DEND`, which does not need `CT_VALID`. -/
def Obligations.DendFinishesTheDecode : Prop :=
  encode .dend = 0x450000000000#48 ∧
  (∀ s, s.flt.err = none → s.dec.dstate ≠ .run → Raises .dend s .seq) ∧
  (∀ s, s.flt.err = none → s.dec.dstate = .run → s.dec.dcand ≠ [] → Raises .dend s .trunc) ∧
  (∀ s, s.flt.err = none → s.dec.dstate = .run → s.dec.dcand = [] →
    ∃ t, exec .dend s = .next t ∧ Answered s t 0#64 ∧ t.dec = { s.dec with dstate := .done } ∧ OnlyDec s t)

/-- R225, R66: `RDO a`: every decoded byte can be read once the decode has ended, and nothing else; the output stays
until `DINIT`, `UINIT 1` or `CLR` (or `rst`). -/
def Obligations.RdoReadsTheOutput : Prop :=
  (∀ a, encode (.rdo a) = 0x46#8 ++ 0#8 ++ a) ∧
  (∀ s a, s.flt.err = none → s.dec.dstate ≠ .done → Raises (.rdo a) s .seq) ∧
  (∀ s a, s.flt.err = none → s.dec.dstate = .done → s.dec.ocnt.toNat ≤ a.toNat → Raises (.rdo a) s .range) ∧
  (∀ s a, s.flt.err = none → s.dec.dstate = .done → a.toNat < s.dec.ocnt.toNat → DecInv s.cfg s.dec →
    ∃ t v, s.dec.omem.read a.toNat = some v ∧ exec (.rdo a) s = .next t ∧ Answered s t (v.setWidth 64) ∧
      Unchanged s t) ∧
  (∀ s i t, exec i s = .next t → s.dec.dstate = .done → i ≠ .dinit → i ≠ .uinit true → i ≠ .clr → t.dec = s.dec)

/-- R227: the decoder computes the unique factorisation of a bit-string into codes; without one it faults with
`E_TRUNC`, at the first bit after which no extension has one, or at the finish. -/
def Obligations.DecoderFactorsIntoCodes : Prop :=
  ∀ s, s.flt.err = none → s.table.ctValid = true → TableInv s.table →
    (∀ xs : List Symbol, (∀ x ∈ xs, (s.table.entry x).v = true) → xs.length ≤ s.cfg.omemBytes.val →
      ∃ t, runCommands (.dinit :: ((codesOf s.table xs).map Instr.dbit ++ [.dend])) s = .next t ∧
        t.flt.err = none ∧ t.dec.dstate = .done ∧ t.dec.ocnt.toNat = xs.length ∧
        (∀ k x, xs[k]? = some x → t.dec.omem.read k = some x) ∧ OnlyDec s t) ∧
    (∀ xs ys : List Symbol, (∀ x ∈ xs, (s.table.entry x).v = true) → (∀ y ∈ ys, (s.table.entry y).v = true) →
      codesOf s.table xs = codesOf s.table ys → xs = ys) ∧
    (∀ u : BitString, u.length ≤ s.cfg.omemBytes.val →
      (∃ t, runCommands (.dinit :: u.map Instr.dbit) s = .next t ∧
        (t.flt.err = none ↔
          ∃ w xs, (∀ x ∈ xs, (s.table.entry x).v = true) ∧ u ++ w = codesOf s.table xs) ∧
        (t.flt.err ≠ none → t.flt.err = some .trunc)) ∧
      ((¬ ∃ xs, (∀ x ∈ xs, (s.table.entry x).v = true) ∧ u = codesOf s.table xs) →
        ∃ t, runCommands (.dinit :: (u.map Instr.dbit ++ [.dend])) s = .next t ∧ t.flt.err = some .trunc))

/-- R226: on the table of a tree of two or more leaves, one bit moves the decoder one branch down that tree: it emits
the leaf it reaches and returns to the root, or stays at the internal node it reaches. -/
def Obligations.DecoderWalksTheTree : Prop :=
  ∀ s b n, s.flt.err = none → s.table.ctValid = true → s.dec.dstate = .run → s.tree.IsTree →
    256 ≤ s.tree.root.toNat → TableOfTree s.table s.tree → s.tree.follow s.tree.root s.dec.dcand = some n →
    256 ≤ n.toNat → s.dec.ocnt.toNat < s.cfg.omemBytes.val →
    ∃ t m, m = (if b then (s.tree.nodeAt n).r else (s.tree.nodeAt n).l) ∧
      exec (.dbit b) s = .next t ∧ Answered s t 0#64 ∧ OnlyDec s t ∧
      (m.toNat < 256 → t.dec.dcand = [] ∧ t.dec.ocnt.toNat = s.dec.ocnt.toNat + 1 ∧
        t.dec.omem.read s.dec.ocnt.toNat = some (m.setWidth 8)) ∧
      (256 ≤ m.toNat → t.dec = { s.dec with dcand := s.dec.dcand ++ [b] } ∧
        s.tree.follow s.tree.root t.dec.dcand = some m)

/-- R228, R284, R286: the round trip, in every state that is not faulted and for every `KEYLT` and `CHILD`. The empty
input gives the payload `00`, and that payload and no payload at all both give no byte. For every other byte sequence
whose counts fit 32 bits the compression sequence runs without a fault when the payload fits `PMEM`, and feeding the
payload back to `UINIT 1`, `UBYTE`, `UEND` gives the sequence when it fits `OMEM`. -/
def Obligations.DecodingUndoesEncoding : Prop :=
  (∀ s, s.flt.err = none →
    ∃ t, runCommands [.pinit, .pflush] s = .next t ∧ t.flt.err = none ∧ t.pack.pwp.toNat = 1 ∧
      t.pack.pmem.read 0 = some 0#8 ∧
      ∀ p : List Byte, (p = [] ∨ p = [0#8]) →
        ∃ z, runCommands (.tclr :: .tchk :: .uinit true :: (p.map Instr.ubyte ++ [.uend])) t = .next z ∧
          z.flt.err = none ∧ z.dec.dstate = .done ∧ z.dec.ocnt.toNat = 0) ∧
  ∀ s (xs : List Symbol), s.flt.err = none → xs ≠ [] → (∀ x, xs.count x < 2 ^ 32) →
    ∃ t, runCommands (freqCommands xs ++ [.build, .gen]) s = .next t ∧ t.flt.err = none ∧
      (1 + ((codesOf t.table xs).length + 7) / 8 ≤ s.cfg.pmemBytes →
        ∃ u, runCommands (.pinit :: (xs.map Instr.enc ++ [.pflush])) t = .next u ∧ u.flt.err = none ∧
          (xs.length ≤ s.cfg.omemBytes.val →
            ∀ p : List Byte, p.length = u.pack.pwp.toNat → (∀ k v, p[k]? = some v → u.pack.pmem.read k = some v) →
              ∃ z, runCommands (.uinit true :: (p.map Instr.ubyte ++ [.uend])) u = .next z ∧ z.flt.err = none ∧
                z.dec.dstate = .done ∧ z.dec.ocnt.toNat = xs.length ∧
                ∀ k x, xs[k]? = some x → z.dec.omem.read k = some x))

/-! ### The whole machine -/

/-- Every step keeps the invariant: a valid tree is a tree (R25), a valid table is prefix-free (R31), the packer's
counters agree (R35, R61), the memories stay canonical, the hidden heap and stack are empty between commands. -/
def Obligations.EveryStepKeepsTheInvariant : Prop :=
  ∀ s t, EngineInv s → step s = .next t → EngineInv t

/-- The state after reset has the invariant. -/
def Obligations.ResetMeetsTheInvariant : Prop := EngineInv State.reset

/-- R291, R93: from every state that has the invariant a step answers a next state: no stop of the model is ever
reached, whatever the host sends. -/
def Obligations.StepsNeverStop : Prop :=
  ∀ s, EngineInv s → ∃ t, step s = .next t

/-- R281, R66, S1: what reset leaves unspecified is never observed. Two states that differ at most there step to
two states that differ at most there, with the same responses and the same `UB` bits: no run rests on the values of
log entry 4. -/
def Obligations.UnspecifiedValuesAreNeverRead : Prop :=
  ∀ s u t, EngineInv s → EngineInv u → SameSpecified s u → step s = .next t → ∃ v, step u = .next v ∧ SameSpecified t v
end

