-- ==== Sys2Proof/Laws/State.lean ====
section
/-! SUPPORT. One lemma per field per named update of the state, true by `rfl`, so that no proof unfolds a record
update. -/

namespace Sys2Proof.Machine

/-! ### `respond` -/

@[simp] theorem State.respond_cfg (s : State) (c : RspCode) (d : Data) : (s.respond c d).cfg = s.cfg := rfl
@[simp] theorem State.respond_tree (s : State) (c : RspCode) (d : Data) : (s.respond c d).tree = s.tree := rfl
@[simp] theorem State.respond_table (s : State) (c : RspCode) (d : Data) : (s.respond c d).table = s.table := rfl
@[simp] theorem State.respond_pack (s : State) (c : RspCode) (d : Data) : (s.respond c d).pack = s.pack := rfl
@[simp] theorem State.respond_unpack (s : State) (c : RspCode) (d : Data) : (s.respond c d).unpack = s.unpack := rfl
@[simp] theorem State.respond_dec (s : State) (c : RspCode) (d : Data) : (s.respond c d).dec = s.dec := rfl
@[simp] theorem State.respond_flt (s : State) (c : RspCode) (d : Data) : (s.respond c d).flt = s.flt := rfl
@[simp] theorem State.respond_inq (s : State) (c : RspCode) (d : Data) : (s.respond c d).port.inq = s.port.inq := rfl
@[simp] theorem State.respond_rsps (s : State) (c : RspCode) (d : Data) : (s.respond c d).port.rsps = s.port.rsps ++ [⟨c, d⟩] := rfl
@[simp] theorem State.respond_ub (s : State) (c : RspCode) (d : Data) : (s.respond c d).port.ub = s.port.ub := rfl

/-! ### `raiseFault` -/

@[simp] theorem State.raiseFault_cfg (s : State) (e : ErrCode) (w : CmdWord) : (s.raiseFault e w).cfg = s.cfg := rfl
@[simp] theorem State.raiseFault_tree (s : State) (e : ErrCode) (w : CmdWord) : (s.raiseFault e w).tree = s.tree := rfl
@[simp] theorem State.raiseFault_table (s : State) (e : ErrCode) (w : CmdWord) : (s.raiseFault e w).table = s.table := rfl
@[simp] theorem State.raiseFault_pack (s : State) (e : ErrCode) (w : CmdWord) : (s.raiseFault e w).pack = s.pack := rfl
@[simp] theorem State.raiseFault_unpack (s : State) (e : ErrCode) (w : CmdWord) : (s.raiseFault e w).unpack = s.unpack := rfl
@[simp] theorem State.raiseFault_dec (s : State) (e : ErrCode) (w : CmdWord) : (s.raiseFault e w).dec = s.dec := rfl
@[simp] theorem State.raiseFault_flt (s : State) (e : ErrCode) (w : CmdWord) : (s.raiseFault e w).flt = { err := some e, einfo := w } := rfl
@[simp] theorem State.raiseFault_inq (s : State) (e : ErrCode) (w : CmdWord) : (s.raiseFault e w).port.inq = s.port.inq := rfl
@[simp] theorem State.raiseFault_rsps (s : State) (e : ErrCode) (w : CmdWord) : (s.raiseFault e w).port.rsps = s.port.rsps ++ [⟨.fault e, 0#64⟩] := rfl
@[simp] theorem State.raiseFault_ub (s : State) (e : ErrCode) (w : CmdWord) : (s.raiseFault e w).port.ub = s.port.ub := rfl

/-! ### `refuseFaulted` -/

@[simp] theorem State.refuseFaulted_cfg (s : State) : (s.refuseFaulted).cfg = s.cfg := rfl
@[simp] theorem State.refuseFaulted_tree (s : State) : (s.refuseFaulted).tree = s.tree := rfl
@[simp] theorem State.refuseFaulted_table (s : State) : (s.refuseFaulted).table = s.table := rfl
@[simp] theorem State.refuseFaulted_pack (s : State) : (s.refuseFaulted).pack = s.pack := rfl
@[simp] theorem State.refuseFaulted_unpack (s : State) : (s.refuseFaulted).unpack = s.unpack := rfl
@[simp] theorem State.refuseFaulted_dec (s : State) : (s.refuseFaulted).dec = s.dec := rfl
@[simp] theorem State.refuseFaulted_flt (s : State) : (s.refuseFaulted).flt = s.flt := rfl
@[simp] theorem State.refuseFaulted_inq (s : State) : (s.refuseFaulted).port.inq = s.port.inq := rfl
@[simp] theorem State.refuseFaulted_rsps (s : State) : (s.refuseFaulted).port.rsps = s.port.rsps ++ [⟨.faulted, 0#64⟩] := rfl
@[simp] theorem State.refuseFaulted_ub (s : State) : (s.refuseFaulted).port.ub = s.port.ub := rfl

/-! ### `clearAll` -/

@[simp] theorem State.clearAll_cfg (s : State) : (s.clearAll).cfg = s.cfg := rfl
@[simp] theorem State.clearAll_tree (s : State) : (s.clearAll).tree = .reset := rfl
@[simp] theorem State.clearAll_table (s : State) : (s.clearAll).table = .reset := rfl
@[simp] theorem State.clearAll_pack (s : State) : (s.clearAll).pack = .reset := rfl
@[simp] theorem State.clearAll_unpack (s : State) : (s.clearAll).unpack = .reset := rfl
@[simp] theorem State.clearAll_dec (s : State) : (s.clearAll).dec = .reset := rfl
@[simp] theorem State.clearAll_flt (s : State) : (s.clearAll).flt = .reset := rfl
@[simp] theorem State.clearAll_inq (s : State) : (s.clearAll).port.inq = s.port.inq := rfl
@[simp] theorem State.clearAll_rsps (s : State) : (s.clearAll).port.rsps = s.port.rsps := rfl
@[simp] theorem State.clearAll_ub (s : State) : (s.clearAll).port.ub = s.port.ub := rfl

/-! ### `hold` -/

@[simp] theorem State.hold_cfg (s : State) (v : Byte) : (s.hold v).cfg = s.cfg := rfl
@[simp] theorem State.hold_tree (s : State) (v : Byte) : (s.hold v).tree = s.tree := rfl
@[simp] theorem State.hold_table (s : State) (v : Byte) : (s.hold v).table = s.table := rfl
@[simp] theorem State.hold_pack (s : State) (v : Byte) : (s.hold v).pack = s.pack := rfl
@[simp] theorem State.hold_unpack (s : State) (v : Byte) : (s.hold v).unpack = { s.unpack with uhold := v, uholdv := true } := rfl
@[simp] theorem State.hold_dec (s : State) (v : Byte) : (s.hold v).dec = s.dec := rfl
@[simp] theorem State.hold_flt (s : State) (v : Byte) : (s.hold v).flt = s.flt := rfl
@[simp] theorem State.hold_inq (s : State) (v : Byte) : (s.hold v).port.inq = s.port.inq := rfl
@[simp] theorem State.hold_rsps (s : State) (v : Byte) : (s.hold v).port.rsps = s.port.rsps := rfl
@[simp] theorem State.hold_ub (s : State) (v : Byte) : (s.hold v).port.ub = s.port.ub := rfl

/-! ### `emit` -/

@[simp] theorem State.emit_cfg (s : State) (b : Bool) : (s.emit b).cfg = s.cfg := rfl
@[simp] theorem State.emit_tree (s : State) (b : Bool) : (s.emit b).tree = s.tree := rfl
@[simp] theorem State.emit_table (s : State) (b : Bool) : (s.emit b).table = s.table := rfl
@[simp] theorem State.emit_pack (s : State) (b : Bool) : (s.emit b).pack = s.pack := rfl
@[simp] theorem State.emit_unpack (s : State) (b : Bool) : (s.emit b).unpack = { s.unpack with ubitcnt := s.unpack.ubitcnt + 1#64 } := rfl
@[simp] theorem State.emit_dec (s : State) (b : Bool) : (s.emit b).dec = s.dec := rfl
@[simp] theorem State.emit_flt (s : State) (b : Bool) : (s.emit b).flt = s.flt := rfl
@[simp] theorem State.emit_inq (s : State) (b : Bool) : (s.emit b).port.inq = s.port.inq := rfl
@[simp] theorem State.emit_rsps (s : State) (b : Bool) : (s.emit b).port.rsps = s.port.rsps := rfl
@[simp] theorem State.emit_ub (s : State) (b : Bool) : (s.emit b).port.ub = s.port.ub ++ [b] := rfl

/-! ### `placeWord` -/

@[simp] theorem State.placeWord_cfg (s : State) (w : CmdWord) : (s.placeWord w).cfg = s.cfg := rfl
@[simp] theorem State.placeWord_tree (s : State) (w : CmdWord) : (s.placeWord w).tree = s.tree := rfl
@[simp] theorem State.placeWord_table (s : State) (w : CmdWord) : (s.placeWord w).table = s.table := rfl
@[simp] theorem State.placeWord_pack (s : State) (w : CmdWord) : (s.placeWord w).pack = s.pack := rfl
@[simp] theorem State.placeWord_unpack (s : State) (w : CmdWord) : (s.placeWord w).unpack = s.unpack := rfl
@[simp] theorem State.placeWord_dec (s : State) (w : CmdWord) : (s.placeWord w).dec = s.dec := rfl
@[simp] theorem State.placeWord_flt (s : State) (w : CmdWord) : (s.placeWord w).flt = s.flt := rfl
@[simp] theorem State.placeWord_inq (s : State) (w : CmdWord) : (s.placeWord w).port.inq = .word w :: s.port.inq := rfl
@[simp] theorem State.placeWord_rsps (s : State) (w : CmdWord) : (s.placeWord w).port.rsps = s.port.rsps := rfl
@[simp] theorem State.placeWord_ub (s : State) (w : CmdWord) : (s.placeWord w).port.ub = s.port.ub := rfl

/-! ### Tree Builder and Code Table -/

@[simp] theorem TreeBuilder.invalidate_freq (t : TreeBuilder) : t.invalidate.freq = t.freq := rfl
@[simp] theorem TreeBuilder.invalidate_node (t : TreeBuilder) : t.invalidate.node = t.node := rfl
@[simp] theorem TreeBuilder.invalidate_heap (t : TreeBuilder) : t.invalidate.heap = t.heap := rfl
@[simp] theorem TreeBuilder.invalidate_treeValid (t : TreeBuilder) : t.invalidate.treeValid = false := rfl
@[simp] theorem TreeBuilder.invalidate_nleaf (t : TreeBuilder) : t.invalidate.nleaf = 0#9 := rfl
@[simp] theorem TreeBuilder.invalidate_root (t : TreeBuilder) : t.invalidate.root = 0#9 := rfl

@[simp] theorem CodeTable.record_ctValid (g : CodeTable) (x : Symbol) (c : BitString) : (g.record x c).ctValid = g.ctValid := rfl
@[simp] theorem CodeTable.clearEntries_ctValid (g : CodeTable) : g.clearEntries.ctValid = g.ctValid := rfl
@[simp] theorem CodeTable.record_nent (g : CodeTable) (x : Symbol) (c : BitString) : (g.record x c).nent = g.nent := rfl
@[simp] theorem CodeTable.clearEntries_nent (g : CodeTable) : g.clearEntries.nent = g.nent := rfl
@[simp] theorem CodeTable.record_topen (g : CodeTable) (x : Symbol) (c : BitString) : (g.record x c).topen = g.topen := rfl
@[simp] theorem CodeTable.clearEntries_topen (g : CodeTable) : g.clearEntries.topen = g.topen := rfl
@[simp] theorem CodeTable.record_ts (g : CodeTable) (x : Symbol) (c : BitString) : (g.record x c).ts = g.ts := rfl
@[simp] theorem CodeTable.clearEntries_ts (g : CodeTable) : g.clearEntries.ts = g.ts := rfl
@[simp] theorem CodeTable.record_tc (g : CodeTable) (x : Symbol) (c : BitString) : (g.record x c).tc = g.tc := rfl
@[simp] theorem CodeTable.clearEntries_tc (g : CodeTable) : g.clearEntries.tc = g.tc := rfl
@[simp] theorem CodeTable.record_wstk (g : CodeTable) (x : Symbol) (c : BitString) : (g.record x c).wstk = g.wstk := rfl
@[simp] theorem CodeTable.clearEntries_wstk (g : CodeTable) : g.clearEntries.wstk = g.wstk := rfl

@[simp] theorem Decoder.start_dstate (d : Decoder) : d.start.dstate = .run := rfl
@[simp] theorem Decoder.start_dcand (d : Decoder) : d.start.dcand = [] := rfl
@[simp] theorem Decoder.start_ocnt (d : Decoder) : d.start.ocnt = 0#33 := rfl
@[simp] theorem Decoder.start_omem (d : Decoder) : d.start.omem = d.omem := rfl

end Sys2Proof.Machine
end

