-- ==== Sys2Proof/Laws/Ops.lean ====
section
/-! SUPPORT. What the shared operations do: register files, byte memories, and the frame of a command. Later
proofs cite these and never unfold the operations. -/

namespace Sys2Proof.Machine

/-! ### Register files -/

@[simp] theorem RegFile.get_set_self {n : Nat} {α : Type} (r : RegFile n α) (i : Fin n) (a : α) :
    (r.set i a).get i = a := by
  simp [RegFile.get, RegFile.set]

theorem RegFile.get_set {n : Nat} {α : Type} (r : RegFile n α) (i j : Fin n) (a : α) :
    (r.set i a).get j = if j = i then a else r.get j := by
  by_cases h : j = i
  · subst h; simp
  · have hv : i.val ≠ j.val := fun e => h (Fin.ext e.symm)
    simp [RegFile.get, RegFile.set, hv, h]

@[simp] theorem RegFile.get_map {n : Nat} {α : Type} (f : α → α) (r : RegFile n α) (i : Fin n) :
    (r.map f).get i = f (r.get i) := by
  simp [RegFile.get, RegFile.map]

@[simp] theorem RegFile.get_fill (n : Nat) {α : Type} (a : α) (i : Fin n) : (RegFile.fill n a).get i = a := by
  simp [RegFile.get, RegFile.fill]

/-- A register's cell in the list of cells. -/
theorem RegFile.cells_getElem? {n : Nat} {α : Type} (r : RegFile n α) (i : Fin n) :
    r.cells[i.val]? = some (r.get i) := by
  simp [RegFile.get, r.size]

/-- A value stands in the list of cells exactly when some register holds it. -/
theorem RegFile.mem_cells {n : Nat} {α : Type} (r : RegFile n α) (a : α) :
    a ∈ r.cells ↔ ∃ i, r.get i = a := by
  constructor
  · intro h
    obtain ⟨j, hj, rfl⟩ := List.getElem_of_mem h
    exact ⟨⟨j, r.size ▸ hj⟩, rfl⟩
  · rintro ⟨i, rfl⟩
    exact List.getElem_mem _

theorem RegFile.ext_get {n : Nat} {α : Type} {r q : RegFile n α} (h : ∀ i, r.get i = q.get i) : r = q := by
  cases r with | mk l hl => cases q with | mk m hm =>
  congr 1
  apply List.ext_getElem (by rw [hl, hm])
  intro j h1 h2
  exact h ⟨j, hl ▸ h1⟩

/-! ### Byte memories -/

/-- A read after a write gives the value written at its address, and what was there elsewhere. -/
theorem Memory.read_write (m : Memory) (a b : Nat) (v : Byte) :
    (m.write a v).read b = if b = a then some v else m.read b := by
  induction m with
  | nil => simp only [Memory.write, Memory.read]
  | cons p m ih =>
    obtain ⟨q, w⟩ := p
    simp only [Memory.write]
    split
    · simp only [Memory.read]
    · split
      · subst a; simp only [Memory.read]; split <;> rfl
      · simp only [Memory.read, ih]; grind

@[simp] theorem Memory.read_write_self (m : Memory) (a : Nat) (v : Byte) : (m.write a v).read a = some v := by
  simp [Memory.read_write]

theorem Memory.mem_write {m : Memory} {a : Nat} {v : Byte} {p : Host.Cell} (h : p ∈ m.write a v) :
    p = (a, v) ∨ p ∈ m := by
  induction m with
  | nil => simpa [Memory.write] using h
  | cons q m ih =>
    simp only [Memory.write] at h
    split at h
    · simpa using h
    · split at h
      · rcases List.mem_cons.1 h with h | h
        · exact .inl h
        · exact .inr (List.mem_cons_of_mem _ h)
      · rcases List.mem_cons.1 h with h | h
        · exact .inr (h ▸ List.mem_cons_self)
        · exact (ih h).imp_right (List.mem_cons_of_mem _)

/-- Every write keeps the canonical form. -/
theorem Memory.wf_write {m : Memory} (h : m.wf) (a : Nat) (v : Byte) : (m.write a v).wf := by
  induction m with
  | nil => simp [Memory.write]
  | cons q m ih =>
    obtain ⟨b, w⟩ := q
    have hm : Memory.wf m := (List.pairwise_cons.1 h).2
    have hb : ∀ p ∈ m, b < p.1 := (List.pairwise_cons.1 h).1
    simp only [Memory.write]
    split
    · rename_i hab
      refine List.pairwise_cons.2 ⟨?_, h⟩
      intro p hp
      rcases List.mem_cons.1 hp with rfl | hp
      · exact hab
      · exact Nat.lt_trans hab (hb p hp)
    · split
      · rename_i _ hab
        subst hab
        exact List.pairwise_cons.2 ⟨hb, hm⟩
      · rename_i h1 h2
        refine List.pairwise_cons.2 ⟨?_, ih hm⟩
        intro p hp
        rcases Memory.mem_write hp with rfl | hp
        · simp only; omega
        · exact hb p hp

/-- All a one-byte write can do. -/
theorem storeByte_cases {size : Nat} {m : Memory} {a : Nat} {v : Byte} {r : Except Stop Memory}
    (h : storeByte size m a v = r) :
    (a < size ∧ r = .ok (m.write a v)) ∨ (size ≤ a ∧ r = .error (.broken .noSuchByte)) := by
  unfold storeByte at h
  split at h
  · exact .inl ⟨‹_›, h.symm⟩
  · exact .inr ⟨Nat.le_of_not_lt ‹_›, h.symm⟩

theorem storeByte_ok {size : Nat} {a : Nat} (h : a < size) (m : Memory) (v : Byte) :
    storeByte size m a v = .ok (m.write a v) := by simp [storeByte, h]

theorem loadByte_ok {m : Memory} {a : Nat} {v : Byte} (h : m.read a = some v) : loadByte m a = .ok v := by
  simp [loadByte, h]

/-! ### The frame of a command -/

/-- All that a command of the engine can do, once it is known what its rule does: refused while faulted, its own
effect with code `OK`, fault entry, or a stop of the model. -/
theorem command_cases (w : CmdWord) (body : State → Except Stop (State × Data)) (s : State) :
    (s.faulted = true ∧ command w body s = .next s.refuseFaulted) ∨
    (s.faulted = false ∧
      ((∃ t d, body s = .ok (t, d) ∧ command w body s = .next (t.respond .ok d)) ∨
       (∃ e, body s = .error (.raise e) ∧ command w body s = .next (s.raiseFault e w)) ∨
       (∃ f, body s = .error (.broken f) ∧ command w body s = .fault f))) := by
  unfold command
  cases hf : s.faulted
  · refine .inr ⟨rfl, ?_⟩
    rcases hb : body s with e | ⟨t, d⟩
    · cases e with
      | raise e => exact .inr (.inl ⟨e, rfl, by simp [State.finish]⟩)
      | broken f => exact .inr (.inr ⟨f, rfl, by simp [State.finish]⟩)
    · exact .inl ⟨t, d, rfl, by simp [State.finish]⟩
  · exact .inl ⟨rfl, by simp⟩

theorem command_faulted {w : CmdWord} {body : State → Except Stop (State × Data)} {s : State}
    (h : s.faulted = true) : command w body s = .next s.refuseFaulted := by simp [command, h]

theorem command_ok {w : CmdWord} {body : State → Except Stop (State × Data)} {s t : State} {d : Data}
    (h : s.faulted = false) (hb : body s = .ok (t, d)) : command w body s = .next (t.respond .ok d) := by
  simp [command, State.finish, h, hb]

theorem command_raise {w : CmdWord} {body : State → Except Stop (State × Data)} {s : State} {e : ErrCode}
    (h : s.faulted = false) (hb : body s = .error (.raise e)) : command w body s = .next (s.raiseFault e w) := by
  simp [command, State.finish, h, hb]

/-- While faulted, `STATUS[10]` and `ERR` agree (R45). -/
theorem State.faulted_iff (s : State) : s.faulted = true ↔ s.flt.err ≠ none := by
  simp [State.faulted, Option.isSome_iff_ne_none]

theorem State.faulted_eq_false_iff (s : State) : s.faulted = false ↔ s.flt.err = none := by
  simp [State.faulted]

end Sys2Proof.Machine
end

