-- ==== Sys2Proof/Laws/Operands.lean ====
section
/-! SUPPORT. The storage of a bit-string (R33), the order of the bits of a payload byte (R63), and the ambiguity
predicate (R161). -/

namespace Sys2Proof.Machine

/-! ### Storage of a bit-string -/

theorem bitsBelow_lt (k : Nat) (c : BitString) : bitsBelow k c < 2 ^ k := by
  induction k generalizing c with
  | zero => simp [bitsBelow]
  | succ k ih =>
    cases c with
    | nil => simp [bitsBelow]
    | cons b c =>
      have := ih c
      have hb : b.toNat ≤ 1 := Bool.toNat_le b
      have : b.toNat * 2 ^ k ≤ 2 ^ k := by simpa using Nat.mul_le_mul_right (2 ^ k) hb
      simp only [bitsBelow, Nat.pow_succ]
      omega

/-- Bit `i` of the string has weight `2^(k-1-i)`. -/
theorem testBit_bitsBelow {k i : Nat} (h : i < k) (c : BitString) :
    (bitsBelow k c).testBit (k - 1 - i) = c.getD i false := by
  induction k generalizing i c with
  | zero => omega
  | succ k ih =>
    cases c with
    | nil => simp [bitsBelow]
    | cons b c =>
      simp only [bitsBelow]
      rw [Nat.mul_comm, Nat.testBit_two_pow_mul_add _ (bitsBelow_lt k c)]
      cases i with
      | zero => simp only [Nat.sub_zero, Nat.add_sub_cancel, lt_irrefl, if_false, Nat.sub_self]; cases b <;> simp
      | succ i =>
        rw [if_pos (by omega), show k + 1 - 1 - (i + 1) = k - 1 - i by omega, ih (by omega)]
        simp

/-- `X[254-i] = c[i]`, zero fill below (R33). -/
theorem getLsbD_codeVector {i : Nat} (h : i < 255) (c : BitString) :
    (codeVector c).getLsbD (254 - i) = c.getD i false := by
  have := testBit_bitsBelow h c
  simp only [codeVector, BitVec.getLsbD_ofNat]
  simpa [show 254 - i < 255 by omega] using this

/-- Code bit `c[64w + k]` stands at bit `63 - k` of word `w` (R155), for a code of at most 255 bits. -/
theorem getLsbD_codeWord {c : BitString} (hc : c.length ≤ 255) (w : BitVec 2) {k : Nat} (hk : k < 64) :
    (codeWord c w).getLsbD (63 - k) = c.getD (64 * w.toNat + k) false := by
  have hw : w.toNat < 4 := w.isLt
  simp only [codeWord, BitVec.getLsbD_extractLsb', BitVec.getLsbD_append, show 63 - k < 64 by omega, decide_true,
    Bool.true_and]
  by_cases hi : 64 * w.toNat + k < 255
  · rw [show 192 - 64 * w.toNat + (63 - k) = 254 - (64 * w.toNat + k) + 1 by omega]
    rw [if_neg (by omega), Nat.add_sub_cancel]
    exact getLsbD_codeVector hi c
  · rw [show 192 - 64 * w.toNat + (63 - k) = 0 by omega]
    rw [if_pos (by omega)]
    rw [List.getD_eq_getElem?_getD, List.getElem?_eq_none (by omega)]
    simp

/-! ### The bits of a byte -/

/-- Bit 7 first, bit 0 last (R63). -/
theorem byteBits_eq (v : Byte) : byteBits v = (List.range 8).map (fun j => v.getLsbD (7 - j)) := rfl

@[simp] theorem byteBits_length (v : Byte) : (byteBits v).length = 8 := rfl

theorem take_byteBits (v : Byte) {n : Nat} (h : n ≤ 8) :
    (byteBits v).take n = (List.range n).map (fun j => v.getLsbD (7 - j)) := by
  rw [byteBits_eq, ← List.map_take, List.take_range, Nat.min_eq_left h]

/-! ### Ambiguity -/

theorem collide_iff (c d : BitString) : collide c d = true ↔ c <+: d ∨ d <+: c := by
  simp [collide]

theorem anyCollide_iff (cs : List BitString) :
    anyCollide cs = true ↔ ¬ cs.Pairwise (fun c d => ¬ c <+: d ∧ ¬ d <+: c) := by
  induction cs with
  | nil => simp [anyCollide]
  | cons c cs ih =>
    simp only [anyCollide, Bool.or_eq_true, List.any_eq_true, collide_iff, ih, List.pairwise_cons, not_and_or,
      not_forall, exists_prop, not_not]

/-- The entry of a Symbol as a cell of the table. -/
theorem CodeTable.cells_getElem? (g : CodeTable) (x : Symbol) : g.ct.cells[x.toNat]? = some (g.entry x) :=
  g.ct.cells_getElem? x.toFin

/-- The codes of a list of entries, at different places, collide exactly when two live ones do. -/
theorem pairwise_liveCodes (es : List CodeEntry) :
    (es.filterMap (fun e => if e.v then some e.code else none)).Pairwise (fun c d => ¬ c <+: d ∧ ¬ d <+: c) ↔
      ∀ (i j : Nat) (a b : CodeEntry), i < j → es[i]? = some a → es[j]? = some b → a.v = true → b.v = true →
        ¬ a.code <+: b.code ∧ ¬ b.code <+: a.code := by
  rw [List.pairwise_filterMap, List.pairwise_iff_getElem]
  constructor
  · intro h i j a b hij ha hb va vb
    obtain ⟨hi, rfl⟩ := List.getElem?_eq_some_iff.1 ha
    obtain ⟨hj, rfl⟩ := List.getElem?_eq_some_iff.1 hb
    exact h i j hi hj hij _ (by rw [if_pos va]) _ (by rw [if_pos vb])
  · intro h i j hi hj hij c hc d hd
    have key := h i j _ _ hij (List.getElem?_eq_getElem hi) (List.getElem?_eq_getElem hj)
    split at hc <;> simp only [Option.some.injEq, reduceCtorEq] at hc
    split at hd <;> simp only [Option.some.injEq, reduceCtorEq] at hd
    subst hc hd
    exact key ‹_› ‹_›

end Sys2Proof.Machine
end

