-- ==== Sys2Proof/Laws/Pack.lean ====
section
/-! SUPPORT. All that the micro-steps of the Bit Packer can do (R182 to R184). -/

namespace Sys2Proof

theorem Config.pmemBytes_pos (c : Config) : 0 < c.pmemBytes := by simp [Config.pmemBytes]

theorem Config.pmemBytes_le (c : Config) : c.pmemBytes ≤ 2 ^ 32 := by
  have := c.pmemLast.isLt
  simp only [Config.pmemBytes]
  omega

namespace Machine

/-- `PWP` does not wrap at a byte that has room (R12 (e)). -/
theorem pwp_succ {c : Config} {w : BitVec 33} (h : w.toNat < c.pmemBytes) : (w + 1#33).toNat = w.toNat + 1 := by
  have := c.pmemBytes_le
  rw [BitVec.toNat_add]
  simp
  omega

/-- `{PACC[6:0], b}` as a number. -/
theorem shiftIn_toNat (a : BitVec 8) (b : Bool) : (shiftIn a b).toNat = (2 * a.toNat + b.toNat) % 256 := by
  have ha := a.isLt
  have e : (a.extractLsb' 0 7).toNat = a.toNat % 128 := by simp [BitVec.extractLsb'_toNat]
  have hb : b.toNat ≤ 1 := Bool.toNat_le b
  have : (shiftIn a b).toNat = 2 * (a.toNat % 128) + b.toNat := by
    rw [shiftIn, BitVec.toNat_append, e, BitVec.toNat_ofBool, Nat.shiftLeft_eq, ← Nat.mul_comm (2 ^ 1),
      ← Nat.two_pow_add_eq_or_of_lt (by omega)]
  omega

/-- All that `P_PUSH` can do (R182). -/
theorem pPush_cases (c : Config) (p : Packer) (b : Bool) :
    (p.pnb = 7#3 ∧ p.pwp.toNat = c.pmemBytes ∧ pPush c p b = .error (.raise .ovf)) ∨
    (p.pnb = 7#3 ∧ p.pwp.toNat < c.pmemBytes ∧
      pPush c p b = .ok { p with pacc := 0#8, pnb := 0#3, pwp := p.pwp + 1#33, pbitcnt := p.pbitcnt + 1#64,
                                 pmem := p.pmem.write p.pwp.toNat (shiftIn p.pacc b) }) ∨
    (p.pnb = 7#3 ∧ c.pmemBytes < p.pwp.toNat ∧ pPush c p b = .error (.broken .noSuchByte)) ∨
    (p.pnb ≠ 7#3 ∧
      pPush c p b = .ok { p with pacc := shiftIn p.pacc b, pnb := p.pnb + 1#3, pbitcnt := p.pbitcnt + 1#64 }) := by
  unfold pPush
  by_cases h7 : p.pnb = 7#3
  · rcases Nat.lt_trichotomy p.pwp.toNat c.pmemBytes with h | h | h
    · refine .inr (.inl ⟨h7, h, ?_⟩)
      simp [h7, Nat.ne_of_lt h, storeByte_ok h]
    · exact .inl ⟨h7, h, by simp [h7, h, raise]⟩
    · refine .inr (.inr (.inl ⟨h7, h, ?_⟩))
      simp [h7, Nat.ne_of_gt h, storeByte, Nat.not_lt.2 (Nat.le_of_lt h)]
  · exact .inr (.inr (.inr ⟨h7, by simp [h7]⟩))

theorem pPushAll_cons_ok {c : Config} {p q : Packer} {b : Bool} (h : pPush c p b = .ok q) (bs : BitString) :
    pPushAll c p (b :: bs) = pPushAll c q bs := by simp [pPushAll, h]

theorem pPushAll_cons_error {c : Config} {p : Packer} {b : Bool} {e : Stop} (h : pPush c p b = .error e)
    (bs : BitString) : pPushAll c p (b :: bs) = .error e := by simp [pPushAll, h]

theorem pPushAll_append (c : Config) (p : Packer) (bs cs : BitString) :
    pPushAll c p (bs ++ cs) = (pPushAll c p bs).bind (fun q => pPushAll c q cs) := by
  induction bs generalizing p with
  | nil => rfl
  | cons b bs ih =>
    rcases h : pPush c p b with e | q
    · rw [List.cons_append, pPushAll_cons_error h, pPushAll_cons_error h]; rfl
    · rw [List.cons_append, pPushAll_cons_ok h, pPushAll_cons_ok h, ih]

/-- All that `PFLUSH` does on an active packer (R184). -/
theorem flush_cases (c : Config) (p : Packer) :
    (p.pnb = 0#3 ∧ flush c p = .ok { p with pacc := 0#8, pnb := 0#3, ppad := 0#3, pmem := p.pmem.write 0 0#8,
                                            pstate := .done }) ∨
    (p.pnb ≠ 0#3 ∧ p.pwp.toNat = c.pmemBytes ∧ flush c p = .error (.raise .ovf)) ∨
    (p.pnb ≠ 0#3 ∧ c.pmemBytes < p.pwp.toNat ∧ flush c p = .error (.broken .noSuchByte)) ∨
    (p.pnb ≠ 0#3 ∧ p.pwp.toNat < c.pmemBytes ∧
      flush c p = .ok { p with pacc := 0#8, pnb := 0#3, ppad := BitVec.ofNat 3 (padCount p), pwp := p.pwp + 1#33,
                               pmem := (p.pmem.write p.pwp.toNat (p.pacc <<< padCount p)).write 0
                                 (BitVec.ofNat 8 (padCount p)),
                               pstate := .done }) := by
  have h0 := c.pmemBytes_pos
  unfold flush writePartial
  by_cases hn : p.pnb = 0#3
  · exact .inl ⟨hn, by simp [hn, storeByte_ok h0, padCount]⟩
  · rcases Nat.lt_trichotomy p.pwp.toNat c.pmemBytes with h | h | h
    · exact .inr (.inr (.inr ⟨hn, h, by simp [hn, Nat.ne_of_lt h, storeByte_ok h, storeByte_ok h0]⟩))
    · exact .inr (.inl ⟨hn, h, by simp [hn, h, raise]⟩)
    · refine .inr (.inr (.inl ⟨hn, h, ?_⟩))
      simp [hn, Nat.ne_of_gt h, storeByte, Nat.not_lt.2 (Nat.le_of_lt h)]

/-- `(8 - PNB) mod 8` when bits are waiting. -/
theorem padCount_of_ne {p : Packer} (h : p.pnb ≠ 0#3) : padCount p = 8 - p.pnb.toNat ∧ 1 ≤ p.pnb.toNat := by
  have hl := p.pnb.isLt
  have : p.pnb.toNat ≠ 0 := fun e => h (BitVec.eq_of_toNat_eq (by simpa using e))
  simp only [padCount]
  omega

end Machine
end Sys2Proof
end

