-- ==== Sys2Proof/Laws/Table.lean ====
section
/-! SUPPORT. The entries of the Code Table (R30), the ambiguity predicate over a whole table (R161), and what the walk
of `GEN` does (R151). -/

namespace Sys2Proof.Machine

/-! ### Entries -/

theorem CodeTable.entry_record (g : CodeTable) (x y : Symbol) (c : BitString) :
    (g.record x c).entry y = if y = x then { v := true, code := c } else g.entry y := by
  simp only [CodeTable.entry, CodeTable.record, RegFile.get_set]
  by_cases h : y = x
  · simp [h]
  · rw [if_neg (fun e => h (BitVec.eq_of_toFin_eq e)), if_neg h]

/-- Reading an entry of a cleared table: dead, its code as it was. -/
theorem CodeTable.entry_clearEntries (g : CodeTable) (x : Symbol) :
    g.clearEntries.entry x = { g.entry x with v := false } := by
  simp [CodeTable.entry, CodeTable.clearEntries]

/-- Only the table decides what an entry reads as. -/
theorem CodeTable.entry_congr {g h : CodeTable} (e : g.ct = h.ct) (x : Symbol) : g.entry x = h.entry x := by
  simp only [CodeTable.entry, e]

/-- A cell of the table is the entry of its Symbol. -/
theorem CodeTable.cells_getElem (g : CodeTable) {j : Nat} (hj : j < 256) :
    g.ct.cells[j]'(g.ct.size.symm ▸ hj) = g.entry (BitVec.ofNat 8 j) := by
  simp [CodeTable.entry, RegFile.get, Nat.mod_eq_of_lt hj]

/-- `AMBIG(CT)` (R161): some live entry's code is a prefix of another's. -/
theorem ambig_iff (g : CodeTable) : ambig g.ct = true ↔ ¬ PrefixFree g := by
  rw [ambig, anyCollide_iff, liveCodes, pairwise_liveCodes, not_iff_not]
  constructor
  · intro h x y hxy vx vy hp
    rcases Nat.lt_or_gt_of_ne (fun e => hxy (BitVec.eq_of_toNat_eq e)) with hl | hl
    · exact (h _ _ _ _ hl (g.cells_getElem? x) (g.cells_getElem? y) vx vy).1 hp
    · exact (h _ _ _ _ hl (g.cells_getElem? y) (g.cells_getElem? x) vy vx).2 hp
  · intro h i j a b hij ha hb va vb
    obtain ⟨hi, rfl⟩ := List.getElem?_eq_some_iff.1 ha
    obtain ⟨hj, rfl⟩ := List.getElem?_eq_some_iff.1 hb
    rw [g.ct.size] at hi hj
    rw [g.cells_getElem hi] at va ⊢
    rw [g.cells_getElem hj] at vb ⊢
    have ne : BitVec.ofNat 8 i ≠ BitVec.ofNat 8 j := by
      intro e
      have := congrArg BitVec.toNat e
      simp at this
      omega
    exact ⟨h _ _ ne va vb, h _ _ ne.symm vb va⟩

/-! ### Paths -/

@[simp] theorem TreeBuilder.follow_nil (t : TreeBuilder) (n : NodeIdx) : t.follow n [] = some n := by
  unfold TreeBuilder.follow; rfl

/-- No path goes on below a leaf. -/
theorem TreeBuilder.follow_leaf {t : TreeBuilder} {n m : NodeIdx} (h : n.toNat < 256) {c : BitString}
    (hc : t.follow n c = some m) : c = [] ∧ m = n := by
  cases c with
  | nil => simpa using hc.symm
  | cons b c => simp [TreeBuilder.follow, h] at hc

/-- One branch (R101): 0 to the left child, 1 to the right child. -/
theorem TreeBuilder.follow_cons {t : TreeBuilder} {n : NodeIdx} (h : 256 ≤ n.toNat) (b : Bool) (c : BitString) :
    t.follow n (b :: c) = t.follow (if b then (t.nodeAt n).r else (t.nodeAt n).l) c := by
  simp [TreeBuilder.follow, Nat.not_lt.2 h]

theorem TreeBuilder.follow_append (t : TreeBuilder) (n : NodeIdx) (c d : BitString) :
    t.follow n (c ++ d) = (t.follow n c).bind (fun m => t.follow m d) := by
  induction c generalizing n with
  | nil => simp
  | cons b c ih =>
    by_cases h : n.toNat < 256
    · simp [TreeBuilder.follow, h]
    · rw [List.cons_append, TreeBuilder.follow_cons (Nat.not_lt.1 h), TreeBuilder.follow_cons (Nat.not_lt.1 h), ih]

theorem leafIdx_toNat (x : Symbol) : (leafIdx x).toNat = x.toNat := by
  have := x.isLt
  simp [leafIdx]
  omega

/-- An index below 256 is the leaf of the Symbol that the walk records there (R24). -/
theorem leafIdx_setWidth {n : NodeIdx} (h : n.toNat < 256) : leafIdx (n.setWidth 8) = n := by
  apply BitVec.eq_of_toNat_eq
  rw [leafIdx_toNat]
  simp
  omega

theorem leafIdx_inj {x y : Symbol} : leafIdx x = leafIdx y ↔ x = y := by
  refine ⟨fun h => BitVec.eq_of_toNat_eq ?_, fun h => h ▸ rfl⟩
  have := congrArg BitVec.toNat h
  rwa [leafIdx_toNat, leafIdx_toNat] at this

/-! ### The walk -/

/-- What the walk asks of a node store: every child of a live internal node is live and has a smaller index (R25 (c)). -/
def TreeBuilder.Descends (t : TreeBuilder) : Prop :=
  ∀ n, 256 ≤ n.toNat → (t.nodeAt n).v = true →
    n.toNat < 511 ∧ ((t.nodeAt n).l < n ∧ (t.nodeAt (t.nodeAt n).l).v = true) ∧
    ((t.nodeAt n).r < n ∧ (t.nodeAt (t.nodeAt n).r).v = true)

/-- An index that is no node is never live (R24, R131). -/
theorem TreeBuilder.lt_of_live {t : TreeBuilder} {n : NodeIdx} (h : (t.nodeAt n).v = true) : n.toNat < 511 := by
  by_contra hn
  simp [TreeBuilder.nodeAt, hn, Node.blank] at h

theorem TreeBuilder.IsTree.descends {t : TreeBuilder} (h : t.IsTree) : t.Descends := fun n hn hv =>
  have c := h.children n hn hv
  ⟨TreeBuilder.lt_of_live hv, ⟨c.1, c.2.2.2.1⟩, ⟨c.2.1, c.2.2.2.2.1⟩⟩

/-- What the walk below a live node leaves (R151): every leaf reached from it has one of its paths as its code, every
other entry is as before, and the walker stack is as it was. -/
theorem walk_spec {t : TreeBuilder} (hd : t.Descends) (k : Nat) (n : NodeIdx) (path : BitString) (g : CodeTable)
    (hv : (t.nodeAt n).v = true) (hk : 1 ≤ k) (hn : n.toNat < 255 + k) :
    ∃ g', walk t k n path g = .ok g' ∧ g'.wstk = g.wstk ∧ g'.ctValid = g.ctValid ∧ g'.nent = g.nent ∧
      g'.topen = g.topen ∧ g'.ts = g.ts ∧ g'.tc = g.tc ∧
      ∀ x, (∃ d, t.follow n d = some (leafIdx x) ∧ g'.entry x = { v := true, code := path ++ d }) ∨
        ((∀ d, t.follow n d ≠ some (leafIdx x)) ∧ g'.entry x = g.entry x) := by
  induction k generalizing n path g with
  | zero => omega
  | succ k ih =>
    unfold walk
    by_cases hl : n.toNat < 256
    · rw [if_pos hl]
      refine ⟨_, rfl, rfl, rfl, rfl, rfl, rfl, rfl, fun x => ?_⟩
      rw [CodeTable.entry_record]
      by_cases hx : leafIdx x = n
      · refine .inl ⟨[], by rw [TreeBuilder.follow_nil, hx], ?_⟩
        rw [if_pos (leafIdx_inj.1 (hx.trans (leafIdx_setWidth hl).symm)), List.append_nil]
      · refine .inr ⟨fun d h => hx (TreeBuilder.follow_leaf hl h).2, ?_⟩
        rw [if_neg]
        rintro rfl
        exact hx (leafIdx_setWidth hl)
    · have hn' := Nat.not_lt.1 hl
      obtain ⟨h511, ⟨ll, lv⟩, ⟨rl, rv⟩⟩ := hd n hn' hv
      rw [BitVec.lt_def] at ll rl
      rw [if_neg hl, if_pos h511]
      obtain ⟨g1, e1, w1, a1, b1, c1, d1, f1, p1⟩ := ih (t.nodeAt n).l (path ++ [false])
        { g with wstk := ((t.nodeAt n).r, path ++ [true]) :: g.wstk } lv (by omega) (by omega)
      obtain ⟨g2, e2, w2, a2, b2, c2, d2, f2, p2⟩ := ih (t.nodeAt n).r (path ++ [true])
        { g1 with wstk := g.wstk } rv (by omega) (by omega)
      simp only [e1, w1]
      refine ⟨g2, e2, w2, a2.trans a1, b2.trans b1, c2.trans c1, d2.trans d1, f2.trans f1, fun x => ?_⟩
      rcases p2 x with ⟨d, h1, h2⟩ | ⟨h1, h2⟩
      · refine .inl ⟨true :: d, by rw [TreeBuilder.follow_cons hn']; exact h1, ?_⟩
        rw [h2, List.append_assoc]; rfl
      · rcases p1 x with ⟨d, h3, h4⟩ | ⟨h3, h4⟩
        · refine .inl ⟨false :: d, by rw [TreeBuilder.follow_cons hn']; exact h3, ?_⟩
          rw [h2]
          exact h4.trans (by rw [List.append_assoc]; rfl)
        · refine .inr ⟨fun d hd => ?_, ?_⟩
          · cases d with
            | nil =>
              rw [TreeBuilder.follow_nil, Option.some.injEq] at hd
              rw [hd, leafIdx_toNat] at hn'
              exact absurd x.isLt (by omega)
            | cons b d =>
              rw [TreeBuilder.follow_cons hn'] at hd
              cases b
              · exact h3 d hd
              · exact h1 d hd
          · rw [h2]; exact h4

/-- A live node has a leaf below it. -/
theorem TreeBuilder.Descends.leaf_below {t : TreeBuilder} (hd : t.Descends) (k : Nat) {n : NodeIdx}
    (hk : n.toNat < k) (hv : (t.nodeAt n).v = true) :
    ∃ d x, t.follow n d = some (leafIdx x) ∧ (256 ≤ n.toNat → d ≠ []) := by
  induction k generalizing n with
  | zero => omega
  | succ k ih =>
    by_cases hl : n.toNat < 256
    · exact ⟨[], n.setWidth 8, by rw [TreeBuilder.follow_nil, leafIdx_setWidth hl], fun h => by omega⟩
    · have hn' := Nat.not_lt.1 hl
      obtain ⟨-, ⟨ll, lv⟩, -⟩ := hd n hn' hv
      rw [BitVec.lt_def] at ll
      obtain ⟨d, x, h, -⟩ := ih (by omega) lv
      exact ⟨false :: d, x, by rw [TreeBuilder.follow_cons hn']; exact h, by simp⟩

/-- Every node on a path from a live node is live, and its index falls by at least 1 with each bit. -/
theorem TreeBuilder.Descends.follow_live {t : TreeBuilder} (hd : t.Descends) {n m : NodeIdx} {c : BitString}
    (hv : (t.nodeAt n).v = true) (h : t.follow n c = some m) :
    (t.nodeAt m).v = true ∧ m.toNat + c.length ≤ n.toNat ∧ (c ≠ [] → 256 ≤ n.toNat) := by
  induction c generalizing n with
  | nil => simp only [TreeBuilder.follow_nil, Option.some.injEq] at h; subst h; simpa using hv
  | cons b c ih =>
    by_cases hl : n.toNat < 256
    · simp [TreeBuilder.follow, hl] at h
    · have hn' := Nat.not_lt.1 hl
      obtain ⟨-, ⟨ll, lv⟩, ⟨rl, rv⟩⟩ := hd n hn' hv
      rw [BitVec.lt_def] at ll rl
      rw [TreeBuilder.follow_cons hn'] at h
      refine ⟨?_, ?_, fun _ => hn'⟩ <;> cases b <;> simp only [if_true, Bool.false_eq_true, if_false] at h
      · exact (ih lv h).1
      · exact (ih rv h).1
      · have := (ih lv h).2.1; simp only [List.length_cons]; omega
      · have := (ih rv h).2.1; simp only [List.length_cons]; omega

/-- A path of one bit or more has at most `n - 255` bits: all its nodes but the last are internal. -/
theorem TreeBuilder.Descends.follow_length {t : TreeBuilder} (hd : t.Descends) {n m : NodeIdx} {c : BitString}
    (hv : (t.nodeAt n).v = true) (h : t.follow n c = some m) (hc : c ≠ []) : c.length + 255 ≤ n.toNat := by
  induction c generalizing n with
  | nil => exact absurd rfl hc
  | cons b c ih =>
    have hn' := (hd.follow_live hv h).2.2 hc
    obtain ⟨-, ⟨ll, lv⟩, ⟨rl, rv⟩⟩ := hd n hn' hv
    rw [BitVec.lt_def] at ll rl
    rw [TreeBuilder.follow_cons hn'] at h
    by_cases hc' : c = []
    · subst hc'; simp only [List.length_cons, List.length_nil]; omega
    · simp only [List.length_cons]
      cases b
      · have := ih lv (by simpa using h) hc'; omega
      · have := ih rv (by simpa using h) hc'; omega

end Sys2Proof.Machine
end

