-- ==== Sys2Proof/Laws/Heap.lean ====
section
/-! SUPPORT. What `INSERT` and `EXTRACT` (R130) do: both rearrange, keep the heap order, and `EXTRACT` returns the
least node of the pool. -/

namespace Sys2Proof.Machine

/-! ### Rearrangement -/

theorem heapAt_eq_getElem {h : List NodeIdx} {j : Nat} (hj : j < h.length) : heapAt h j = h[j] := by
  simp [heapAt, hj]

@[simp] theorem length_heapSwap (h : List NodeIdx) (i j : Nat) : (heapSwap h i j).length = h.length := by
  simp [heapSwap]

theorem heapAt_set (h : List NodeIdx) (i j : Nat) (x : NodeIdx) (hi : i < h.length) :
    heapAt (h.set i x) j = if j = i then x else heapAt h j := by
  by_cases e : j = i
  · subst e; simp [heapAt, hi]
  · simp [heapAt, Ne.symm e, e]

theorem heapAt_heapSwap {h : List NodeIdx} {i j : Nat} (hi : i < h.length) (hj : j < h.length) (k : Nat) :
    heapAt (heapSwap h i j) k = if k = j then heapAt h i else if k = i then heapAt h j else heapAt h k := by
  unfold heapSwap
  rw [heapAt_set _ _ _ _ (by simpa using hj), heapAt_set _ _ _ _ hi]

theorem heapSwap_perm {h : List NodeIdx} {i j : Nat} (hi : i < h.length) (hj : j < h.length) :
    (heapSwap h i j).Perm h := by
  unfold heapSwap
  rw [heapAt_eq_getElem hi, heapAt_eq_getElem hj]
  exact List.set_set_perm hi hj

theorem siftUp_perm (lt : NodeIdx → NodeIdx → Bool) (k j : Nat) (h : List NodeIdx) (hj : j < h.length) :
    (siftUp lt k j h).Perm h := by
  induction k generalizing j h with
  | zero => exact .refl _
  | succ k ih =>
    unfold siftUp
    split
    · have hp : (j - 1) / 2 < h.length := by omega
      exact (ih _ _ (by simpa using hp)).trans (heapSwap_perm hj hp)
    · exact .refl _

/-- `INSERT(x)` adds exactly `x` to the pool. -/
theorem heapInsert_perm (lt : NodeIdx → NodeIdx → Bool) (h : List NodeIdx) (x : NodeIdx) :
    (heapInsert lt h x).Perm (x :: h) :=
  (siftUp_perm _ _ _ _ (by simp)).trans (List.perm_append_comm (l₁ := h) (l₂ := [x]))

theorem leastChild_cases (lt : NodeIdx → NodeIdx → Bool) (h : List NodeIdx) (j : Nat) :
    leastChild lt h j = j ∨
    (leastChild lt h j = 2 * j + 1 ∧ 2 * j + 1 < h.length) ∨
    (leastChild lt h j = 2 * j + 2 ∧ 2 * j + 2 < h.length) := by
  unfold leastChild
  grind

theorem siftDown_perm (lt : NodeIdx → NodeIdx → Bool) (k j : Nat) (h : List NodeIdx) (hj : j < h.length) :
    (siftDown lt k j h).Perm h := by
  induction k generalizing j h with
  | zero => exact .refl _
  | succ k ih =>
    unfold siftDown
    split
    · exact .refl _
    · have hm : leastChild lt h j < h.length := by
        rcases leastChild_cases lt h j with e | ⟨e, hl⟩ | ⟨e, hl⟩ <;> omega
      exact (ih _ _ (by simpa using hm)).trans (heapSwap_perm hj hm)

/-- `EXTRACT()` takes exactly the node it returns out of the pool. -/
theorem heapExtract_perm (lt : NodeIdx → NodeIdx → Bool) {h : List NodeIdx} (hne : h ≠ []) :
    ((heapExtract lt h).1 :: (heapExtract lt h).2).Perm h := by
  unfold heapExtract
  simp only
  have hlen : h.dropLast.length = h.length - 1 := by simp
  have hpos : 0 < h.length := List.length_pos_iff.2 hne
  split
  · rename_i he
    have h1 : h.length = 1 := by rw [he] at hlen; simp at hlen; omega
    obtain ⟨a, rfl⟩ := List.length_eq_one_iff.1 h1
    simp [heapAt]
  · rename_i he
    have hd : 0 < h.dropLast.length := List.length_pos_iff.2 he
    refine (((siftDown_perm lt _ 0 _ (by simpa using hd)).cons _)).trans ?_
    cases h with
    | nil => exact absurd rfl hne
    | cons a l =>
      have hl : l ≠ [] := by rintro rfl; simp at hd
      have e1 : (a :: l).dropLast = a :: l.dropLast := List.dropLast_cons_of_ne_nil hl
      have e2 : heapAt (a :: l) (a :: l).dropLast.length = l.getLast hl := by
        rw [heapAt_eq_getElem (by omega)]
        simp [List.getLast_eq_getElem, List.getElem_cons, hl]
      rw [e2, e1]
      simp only [List.set_cons_zero]
      have e3 : heapAt (a :: l) 0 = a := by simp [heapAt]
      rw [e3]
      refine List.Perm.cons a ?_
      have : (l.getLast hl :: l.dropLast).Perm (l.dropLast ++ [l.getLast hl]) := by
        simpa using (List.perm_append_comm (l₁ := [l.getLast hl]) (l₂ := l.dropLast))
      exact this.trans (by rw [List.dropLast_append_getLast])

/-! ### The heap order -/

theorem StrictTotal.le_trans {lt : NodeIdx → NodeIdx → Bool} (o : StrictTotal lt) {x y z : NodeIdx}
    (h1 : lt y x = false) (h2 : lt z y = false) : lt z x = false := by
  by_contra hc
  have hc : lt z x = true := by simpa using hc
  by_cases e : x = y
  · subst e; simp [hc] at h2
  · rcases o.total x y e with h | h
    · have := o.trans _ _ _ hc h; simp [this] at h2
    · simp [h] at h1

theorem StrictTotal.le_of_lt {lt : NodeIdx → NodeIdx → Bool} (o : StrictTotal lt) {x y : NodeIdx}
    (h : lt x y = true) : lt y x = false := by
  by_contra hc
  have hc : lt y x = true := by simpa using hc
  have := o.trans _ _ _ h hc
  simp [o.irrefl] at this

/-- The order that `INSERT`'s loop starts from: right everywhere but between `j` and its parent, and `j`'s parent is
right against `j`'s children. -/
def UpOrdered (lt : NodeIdx → NodeIdx → Bool) (j : Nat) (h : List NodeIdx) : Prop :=
  (∀ k, 0 < k → k < h.length → k ≠ j → lt (heapAt h k) (heapAt h ((k - 1) / 2)) = false) ∧
  (∀ k, 0 < j → k < h.length → 0 < k → (k - 1) / 2 = j →
    lt (heapAt h k) (heapAt h ((j - 1) / 2)) = false)

theorem siftUp_ordered {lt : NodeIdx → NodeIdx → Bool} (o : StrictTotal lt) (k j : Nat) (h : List NodeIdx)
    (hk : j ≤ k) (hj : j < h.length) (hu : UpOrdered lt j h) : HeapOrdered lt (siftUp lt k j h) := by
  induction k generalizing j h with
  | zero =>
    intro i h0 hi
    exact hu.1 i h0 hi (by omega)
  | succ k ih =>
    unfold siftUp
    split
    · rename_i hc
      obtain ⟨h0, hlt⟩ := hc
      have hp : (j - 1) / 2 < h.length := by omega
      refine ih _ _ (by omega) (by simpa using hp) ⟨?_, ?_⟩
      · intro i hi0 hil hij
        have hil' : i < h.length := by simpa using hil
        rw [heapAt_heapSwap hj hp, heapAt_heapSwap hj hp, if_neg hij]
        by_cases e : i = j
        · subst e
          rw [if_pos rfl, if_pos rfl]
          exact o.le_of_lt hlt
        · rw [if_neg e]
          by_cases e2 : (i - 1) / 2 = (j - 1) / 2
          · rw [if_pos e2]
            have := hu.1 i hi0 hil' e
            rw [e2] at this
            exact o.le_trans (o.le_of_lt hlt) this
          · rw [if_neg e2]
            by_cases e3 : (i - 1) / 2 = j
            · rw [if_pos e3]
              exact hu.2 i h0 hil' hi0 e3
            · rw [if_neg e3]
              exact hu.1 i hi0 hil' e
      · intro i hp0 hil hi0 hie
        have hil' : i < h.length := by simpa using hil
        rw [heapAt_heapSwap hj hp, heapAt_heapSwap hj hp]
        have n1 : ((j - 1) / 2 - 1) / 2 ≠ (j - 1) / 2 := by omega
        have n2 : ((j - 1) / 2 - 1) / 2 ≠ j := by omega
        have hg := hu.1 ((j - 1) / 2) hp0 hp (by omega)
        rw [if_neg n1, if_neg n2, if_neg (by omega : i ≠ (j - 1) / 2)]
        by_cases e : i = j
        · rw [if_pos e]; exact hg
        · rw [if_neg e]
          have := hu.1 i hi0 hil' e
          rw [hie] at this
          exact o.le_trans hg this
    · rename_i hc
      intro i h0 hi
      by_cases e : i = j
      · subst e
        by_contra hn
        exact hc ⟨h0, by simpa using hn⟩
      · exact hu.1 i h0 hi e

/-- `INSERT` keeps the heap order. -/
theorem heapInsert_ordered {lt : NodeIdx → NodeIdx → Bool} (o : StrictTotal lt) {h : List NodeIdx}
    (ho : HeapOrdered lt h) (x : NodeIdx) : HeapOrdered lt (heapInsert lt h x) := by
  refine siftUp_ordered o _ _ _ (Nat.le_refl _) (by simp) ⟨?_, ?_⟩
  · intro k h0 hk hne
    have hk' : k < h.length := by simp at hk; omega
    have e1 : heapAt (h ++ [x]) k = heapAt h k := by
      simp [heapAt, List.getElem?_append_left hk']
    have e2 : heapAt (h ++ [x]) ((k - 1) / 2) = heapAt h ((k - 1) / 2) := by
      simp [heapAt, List.getElem?_append_left (show (k - 1) / 2 < h.length by omega)]
    rw [e1, e2]
    exact ho k h0 hk'
  · intro k _ hk h0 he
    simp at hk; omega

/-- The order that `EXTRACT`'s loop starts from: right everywhere but between `j` and its children, and `j`'s parent
is right against `j`'s children. -/
def DownOrdered (lt : NodeIdx → NodeIdx → Bool) (j : Nat) (h : List NodeIdx) : Prop :=
  (∀ k, 0 < k → k < h.length → (k - 1) / 2 ≠ j → lt (heapAt h k) (heapAt h ((k - 1) / 2)) = false) ∧
  (∀ k, 0 < j → k < h.length → 0 < k → (k - 1) / 2 = j →
    lt (heapAt h k) (heapAt h ((j - 1) / 2)) = false)

theorem leastChild_least {lt : NodeIdx → NodeIdx → Bool} (o : StrictTotal lt) (h : List NodeIdx) (j i : Nat)
    (hi : i < h.length) (h0 : 0 < i) (he : (i - 1) / 2 = j) :
    lt (heapAt h i) (heapAt h (leastChild lt h j)) = false ∧ lt (heapAt h j) (heapAt h (leastChild lt h j)) = false := by
  have hi' : i = 2 * j + 1 ∨ i = 2 * j + 2 := by omega
  have hle : ∀ a b, ¬ (lt a b = true) → lt a b = false := fun a b h => by simpa using h
  unfold leastChild
  simp only
  by_cases c1 : 2 * j + 1 < h.length ∧ lt (heapAt h (2 * j + 1)) (heapAt h j) = true
  · rw [if_pos c1]
    by_cases c2 : 2 * j + 2 < h.length ∧ lt (heapAt h (2 * j + 2)) (heapAt h (2 * j + 1)) = true
    · rw [if_pos c2]
      refine ⟨?_, o.le_of_lt (o.trans _ _ _ c2.2 c1.2)⟩
      rcases hi' with rfl | rfl
      · exact o.le_of_lt c2.2
      · exact o.irrefl _
    · rw [if_neg c2]
      refine ⟨?_, o.le_of_lt c1.2⟩
      rcases hi' with rfl | rfl
      · exact o.irrefl _
      · exact hle _ _ (fun e => c2 ⟨hi, e⟩)
  · rw [if_neg c1]
    by_cases c2 : 2 * j + 2 < h.length ∧ lt (heapAt h (2 * j + 2)) (heapAt h j) = true
    · rw [if_pos c2]
      refine ⟨?_, o.le_of_lt c2.2⟩
      rcases hi' with rfl | rfl
      · exact o.le_trans (o.le_of_lt c2.2) (hle _ _ (fun e => c1 ⟨hi, e⟩))
      · exact o.irrefl _
    · rw [if_neg c2]
      refine ⟨?_, o.irrefl _⟩
      rcases hi' with rfl | rfl
      · exact hle _ _ (fun e => c1 ⟨hi, e⟩)
      · exact hle _ _ (fun e => c2 ⟨hi, e⟩)

theorem siftDown_ordered {lt : NodeIdx → NodeIdx → Bool} (o : StrictTotal lt) (k j : Nat) (h : List NodeIdx)
    (hk : h.length ≤ k + j) (hj : j < h.length) (hd : DownOrdered lt j h) : HeapOrdered lt (siftDown lt k j h) := by
  induction k generalizing j h with
  | zero => omega
  | succ k ih =>
    unfold siftDown
    split
    · rename_i hm
      intro i h0 hi
      by_cases e : (i - 1) / 2 = j
      · have := (leastChild_least o h j i hi h0 e).1
        rw [hm] at this
        rw [e]; exact this
      · exact hd.1 i h0 hi e
    · rename_i hm
      generalize hmm : leastChild lt h j = m at hm ⊢
      have hc : (m = 2 * j + 1 ∨ m = 2 * j + 2) ∧ m < h.length := by
        rcases leastChild_cases lt h j with e | ⟨e, hl⟩ | ⟨e, hl⟩
        · exact absurd (hmm.symm.trans e) hm
        · exact ⟨.inl (hmm.symm.trans e), by omega⟩
        · exact ⟨.inr (hmm.symm.trans e), by omega⟩
      obtain ⟨hm2, hml⟩ := hc
      refine ih _ _ (by simp; omega) (by simpa using hml) ⟨?_, ?_⟩
      · intro i h0 hil hne
        have hil' : i < h.length := by simpa using hil
        rw [heapAt_heapSwap hj hml, heapAt_heapSwap hj hml, if_neg hne]
        by_cases e : i = m
        · subst e
          rw [if_pos rfl, if_pos (show (i - 1) / 2 = j by omega)]
          have := (leastChild_least o h j i hil' h0 (by omega)).2
          rwa [hmm] at this
        · rw [if_neg e]
          by_cases e2 : (i - 1) / 2 = j
          · rw [if_pos e2, if_neg (show i ≠ j by omega)]
            have := (leastChild_least o h j i hil' h0 e2).1
            rwa [hmm] at this
          · rw [if_neg e2]
            by_cases e3 : i = j
            · subst e3
              rw [if_pos rfl]
              exact hd.2 m (by omega) hml (by omega) (by omega)
            · rw [if_neg e3]
              exact hd.1 i h0 hil' e2
      · intro i _ hil h0 he
        have hil' : i < h.length := by simpa using hil
        rw [heapAt_heapSwap hj hml, heapAt_heapSwap hj hml, if_neg (show i ≠ m by omega), if_neg (show i ≠ j by omega),
          if_neg (show (m - 1) / 2 ≠ m by omega), if_pos (show (m - 1) / 2 = j by omega)]
        have := hd.1 i h0 hil' (by omega)
        rwa [he] at this

theorem heapExtract_ordered {lt : NodeIdx → NodeIdx → Bool} (o : StrictTotal lt) {h : List NodeIdx}
    (ho : HeapOrdered lt h) : HeapOrdered lt (heapExtract lt h).2 := by
  unfold heapExtract
  simp only
  split
  · intro j _ hj; simp at hj
  · rename_i he
    have hd : 0 < h.dropLast.length := List.length_pos_iff.2 he
    have hl : h.dropLast.length = h.length - 1 := by simp
    refine siftDown_ordered o _ 0 _ (by simp) (by simpa using hd) ⟨?_, fun k h0 => absurd h0 (by omega)⟩
    intro k h0 hk hne
    have hk' : k < h.dropLast.length := by simpa using hk
    have at_eq : ∀ j, 0 < j → j < h.dropLast.length →
        heapAt (h.dropLast.set 0 (heapAt h h.dropLast.length)) j = heapAt h j := by
      intro j hj0 hj
      rw [heapAt_set _ _ _ _ hd, if_neg (by omega), heapAt_eq_getElem hj, heapAt_eq_getElem (by omega)]
      simp
    rw [at_eq k h0 hk', at_eq _ (by omega) (by omega)]
    exact ho k h0 (by omega)

/-- The root of an ordered heap comes before no other entry. -/
theorem heap_root_least {lt : NodeIdx → NodeIdx → Bool} (o : StrictTotal lt) {h : List NodeIdx}
    (ho : HeapOrdered lt h) : ∀ j, j < h.length → lt (heapAt h j) (heapAt h 0) = false := by
  intro j
  induction j using Nat.strong_induction_on with
  | _ j ih =>
    intro hj
    by_cases h0 : j = 0
    · subst h0; exact o.irrefl _
    · exact o.le_trans (ih ((j - 1) / 2) (by omega) (by omega)) (ho j (by omega) hj)

/-- `EXTRACT()` returns `MIN(POOL)`: no node of the pool comes before it. -/
theorem heapExtract_least {lt : NodeIdx → NodeIdx → Bool} (o : StrictTotal lt) {h : List NodeIdx}
    (ho : HeapOrdered lt h) : ∀ y ∈ h, lt y (heapExtract lt h).1 = false := by
  intro y hy
  obtain ⟨j, hj, rfl⟩ := List.getElem_of_mem hy
  have := heap_root_least o ho j hj
  rwa [heapAt_eq_getElem hj] at this

/-- `leastOf` returns the least: what it returns is there, and nothing there comes before it. -/
theorem leastOf_spec {lt : NodeIdx → NodeIdx → Bool} (o : StrictTotal lt) (m : NodeIdx) (ys : List NodeIdx) :
    leastOf lt m ys ∈ m :: ys ∧ ∀ y ∈ m :: ys, lt y (leastOf lt m ys) = false := by
  induction ys generalizing m with
  | nil => simp [leastOf, o.irrefl]
  | cons z zs ih =>
    simp only [leastOf]
    by_cases c : lt z m = true
    · rw [if_pos c]
      refine ⟨List.mem_cons_of_mem _ (ih z).1, ?_⟩
      intro y hy
      rcases List.mem_cons.1 hy with rfl | hy
      · exact o.le_trans ((ih z).2 z List.mem_cons_self) (o.le_of_lt c)
      · exact (ih z).2 y hy
    · rw [if_neg c]
      have c' : lt z m = false := by simpa using c
      refine ⟨?_, ?_⟩
      · rcases List.mem_cons.1 (ih m).1 with h | h
        · rw [h]; exact List.mem_cons_self
        · exact List.mem_cons_of_mem _ (List.mem_cons_of_mem _ h)
      · intro y hy
        rcases List.mem_cons.1 hy with rfl | hy
        · exact (ih y).2 y List.mem_cons_self
        · rcases List.mem_cons.1 hy with rfl | hy
          · exact o.le_trans ((ih m).2 m List.mem_cons_self) c'
          · exact (ih m).2 y (List.mem_cons_of_mem _ hy)

theorem minPool_spec {lt : NodeIdx → NodeIdx → Bool} (o : StrictTotal lt) {pool : List NodeIdx} (h : pool ≠ []) :
    minPool lt pool ∈ pool ∧ ∀ y ∈ pool, lt y (minPool lt pool) = false := by
  cases pool with
  | nil => exact absurd rfl h
  | cons x xs => exact leastOf_spec o x xs

/-- A heap and a pool with the same nodes deliver the same minimum. -/
theorem heapExtract_eq_minPool {lt : NodeIdx → NodeIdx → Bool} (o : StrictTotal lt) {h pool : List NodeIdx}
    (ho : HeapOrdered lt h) (hp : h.Perm pool) (hne : pool ≠ []) : (heapExtract lt h).1 = minPool lt pool := by
  have hne' : h ≠ [] := by rintro rfl; exact hne (List.perm_nil.1 hp.symm)
  obtain ⟨hm, hl⟩ := minPool_spec o hne
  have h1 : (heapExtract lt h).1 ∈ h := (heapExtract_perm lt hne').subset List.mem_cons_self
  by_contra hc
  rcases o.total _ _ hc with c | c
  · have := hl _ (hp.subset h1); simp [c] at this
  · have := heapExtract_least o ho _ (hp.symm.subset hm); simp [c] at this

end Sys2Proof.Machine

/-- `KEYLT` is admissible, whatever the parameters. -/
theorem Sys2Proof.Config.keyLt_admissible (c : Sys2Proof.Config) :
    Sys2Proof.Machine.AdmissibleOrder c.keyLt := by
  refine ⟨?_, ?_, ?_, ?_⟩
  · intro x; simp [Config.keyLt]
  · intro x y z
    simp only [Config.keyLt, Bool.or_eq_true, Bool.and_eq_true, decide_eq_true_eq, beq_iff_eq]
    grind
  · intro x y hne
    have : x.f ≠ y.f ∨ x.i ≠ y.i := by
      by_contra hc
      push Not at hc
      exact hne (by cases x; cases y; simp_all)
    simp only [Config.keyLt, Bool.or_eq_true, Bool.and_eq_true, decide_eq_true_eq, beq_iff_eq]
    rcases Nat.lt_trichotomy (c.rank x) (c.rank y) with h | h | h <;> grind
  · intro x y h; simp [Config.keyLt, h]

namespace Sys2Proof.Machine

/-- `KEYLT` on the nodes of a store is a strict total order, since no two keys have the same index (R125). -/
theorem TreeBuilder.before_strict (t : TreeBuilder) (c : Config) : StrictTotal (t.before c) := by
  have a := c.keyLt_admissible
  refine ⟨fun x => a.irrefl _, fun x y z => a.trans _ _ _, fun x y h => a.total _ _ ?_⟩
  intro e
  exact h (by simpa [TreeBuilder.keyOf] using congrArg Key.i e)

end Sys2Proof.Machine
end

