-- ==== Sys2Proof/Laws/Tree.lean ====
section
/-! SUPPORT. What the Tree Builder's micro-steps do to the node store and the pool (R124 to R127). -/

namespace Sys2Proof.Machine

/-! ### The node store -/

@[simp] theorem TreeBuilder.setNode_freq (t : TreeBuilder) (j : NodeIdx) (n : Node) :
    (t.setNode j n).freq = t.freq := by unfold TreeBuilder.setNode; split <;> rfl
@[simp] theorem TreeBuilder.setNode_treeValid (t : TreeBuilder) (j : NodeIdx) (n : Node) :
    (t.setNode j n).treeValid = t.treeValid := by unfold TreeBuilder.setNode; split <;> rfl
@[simp] theorem TreeBuilder.setNode_nleaf (t : TreeBuilder) (j : NodeIdx) (n : Node) :
    (t.setNode j n).nleaf = t.nleaf := by unfold TreeBuilder.setNode; split <;> rfl
@[simp] theorem TreeBuilder.setNode_root (t : TreeBuilder) (j : NodeIdx) (n : Node) :
    (t.setNode j n).root = t.root := by unfold TreeBuilder.setNode; split <;> rfl
@[simp] theorem TreeBuilder.setNode_heap (t : TreeBuilder) (j : NodeIdx) (n : Node) :
    (t.setNode j n).heap = t.heap := by unfold TreeBuilder.setNode; split <;> rfl

/-- Reading an entry of the node store after a write. -/
theorem TreeBuilder.nodeAt_setNode (t : TreeBuilder) {j : NodeIdx} (hj : j.toNat < 511) (n : Node) (i : NodeIdx) :
    (t.setNode j n).nodeAt i = if i = j then n else t.nodeAt i := by
  unfold TreeBuilder.setNode TreeBuilder.nodeAt
  rw [dif_pos hj]
  by_cases hi : i.toNat < 511
  · simp only [hi, dif_pos, RegFile.get_set, Fin.mk.injEq, BitVec.toNat_inj]
  · have : i ≠ j := by rintro rfl; exact hi hj
    simp [hi, this]

theorem TreeBuilder.nodeAt_last (t : TreeBuilder) : t.nodeAt 511#9 = .blank := by
  simp [TreeBuilder.nodeAt]

/-- Only the node store decides what a node reads as. -/
theorem TreeBuilder.nodeAt_congr {t u : TreeBuilder} (h : t.node = u.node) (j : NodeIdx) :
    t.nodeAt j = u.nodeAt j := by simp only [TreeBuilder.nodeAt, h]

/-- Only the node store decides which of two nodes comes first. -/
theorem TreeBuilder.before_congr {t u : TreeBuilder} (h : t.node = u.node) (c : Config) :
    t.before c = u.before c := by
  funext x y
  simp only [TreeBuilder.before, TreeBuilder.keyOf, TreeBuilder.nodeAt_congr h]

theorem TreeBuilder.freqAt_congr {t u : TreeBuilder} (h : t.freq = u.freq) (x : Symbol) :
    t.freqAt x = u.freqAt x := by simp only [TreeBuilder.freqAt, h]

/-- `B_INIT`'s first line (R124): no node is live, frequencies and links stay. -/
theorem TreeBuilder.nodeAt_unlive (t : TreeBuilder) (h : List NodeIdx) (j : NodeIdx) :
    ({ t with node := t.node.map (fun n => { n with v := false }), heap := h } : TreeBuilder).nodeAt j
      = { t.nodeAt j with v := false } := by
  unfold TreeBuilder.nodeAt
  by_cases hj : j.toNat < 511
  · simp [hj]
  · simp [hj, Node.blank]

theorem TreeBuilder.setNode_node_congr {t u : TreeBuilder} (h : t.node = u.node) (j : NodeIdx) (n : Node) :
    (t.setNode j n).node = (u.setNode j n).node := by
  unfold TreeBuilder.setNode; split <;> simp [h]

/-! ### The micro-steps -/

/-- What `B_MERGE` (R126) does while the pool holds more than one node: two nodes leave the pool, the entry `next`
is written with their sum, and `next` enters the pool. -/
theorem bMerge_spec (c : Config) {next : NodeIdx} (t : TreeBuilder) (hp : 1 < t.heap.length) :
    ∃ x y rest, t.heap.Perm (x :: y :: rest) ∧
      x = (heapExtract (t.before c) t.heap).1 ∧
      y = (heapExtract (t.before c) (heapExtract (t.before c) t.heap).2).1 ∧
      (heapExtract (t.before c) (heapExtract (t.before c) t.heap).2).2 = rest ∧
      (bMerge c next t).node = (t.setNode next (mergedNode c t x y)).node ∧
      (bMerge c next t).freq = t.freq ∧
      (bMerge c next t).heap =
        heapInsert ((t.setNode next (mergedNode c t x y)).before c) rest next ∧
      (bMerge c next t).heap.Perm (next :: rest) := by
  have hne : t.heap ≠ [] := by rintro h; simp [h] at hp
  have p1 := heapExtract_perm (t.before c) hne
  have hlen := p1.length_eq
  have hne2 : (heapExtract (t.before c) t.heap).2 ≠ [] := by
    intro h; rw [h] at hlen; simp at hlen; omega
  have p2 := heapExtract_perm (t.before c) hne2
  refine ⟨_, _, _, p1.symm.trans (p2.symm.cons _), rfl, rfl, rfl, ?_, ?_, ?_, ?_⟩
  · exact @TreeBuilder.setNode_node_congr (poolTake c (poolTake c t).2).2 t rfl next _
  · exact TreeBuilder.setNode_freq ..
  · simp only [bMerge, TreeBuilder.setNode_heap]
    exact congrArg (heapInsert · _ next) (TreeBuilder.before_congr
      (@TreeBuilder.setNode_node_congr (poolTake c (poolTake c t).2).2 t rfl next _) c)
  · exact (heapInsert_perm _ _ _).trans (.of_eq (congrArg _ (TreeBuilder.setNode_heap ..)))

end Sys2Proof.Machine
end

