-- ==== Sys2Proof/Laws/Decoder.lean ====
section
/-! SUPPORT. All that the micro-steps of the Decoder can do (R222, R224), and what its two searches of the Code Table
find. -/

namespace Sys2Proof.Machine

/-- A Symbol that the search for a complete code finds has that code. -/
theorem symbolOf_some {g : CodeTable} {c : BitString} {x : Symbol} (h : g.symbolOf c = some x) :
    (g.entry x).v = true ∧ (g.entry x).code = c := by
  simp only [CodeTable.symbolOf, Option.map_eq_some_iff] at h
  obtain ⟨k, hk, rfl⟩ := h
  obtain ⟨hl, hp, -⟩ := List.findIdx?_eq_some_iff_getElem.1 hk
  rw [g.ct.size] at hl
  have e : g.entry (BitVec.ofNat 8 k) = g.ct.cells[k] := by
    simp [CodeTable.entry, RegFile.get, Nat.mod_eq_of_lt hl]
  rw [e]
  simpa using hp

/-- No Symbol is found exactly when no live entry has that code. -/
theorem symbolOf_none {g : CodeTable} {c : BitString} :
    g.symbolOf c = none ↔ ∀ x, (g.entry x).v = true → (g.entry x).code ≠ c := by
  simp only [CodeTable.symbolOf, Option.map_eq_none_iff, List.findIdx?_eq_none_iff, Bool.and_eq_false_iff,
    RegFile.mem_cells]
  constructor
  · rintro h x hv rfl
    rcases h (g.entry x) ⟨x.toFin, rfl⟩ with h | h
    · rw [hv] at h; cases h
    · simp at h
  · rintro h e ⟨j, rfl⟩
    rcases hv : (g.ct.get j).v with _ | _
    · exact .inl rfl
    · have hc : (g.ct.get j).code ≠ c := h (BitVec.ofFin j) hv
      exact .inr (beq_eq_false_iff_ne.2 hc)

/-- In a prefix-free table the search finds the one Symbol that has the code (R222). -/
theorem symbolOf_eq {g : CodeTable} (hp : PrefixFree g) {x : Symbol} (hv : (g.entry x).v = true) :
    g.symbolOf (g.entry x).code = some x := by
  rcases h : g.symbolOf (g.entry x).code with _ | y
  · exact absurd rfl (symbolOf_none.1 h x hv)
  · obtain ⟨yv, yc⟩ := symbolOf_some h
    by_cases hxy : x = y
    · rw [hxy]
    · exact absurd (yc ▸ List.prefix_rfl) (hp x y hxy hv yv)

/-- The second search: some live code has `c` as a proper prefix. -/
theorem extendable_iff {g : CodeTable} {c : BitString} :
    g.extendable c = true ↔ ∃ x, (g.entry x).v = true ∧ c <+: (g.entry x).code ∧ c ≠ (g.entry x).code := by
  have key : ∀ e : CodeEntry, (e.v && (c.isPrefixOf e.code && decide (c.length < e.code.length))) = true ↔
      e.v = true ∧ c <+: e.code ∧ c ≠ e.code := by
    intro e
    simp only [Bool.and_eq_true, List.isPrefixOf_iff_prefix, decide_eq_true_eq]
    refine and_congr_right fun _ => and_congr_right fun h => ⟨fun hl he => ?_, fun hne => ?_⟩
    · rw [← he] at hl; exact lt_irrefl _ hl
    · exact Nat.lt_of_le_of_ne h.length_le (fun hl => hne (h.eq_of_length hl))
  simp only [CodeTable.extendable, List.any_eq_true, key, RegFile.mem_cells]
  constructor
  · rintro ⟨e, ⟨j, rfl⟩, h⟩
    exact ⟨BitVec.ofFin j, h⟩
  · rintro ⟨x, h⟩
    exact ⟨_, ⟨x.toFin, rfl⟩, h⟩

/-- `OCNT` does not wrap at a byte that has room (R12 (e)). -/
theorem ocnt_succ {c : Config} {w : BitVec 33} (h : w.toNat < c.omemBytes.val) : (w + 1#33).toNat = w.toNat + 1 := by
  have := c.omemBytes.isLt
  rw [BitVec.toNat_add]
  simp
  omega

/-- All that `D_STEP` can do (R222). -/
theorem dStep_cases (c : Config) (g : CodeTable) (d : Decoder) (b : Bool) :
    (∃ x, g.symbolOf (d.dcand ++ [b]) = some x ∧
      ((d.ocnt.toNat = c.omemBytes.val ∧ dStep c g d b = .error (.raise .ovf)) ∨
       (d.ocnt.toNat < c.omemBytes.val ∧
         dStep c g d b = .ok { d with omem := d.omem.write d.ocnt.toNat x, ocnt := d.ocnt + 1#33, dcand := [] }) ∨
       (c.omemBytes.val < d.ocnt.toNat ∧ dStep c g d b = .error (.broken .noSuchByte)))) ∨
    (g.symbolOf (d.dcand ++ [b]) = none ∧ g.extendable (d.dcand ++ [b]) = true ∧
      dStep c g d b = .ok { d with dcand := d.dcand ++ [b] }) ∨
    (g.symbolOf (d.dcand ++ [b]) = none ∧ g.extendable (d.dcand ++ [b]) = false ∧
      dStep c g d b = .error (.raise .trunc)) := by
  unfold dStep
  rcases h : g.symbolOf (d.dcand ++ [b]) with _ | x
  · right
    cases he : g.extendable (d.dcand ++ [b])
    · exact .inr ⟨rfl, rfl, by simp [raise]⟩
    · exact .inl ⟨rfl, rfl, by simp⟩
  · refine .inl ⟨x, rfl, ?_⟩
    rcases Nat.lt_trichotomy d.ocnt.toNat c.omemBytes.val with hl | hl | hl
    · exact .inr (.inl ⟨hl, by simp [Nat.ne_of_lt hl, storeByte_ok hl]⟩)
    · exact .inl ⟨hl, by simp [hl, raise]⟩
    · refine .inr (.inr ⟨hl, ?_⟩)
      simp [Nat.ne_of_gt hl, storeByte, Nat.not_lt.2 (Nat.le_of_lt hl)]

/-- All that `D_FINISH` can do (R224). -/
theorem dFinish_cases (d : Decoder) :
    (d.dcand = [] ∧ dFinish d = .ok { d with dstate := .done }) ∨
    (d.dcand ≠ [] ∧ dFinish d = .error (.raise .trunc)) := by
  unfold dFinish
  by_cases h : d.dcand = []
  · exact .inl ⟨h, by simp [h]⟩
  · exact .inr ⟨h, by simp [h, raise]⟩

end Sys2Proof.Machine
end

