-- ==== Sys2Proof/Laws/Unpack.lean ====
section
/-! SUPPORT. All that the micro-step of the Bit Unpacker can do (R201), for one bit and for the bits of a byte. -/

namespace Sys2Proof.Machine

/-- `s` after the bits `bs` have left on `UB` (R201). -/
def State.emitted (s : State) (bs : BitString) : State :=
  { s with unpack := { s.unpack with ubitcnt := s.unpack.ubitcnt + BitVec.ofNat 64 bs.length },
           port := { s.port with ub := s.port.ub ++ bs } }

@[simp] theorem State.emitted_cfg (s : State) (bs : BitString) : (s.emitted bs).cfg = s.cfg := rfl
@[simp] theorem State.emitted_tree (s : State) (bs : BitString) : (s.emitted bs).tree = s.tree := rfl
@[simp] theorem State.emitted_table (s : State) (bs : BitString) : (s.emitted bs).table = s.table := rfl
@[simp] theorem State.emitted_pack (s : State) (bs : BitString) : (s.emitted bs).pack = s.pack := rfl
@[simp] theorem State.emitted_dec (s : State) (bs : BitString) : (s.emitted bs).dec = s.dec := rfl
@[simp] theorem State.emitted_flt (s : State) (bs : BitString) : (s.emitted bs).flt = s.flt := rfl

theorem State.emitted_nil (s : State) : s.emitted [] = s := by simp [State.emitted]

theorem State.emitted_cons (s : State) (b : Bool) (bs : BitString) :
    s.emitted (b :: bs) = (s.emit b).emitted bs := by
  simp only [State.emitted, State.emit, List.length_cons, List.append_assoc, List.singleton_append]
  congr 2
  rw [BitVec.add_assoc, Nat.add_comm, BitVec.ofNat_add]

/-- `D_STEP` of each bit in order: what a mode-1 release does to the decoder. -/
def dStepAll (c : Config) (g : CodeTable) (d : Decoder) : BitString → Except Stop Decoder
  | [] => .ok d
  | b :: bs =>
    match dStep c g d b with
    | .error e => .error e
    | .ok d => dStepAll c g d bs

theorem uEmit_mode0 {s : State} (h : s.unpack.umode = false) (b : Bool) : uEmit s b = .ok (s.emit b) := by
  simp [uEmit, h]

theorem uEmit_mode1_ok {s : State} {d : Decoder} {b : Bool} (h : s.unpack.umode = true)
    (hd : dStep s.cfg s.table s.dec b = .ok d) : uEmit s b = .ok { s.emit b with dec := d } := by
  simp [uEmit, h, hd]

theorem uEmit_mode1_error {s : State} {e : Stop} {b : Bool} (h : s.unpack.umode = true)
    (hd : dStep s.cfg s.table s.dec b = .error e) : uEmit s b = .error e := by
  simp [uEmit, h, hd]

/-- In mode 0 a release only emits. -/
theorem uEmitAll_mode0 {s : State} (h : s.unpack.umode = false) (bs : BitString) :
    uEmitAll s bs = .ok (s.emitted bs) := by
  induction bs generalizing s with
  | nil => rw [State.emitted_nil]; rfl
  | cons b bs ih =>
    rw [State.emitted_cons, ← ih (s := s.emit b) h]
    simp [uEmitAll, uEmit_mode0 h]

/-- In mode 1 a release emits what it gives the decoder, unless the decoder stops it. -/
theorem uEmitAll_mode1 {s : State} (h : s.unpack.umode = true) (bs : BitString) :
    uEmitAll s bs = (dStepAll s.cfg s.table s.dec bs).map (fun d => { s.emitted bs with dec := d }) := by
  induction bs generalizing s with
  | nil => rw [State.emitted_nil]; rfl
  | cons b bs ih =>
    rcases hd : dStep s.cfg s.table s.dec b with e | d
    · simp [uEmitAll, dStepAll, uEmit_mode1_error h hd, hd, Except.map]
    · simp only [uEmitAll, dStepAll, uEmit_mode1_ok h hd, hd]
      rw [ih (s := { s.emit b with dec := d }) h, State.emitted_cons]
      rfl

/-- All that the end of a payload can do (R203). -/
theorem endPayload_cases (s : State) :
    (s.unpack.umode = false ∧ endPayload s = .ok { s with unpack := { s.unpack with ustate := .done } }) ∨
    (s.unpack.umode = true ∧ s.dec.dcand = [] ∧
      endPayload s = .ok { s with unpack := { s.unpack with ustate := .done }, dec := { s.dec with dstate := .done } }) ∨
    (s.unpack.umode = true ∧ s.dec.dcand ≠ [] ∧ endPayload s = .error (.raise .trunc)) := by
  unfold endPayload
  cases hm : s.unpack.umode
  · exact .inl ⟨rfl, by simp [hm]⟩
  · rcases dFinish_cases s.dec with ⟨h, e⟩ | ⟨h, e⟩
    · exact .inr (.inl ⟨rfl, h, by simp [hm, e]⟩)
    · exact .inr (.inr ⟨rfl, h, by simp [hm, e]⟩)

/-- What `UEND` releases, by the state it finds (R203). -/
theorem releaseLast_cases (s : State) :
    (s.unpack.ustate ≠ .data ∧ releaseLast s = .ok s) ∨
    (s.unpack.ustate = .data ∧ s.unpack.uholdv = false ∧ s.unpack.upad = 0#3 ∧ releaseLast s = .ok s) ∨
    (s.unpack.ustate = .data ∧ s.unpack.uholdv = false ∧ s.unpack.upad ≠ 0#3 ∧
      releaseLast s = .error (.raise .pad)) ∨
    (s.unpack.ustate = .data ∧ s.unpack.uholdv = true ∧
      releaseLast s = (uEmitAll s ((byteBits s.unpack.uhold).take (8 - s.unpack.upad.toNat))).map
        (fun t => { t with unpack := { t.unpack with uholdv := false } })) := by
  unfold releaseLast
  by_cases hd : s.unpack.ustate = .data
  · cases hv : s.unpack.uholdv
    · by_cases hp : s.unpack.upad = 0#3
      · exact .inr (.inl ⟨hd, rfl, hp, by simp [hd, hp]⟩)
      · exact .inr (.inr (.inl ⟨hd, rfl, hp, by simp [hd, hp, raise]⟩))
    · refine .inr (.inr (.inr ⟨hd, rfl, ?_⟩))
      rcases h : uEmitAll s ((byteBits s.unpack.uhold).take (8 - s.unpack.upad.toNat)) with e | t <;>
        simp [hd, Except.map]
  · exact .inl ⟨hd, by simp [hd]⟩

/-- A data byte releases the byte held before it, if there is one (R202). -/
theorem takeData_eq (v : Byte) (s : State) :
    takeData v s = (uEmitAll s (if s.unpack.uholdv then byteBits s.unpack.uhold else [])).map (fun t => t.hold v) := by
  unfold takeData
  rcases uEmitAll s (if s.unpack.uholdv then byteBits s.unpack.uhold else []) with e | t <;> rfl

end Sys2Proof.Machine
end

