-- ==== Sys2Proof/Laws/Commands.lean ====
section
/-! SUPPORT. What holds of every command at once: each is a rule under the order of checks of R254, except the three
that a faulted engine executes. -/

namespace Sys2Proof.Machine

/-- Every command but `NOP`, `CLR`, `RDSR` is a rule under `command`, with its own word (R253, R254). -/
theorem exec_command {i : Instr} (h : runsWhileFaulted i = false) :
    ∃ body, ∀ s, exec i s = command (encode i) body s := by
  cases i with
  | nop | clr | rdsr => simp [runsWhileFaulted] at h
  | fclr => exact ⟨_, fun s => by simp only [exec]; unfold execFclr; rfl⟩
  | ldf => exact ⟨_, fun s => by simp only [exec]; unfold execLdf; rfl⟩
  | rdf => exact ⟨_, fun s => by simp only [exec]; unfold execRdf; rfl⟩
  | build => exact ⟨_, fun s => by simp only [exec]; unfold execBuild; rfl⟩
  | rdn => exact ⟨_, fun s => by simp only [exec]; unfold execRdn; rfl⟩
  | rdnf => exact ⟨_, fun s => by simp only [exec]; unfold execRdnf; rfl⟩
  | gen => exact ⟨_, fun s => by simp only [exec]; unfold execGen; rfl⟩
  | rdcl => exact ⟨_, fun s => by simp only [exec]; unfold execRdcl; rfl⟩
  | rdcw => exact ⟨_, fun s => by simp only [exec]; unfold execRdcw; rfl⟩
  | tclr => exact ⟨_, fun s => by simp only [exec]; unfold execTclr; rfl⟩
  | tsym => exact ⟨_, fun s => by simp only [exec]; unfold execTsym; rfl⟩
  | tbit => exact ⟨_, fun s => by simp only [exec]; unfold execTbit; rfl⟩
  | tend => exact ⟨_, fun s => by simp only [exec]; unfold execTend; rfl⟩
  | tchk => exact ⟨_, fun s => by simp only [exec]; unfold execTchk; rfl⟩
  | pinit => exact ⟨_, fun s => by simp only [exec]; unfold execPinit; rfl⟩
  | pbit => exact ⟨_, fun s => by simp only [exec]; unfold execPbit; rfl⟩
  | enc => exact ⟨_, fun s => by simp only [exec]; unfold execEnc; rfl⟩
  | pflush => exact ⟨_, fun s => by simp only [exec]; unfold execPflush; rfl⟩
  | rdp => exact ⟨_, fun s => by simp only [exec]; unfold execRdp; rfl⟩
  | uinit => exact ⟨_, fun s => by simp only [exec]; unfold execUinit; rfl⟩
  | ubyte => exact ⟨_, fun s => by simp only [exec]; unfold execUbyte; rfl⟩
  | uend => exact ⟨_, fun s => by simp only [exec]; unfold execUend; rfl⟩
  | dinit => exact ⟨_, fun s => by simp only [exec]; unfold execDinit; rfl⟩
  | dbit => exact ⟨_, fun s => by simp only [exec]; unfold execDbit; rfl⟩
  | dend => exact ⟨_, fun s => by simp only [exec]; unfold execDend; rfl⟩
  | rdo => exact ⟨_, fun s => by simp only [exec]; unfold execRdo; rfl⟩

/-- `RDSR n` on an implemented register, faulted or not (R242). -/
theorem exec_rdsr {n : BitVec 8} {s : State} {d : Data} (h : s.statusReg n = some d) :
    exec (.rdsr n) s = .next (s.respond .ok d) := by
  simp [exec, execRdsr, h]

/-- `RDSR n` on a number that is no register (R96, R242). -/
theorem exec_rdsr_illegal {n : BitVec 8} {s : State} (h : s.statusReg n = none) :
    exec (.rdsr n) s = .next (s.illegalWord (encode (.rdsr n))) := by
  simp [exec, execRdsr, h]

/-- The implemented status registers are 0 to 11 (R46). -/
theorem statusReg_isSome (s : State) (n : BitVec 8) : (s.statusReg n).isSome = decide (n.toNat < 12) := by
  unfold State.statusReg
  split <;> simp_all
  omega

end Sys2Proof.Machine
end

