-- ==== Sys2Proof/Laws/Decode.lean ====
section
/-! SUPPORT. The fields of a packed word and the masks of the formats (R90, R91). -/

namespace Sys2Proof

@[simp] theorem opcOf_packWord (o a : BitVec 8) (b : BitVec 32) : opcOf (packWord o a b) = o := by
  apply BitVec.eq_of_getLsbD_eq
  intro i hi
  simp only [opcOf, packWord, BitVec.getLsbD_extractLsb', BitVec.getLsbD_append]
  simp [hi, show ¬ 40 + i < 32 by omega, show ¬ 40 + i - 32 < 8 by omega, show 40 + i - 32 - 8 = i by omega]

@[simp] theorem fieldA_packWord (o a : BitVec 8) (b : BitVec 32) : fieldA (packWord o a b) = a := by
  apply BitVec.eq_of_getLsbD_eq
  intro i hi
  simp only [fieldA, packWord, BitVec.getLsbD_extractLsb', BitVec.getLsbD_append]
  simp [hi, show ¬ 32 + i < 32 by omega]

/-- A bit below 32 of a packed word is a bit of `B`. -/
theorem getLsbD_packWord_low (o a : BitVec 8) (b : BitVec 32) {i : Nat} (h : i < 32) :
    (packWord o a b).getLsbD i = b.getLsbD i := by
  simp only [packWord, BitVec.getLsbD_append]
  simp [h]

@[simp] theorem fieldB_packWord (o a : BitVec 8) (b : BitVec 32) : fieldB (packWord o a b) = b := by
  apply BitVec.eq_of_getLsbD_eq
  intro i hi
  simp [fieldB, hi, getLsbD_packWord_low]

@[simp] theorem fieldI_packWord (o a : BitVec 8) (j : NodeIdx) : fieldI (packWord o a (j.setWidth 32)) = j := by
  apply BitVec.eq_of_getLsbD_eq
  intro i hi
  simp [fieldI, hi, getLsbD_packWord_low _ _ _ (show i < 32 by omega)]
  omega

@[simp] theorem fieldW_packWord (o a : BitVec 8) (w : BitVec 2) : fieldW (packWord o a (w.setWidth 32)) = w := by
  apply BitVec.eq_of_getLsbD_eq
  intro i hi
  simp [fieldW, hi, getLsbD_packWord_low _ _ _ (show i < 32 by omega)]
  omega

@[simp] theorem fieldBit_packWord (o a : BitVec 8) (b : Bool) : fieldBit (packWord o a (bitField b)) = b := by
  simp only [fieldBit]
  rw [getLsbD_packWord_low _ _ _ (by decide)]
  cases b <;> decide

/-- Masking works field by field. -/
theorem packWord_and (o a o' a' : BitVec 8) (b b' : BitVec 32) :
    packWord o a b &&& packWord o' a' b' = packWord (o &&& o') (a &&& a') (b &&& b') := by
  simp only [packWord]
  rw [BitVec.and_append, BitVec.and_append]

theorem packWord_zero (o : BitVec 8) : packWord o 0#8 0#32 = o ++ 0#40 := by
  apply BitVec.eq_of_getLsbD_eq
  intro i hi
  simp only [packWord, BitVec.getLsbD_append]
  grind

theorem and_ff (o : BitVec 8) : o &&& 0xFF#8 = o := by simpa using BitVec.and_allOnes (x := o)

/-! ### The mask of a format leaves the opcode and clears the operands (R91) -/

theorem masked_Z (o : BitVec 8) : packWord o 0#8 0#32 &&& Format.mask .Z = packWord o 0#8 0#32 :=
  (packWord_and o 0#8 0xFF#8 0xFF#8 0#32 0xFFFFFFFF#32).trans (by simp [and_ff])

theorem masked_A (o a : BitVec 8) : packWord o a 0#32 &&& Format.mask .A = packWord o 0#8 0#32 :=
  (packWord_and o a 0xFF#8 0x00#8 0#32 0xFFFFFFFF#32).trans (by simp [and_ff])

theorem masked_B32 (o : BitVec 8) (b : BitVec 32) :
    packWord o 0#8 b &&& Format.mask .B32 = packWord o 0#8 0#32 :=
  (packWord_and o 0#8 0xFF#8 0xFF#8 b 0x00000000#32).trans (by simp [and_ff])

theorem masked_AB32 (o a : BitVec 8) (b : BitVec 32) :
    packWord o a b &&& Format.mask .AB32 = packWord o 0#8 0#32 :=
  (packWord_and o a 0xFF#8 0x00#8 b 0x00000000#32).trans (by simp [and_ff])

theorem masked_B1 (o : BitVec 8) (b : Bool) :
    packWord o 0#8 (bitField b) &&& Format.mask .B1 = packWord o 0#8 0#32 := by
  have h : bitField b &&& 0xFFFFFFFE#32 = 0#32 := by cases b <;> rfl
  exact (packWord_and o 0#8 0xFF#8 0xFF#8 (bitField b) 0xFFFFFFFE#32).trans (by simp [and_ff, h])

theorem masked_B9 (o : BitVec 8) (j : NodeIdx) :
    packWord o 0#8 (j.setWidth 32) &&& Format.mask .B9 = packWord o 0#8 0#32 := by
  have h : j.setWidth 32 &&& 0xFFFFFE00#32 = 0#32 := by
    apply BitVec.eq_of_getLsbD_eq
    intro i hi
    by_cases h9 : i < 9
    · have : (0xFFFFFE00#32).getLsbD i = false := by interval_cases i <;> rfl
      simp [this]
    · simp [BitVec.getLsbD_of_ge j i (by omega)]
  exact (packWord_and o 0#8 0xFF#8 0xFF#8 (j.setWidth 32) 0xFFFFFE00#32).trans (by simp [and_ff, h])

theorem masked_AB2 (o a : BitVec 8) (w : BitVec 2) :
    packWord o a (w.setWidth 32) &&& Format.mask .AB2 = packWord o 0#8 0#32 := by
  have h : w.setWidth 32 &&& 0xFFFFFFFC#32 = 0#32 := by
    apply BitVec.eq_of_getLsbD_eq
    intro i hi
    by_cases h2 : i < 2
    · have : (0xFFFFFFFC#32).getLsbD i = false := by interval_cases i <;> rfl
      simp [this]
    · simp [BitVec.getLsbD_of_ge w i (by omega)]
  exact (packWord_and o a 0xFF#8 0x00#8 (w.setWidth 32) 0xFFFFFFFC#32).trans (by simp [and_ff, h])

/-- A word is its three fields. -/
theorem packWord_fields (w : CmdWord) : packWord (opcOf w) (fieldA w) (fieldB w) = w := by
  apply BitVec.eq_of_getLsbD_eq
  intro i hi
  simp only [packWord, opcOf, fieldA, fieldB, BitVec.getLsbD_append, BitVec.getLsbD_extractLsb']
  split
  · simp [*]
  · split
    · simp [*, show 32 + (i - 32) = i by omega]
    · simp [show i - 32 - 8 < 8 by omega, show 40 + (i - 32 - 8) = i by omega]

end Sys2Proof
end

