-- ==== Sys2Proof/Laws/PerInstr.lean ====
section
/-! SUPPORT. The family `InRow`: the word that `encode` writes for a command lies in that command's row of the
opcode map (R95), with every reserved bit 0 (R91), and the row's operand fields give the command back (R92). One
lemma per constructor. -/

namespace Sys2Proof.Laws.InRow

/-- The row of `encode i` gives `i` back. -/
def Statement (i : Instr) : Prop :=
  ∃ r, opcodeTable.find? (fun r => r.opcode == opcOf (encode i)) = some r ∧
    encode i &&& r.format.mask = r.matchWord ∧ r.operands (encode i) = i

/-- How each lemma below is proved: the row is found by its opcode, and the masked word is the row's `match`. -/
theorem of_row {i : Instr} {o a : BitVec 8} {b : BitVec 32} {r : OpRow} (he : encode i = packWord o a b)
    (hf : opcodeTable.find? (fun r => r.opcode == o) = some r)
    (hm : packWord o a b &&& r.format.mask = packWord o 0#8 0#32) (hr : o = r.opcode)
    (ho : r.operands (packWord o a b) = i) : Statement i := by
  refine ⟨r, ?_, ?_, ?_⟩
  · rw [he, opcOf_packWord]; exact hf
  · rw [he, hm, packWord_zero, hr]; rfl
  · rw [he]; exact ho

theorem nop : Statement .nop :=
  of_row rfl rfl (masked_Z ..) rfl rfl

theorem clr : Statement .clr :=
  of_row rfl rfl (masked_Z ..) rfl rfl

theorem rdsr (n : BitVec 8) : Statement (.rdsr n) :=
  of_row rfl rfl (masked_A ..) rfl (by simp)

theorem fclr : Statement .fclr :=
  of_row rfl rfl (masked_Z ..) rfl rfl

theorem ldf (x : Symbol) (n : Count) : Statement (.ldf x n) :=
  of_row rfl rfl (masked_AB32 ..) rfl (by simp)

theorem rdf (x : Symbol) : Statement (.rdf x) :=
  of_row rfl rfl (masked_A ..) rfl (by simp)

theorem build : Statement .build :=
  of_row rfl rfl (masked_Z ..) rfl rfl

theorem rdn (j : NodeIdx) : Statement (.rdn j) :=
  of_row rfl rfl (masked_B9 ..) rfl (by simp)

theorem rdnf (j : NodeIdx) : Statement (.rdnf j) :=
  of_row rfl rfl (masked_B9 ..) rfl (by simp)

theorem gen : Statement .gen :=
  of_row rfl rfl (masked_Z ..) rfl rfl

theorem rdcl (x : Symbol) : Statement (.rdcl x) :=
  of_row rfl rfl (masked_A ..) rfl (by simp)

theorem rdcw (x : Symbol) (w : BitVec 2) : Statement (.rdcw x w) :=
  of_row rfl rfl (masked_AB2 ..) rfl (by simp)

theorem tclr : Statement .tclr :=
  of_row rfl rfl (masked_Z ..) rfl rfl

theorem tsym (x : Symbol) : Statement (.tsym x) :=
  of_row rfl rfl (masked_A ..) rfl (by simp)

theorem tbit (b : Bool) : Statement (.tbit b) :=
  of_row rfl rfl (masked_B1 ..) rfl (by simp)

theorem tend : Statement .tend :=
  of_row rfl rfl (masked_Z ..) rfl rfl

theorem tchk : Statement .tchk :=
  of_row rfl rfl (masked_Z ..) rfl rfl

theorem pinit : Statement .pinit :=
  of_row rfl rfl (masked_Z ..) rfl rfl

theorem pbit (b : Bool) : Statement (.pbit b) :=
  of_row rfl rfl (masked_B1 ..) rfl (by simp)

theorem enc (x : Symbol) : Statement (.enc x) :=
  of_row rfl rfl (masked_A ..) rfl (by simp)

theorem pflush : Statement .pflush :=
  of_row rfl rfl (masked_Z ..) rfl rfl

theorem rdp (a : BitVec 32) : Statement (.rdp a) :=
  of_row rfl rfl (masked_B32 ..) rfl (by simp)

theorem uinit (m : Bool) : Statement (.uinit m) :=
  of_row rfl rfl (masked_B1 ..) rfl (by simp)

theorem ubyte (v : Byte) : Statement (.ubyte v) :=
  of_row rfl rfl (masked_A ..) rfl (by simp)

theorem uend : Statement .uend :=
  of_row rfl rfl (masked_Z ..) rfl rfl

theorem dinit : Statement .dinit :=
  of_row rfl rfl (masked_Z ..) rfl rfl

theorem dbit (b : Bool) : Statement (.dbit b) :=
  of_row rfl rfl (masked_B1 ..) rfl (by simp)

theorem dend : Statement .dend :=
  of_row rfl rfl (masked_Z ..) rfl rfl

theorem rdo (a : BitVec 32) : Statement (.rdo a) :=
  of_row rfl rfl (masked_B32 ..) rfl (by simp)

end Sys2Proof.Laws.InRow
end

