-- ==== Sys2Proof/Tests/Slice0.lean ====
section
/-! SUPPORT. The model's own tests. Expected results are those of 95_test_vectors.md (the V and P numbers in the
comments); a vector with no number here is worked out by hand from the cited rule. Then a witness for the
hypotheses of each statement of Obligations.lean. -/

namespace Sys2Proof.Tests

open Sys2Proof.Machine

-- One theorem after another: each one's kernel evaluation would else take a thread of its own.
set_option Elab.async false

/-! ### Helpers -/

/-- Words sent and executed one after another; stops where the model stops. -/
def feed : List CmdWord → State → State
  | [], s => s
  | w :: ws, s =>
    match step (s.placeWord w) with
    | .next t => feed ws t
    | _ => s

def sent (ws : List CmdWord) : State := feed ws State.reset

def sentIn (c : Config) (ws : List CmdWord) : State := feed ws { State.reset with cfg := c }

/-- The last response. -/
def answer (s : State) : Option Rsp := s.port.rsps.getLast?

/-- `OK d`. -/
def okay (d : Data) : Option Rsp := some ⟨.ok, d⟩

/-- A fault response. -/
def fails (e : ErrCode) : Option Rsp := some ⟨.fault e, 0#64⟩

/-- `PMEM_BYTES = OMEM_BYTES = 2`. -/
def small : Config := { Config.standard with pmemLast := 1, omemBytes := 2 }

/-! ### Well-formedness: the one check, and an ill-formed term for it -/

theorem test_rdsr_12_is_ill_formed : (Instr.rdsr 12#8).wellFormed = false := by decide
theorem test_rdsr_11_is_well_formed : (Instr.rdsr 11#8).wellFormed = true := by decide
theorem test_rdsr_12_word_is_rejected : decode 0x020C00000000#48 = .error .noSuchStatusRegister := by decide

/-! ### Decoding: each row of R95, its word written out from the format (R91) -/

theorem test_decode_control :
    decode 0x000000000000#48 = .ok .nop ∧ decode 0x010000000000#48 = .ok .clr ∧
    decode 0x020B00000000#48 = .ok (.rdsr 11#8) := by decide

theorem test_decode_tree :
    decode 0x100000000000#48 = .ok .fclr ∧ decode 0x116100000005#48 = .ok (.ldf 0x61#8 5#32) ∧
    decode 0x126100000000#48 = .ok (.rdf 0x61#8) ∧ decode 0x130000000000#48 = .ok .build ∧
    decode 0x1400000001FF#48 = .ok (.rdn 511#9) ∧ decode 0x150000000101#48 = .ok (.rdnf 257#9) := by decide

theorem test_decode_table :
    decode 0x200000000000#48 = .ok .gen ∧ decode 0x216200000000#48 = .ok (.rdcl 0x62#8) ∧
    decode 0x226200000003#48 = .ok (.rdcw 0x62#8 3#2) ∧ decode 0x230000000000#48 = .ok .tclr ∧
    decode 0x246100000000#48 = .ok (.tsym 0x61#8) ∧ decode 0x250000000001#48 = .ok (.tbit true) ∧
    decode 0x260000000000#48 = .ok .tend ∧ decode 0x270000000000#48 = .ok .tchk := by decide

theorem test_decode_packer :
    decode 0x300000000000#48 = .ok .pinit ∧ decode 0x310000000001#48 = .ok (.pbit true) ∧
    decode 0x327A00000000#48 = .ok (.enc 0x7A#8) ∧ decode 0x330000000000#48 = .ok .pflush ∧
    decode 0x34FFFFFFFFFF#48 = .error .reservedBit ∧ decode 0x3400FFFFFFFF#48 = .ok (.rdp 0xFFFFFFFF#32) := by decide

theorem test_decode_unpacker :
    decode 0x400000000001#48 = .ok (.uinit true) ∧ decode 0x419B00000000#48 = .ok (.ubyte 0x9B#8) ∧
    decode 0x420000000000#48 = .ok .uend := by decide

theorem test_decode_decoder :
    decode 0x430000000000#48 = .ok .dinit ∧ decode 0x440000000001#48 = .ok (.dbit true) ∧
    decode 0x450000000000#48 = .ok .dend ∧ decode 0x46000000000A#48 = .ok (.rdo 10#32) := by decide

/-- V6 to V9b. -/
theorem test_decode_illegal :
    decode 0x310000000002#48 = .error .reservedBit ∧ decode 0x030000000000#48 = .error .unusedOpcode ∧
    decode 0xFF0000000000#48 = .error .unusedOpcode ∧ decode 0x470000000000#48 = .error .unusedOpcode ∧
    decode 0x000000000001#48 = .error .reservedBit ∧ decode 0x140000000200#48 = .error .reservedBit ∧
    decode 0x220000000004#48 = .error .reservedBit ∧ decode 0x346100000000#48 = .error .reservedBit := by decide

/-- The word the host numbers is the word the engine takes. -/
theorem test_table_word_is_fetched :
    decodeTableWord 48 0x116100000005 = some (.ldf 0x61#8 5#32) ∧
    answer (match step (State.reset.withFetchWord 48 0x1400000001FF) with | .next t => t | _ => State.reset)
      = fails .seq := by decide +kernel

/-! ### Control -/

/-- V20c: `NOP` while faulted. -/
theorem test_nop_while_faulted : answer (sent [0x130000000000#48, 0x000000000000#48]) = okay 0#64 := by
  decide +kernel

/-- V20c: `CLR` leaves the faulted state. -/
theorem test_clr_recovers :
    answer (sent [0x130000000000#48, 0x010000000000#48, 0x020000000000#48]) = okay 0#64 := by decide +kernel

/-- V6: the fault registers after an illegal word. -/
theorem test_rdsr_einfo : answer (sent [0x310000000002#48, 0x020200000000#48]) = okay 0x310000000002#64 := by
  decide +kernel

/-- V6. -/
theorem test_rdsr_status : answer (sent [0x310000000002#48, 0x020000000000#48]) = okay 0x400#64 := by
  decide +kernel

/-- V51: an illegal word to a faulted engine is refused, not recorded. -/
theorem test_faulted_refuses :
    answer (sent [0x310000000001#48, 0xFF0000000000#48]) = some ⟨.faulted, 0#64⟩ ∧
    answer (sent [0x310000000001#48, 0xFF0000000000#48, 0x020200000000#48]) = okay 0x310000000001#64 := by
  decide +kernel

/-- The code of a response stands in its bits 71 to 64 (R93). -/
theorem test_response_layout :
    (⟨.ok, 5#64⟩ : Rsp).word = 0x000000000000000005#72 ∧ (⟨.fault .range, 0#64⟩ : Rsp).word = 0x0A0000000000000000#72 ∧
    (⟨.faulted, 0#64⟩ : Rsp).word = 0x0F0000000000000000#72 := by decide

/-! ### Tree Builder -/

/-- `FCLR` clears a count (R120). -/
theorem test_fclr : answer (sent [0x116100000007#48, 0x100000000000#48, 0x126100000000#48]) = okay 0#64 := by
  decide +kernel

/-- V20a: overwrite, not add. -/
theorem test_ldf_overwrites :
    answer (sent [0x116100000005#48, 0x116100000007#48, 0x126100000000#48]) = okay 7#64 := by decide +kernel

/-- V11k: `LDF` clears `TREE_VALID`. -/
theorem test_ldf_invalidates :
    answer (sent [0x116100000001#48, 0x130000000000#48, 0x116100000001#48, 0x020000000000#48]) = okay 0#64 := by
  decide +kernel

/-- V3: the largest Symbol and count. -/
theorem test_rdf_largest : answer (sent [0x11FFFFFFFFFF#48, 0x12FF00000000#48]) = okay 0xFFFFFFFF#64 := by
  decide +kernel

/-- V20d. -/
theorem test_build_empty : answer (sent [0x130000000000#48]) = fails .empty := by decide +kernel

/-- V15: `CHILD` = first removed is right, counts c:1 d:1. -/
theorem test_build_child :
    answer (sentIn { Config.standard with child := .firstIsRight }
      [0x116300000001#48, 0x116400000001#48, 0x130000000000#48, 0x140000000100#48]) = okay 0x8000000000640063#64 := by
  decide +kernel

/-- V15: the larger index first among equal counts, c:1 d:1. -/
theorem test_build_keylt :
    answer (sentIn { Config.standard with ties := [(⟨1#40, 99#9⟩, 1)] }
      [0x116300000001#48, 0x116400000001#48, 0x130000000000#48, 0x140000000100#48]) = okay 0x8000000000640063#64 := by
  decide +kernel

/-- V11. -/
def abcTree : List CmdWord := [0x116100000001#48, 0x116200000001#48, 0x116300000001#48, 0x130000000000#48]

/-- V11c, V11f. -/
theorem test_rdn :
    answer (sent (abcTree ++ [0x140000000101#48])) = okay 0x8000000000630100#64 ∧
    answer (sent (abcTree ++ [0x140000000063#48])) = okay 0xC000000000000000#64 := by decide +kernel

/-- V11h, V11i. -/
theorem test_rdn_no_node :
    answer (sent (abcTree ++ [0x140000000102#48])) = okay 0#64 ∧
    answer (sent (abcTree ++ [0x1400000001FF#48])) = okay 0#64 := by decide +kernel

/-- V17: a frequency of 33 bits. -/
theorem test_rdnf_33_bits :
    answer (sent [0x1100FFFFFFFF#48, 0x11FFFFFFFFFF#48, 0x130000000000#48, 0x150000000100#48])
      = okay 0x1FFFFFFFE#64 := by decide +kernel

/-- V11j, V11d. -/
theorem test_rdnf :
    answer (sent (abcTree ++ [0x150000000061#48])) = okay 1#64 ∧
    answer (sent (abcTree ++ [0x150000000101#48])) = okay 3#64 := by decide +kernel

/-! ### Code Table -/

/-- V29d. -/
theorem test_gen_needs_a_tree : answer (sent [0x200000000000#48]) = fails .seq := by decide +kernel

/-- V21b: `a="10"`, `b="11"`, `c="0"`. -/
theorem test_gen_codes :
    ((sent (abcTree ++ [0x200000000000#48])).table.entry 0x61#8).code = [true, false] ∧
    ((sent (abcTree ++ [0x200000000000#48])).table.entry 0x62#8).code = [true, true] ∧
    ((sent (abcTree ++ [0x200000000000#48])).table.entry 0x63#8).code = [false] := by decide +kernel

/-- V21e: the one-symbol table. -/
theorem test_gen_one_symbol :
    ((sent [0x116100000004#48, 0x130000000000#48, 0x200000000000#48]).table.entry 0x61#8)
      = { v := true, code := [false] } := by decide +kernel

/-- A table with one entry, `y = "1"*255` (V29). -/
def longCode : State :=
  { State.reset with table := { CodeTable.reset.record 0x79#8 (List.replicate 255 true) with nent := 1#9 } }

/-- V29: length 255. -/
theorem test_rdcl_longest : answer (feed [0x217900000000#48] longCode) = okay 0x80000000000000FF#64 := by
  decide +kernel

/-- V29: word 0, and bit 255 of word 3 unused. -/
theorem test_rdcw_longest :
    answer (feed [0x227900000000#48] longCode) = okay 0xFFFFFFFFFFFFFFFF#64 ∧
    answer (feed [0x227900000003#48] longCode) = okay 0xFFFFFFFFFFFFFFFE#64 := by decide +kernel

/-- `TENT 'c',"100"` (V27). -/
def tentC : List CmdWord :=
  [0x246300000000#48, 0x250000000001#48, 0x250000000000#48, 0x250000000000#48, 0x260000000000#48]

/-- `TENT 'a',"0"` (V22). -/
def tentA : List CmdWord := [0x246100000000#48, 0x250000000000#48, 0x260000000000#48]

theorem test_tclr : answer (sent (tentA ++ [0x230000000000#48, 0x216100000000#48])) = okay 0#64 := by decide +kernel

/-- V25. -/
theorem test_tsym_twice : answer (sent (tentA ++ [0x246100000000#48])) = fails .corrupt := by decide +kernel

/-- V29a. -/
theorem test_tsym_open : answer (sent [0x240100000000#48, 0x240200000000#48]) = fails .seq := by decide +kernel

/-- V26: the 256th bit, and V29c. -/
theorem test_tbit_faults :
    answer (feed [0x250000000001#48] { State.reset with
      table := { CodeTable.reset with topen := true, tc := List.replicate 255 true } }) = fails .corrupt ∧
    answer (sent [0x250000000001#48]) = fails .seq := by decide +kernel

/-- V24. -/
theorem test_tend_empty : answer (sent [0x246100000000#48, 0x260000000000#48]) = fails .corrupt := by decide +kernel

/-- V27, R155: the entry `c = "100"`. -/
theorem test_tend_commits :
    answer (sent (tentC ++ [0x226300000000#48])) = okay 0x8000000000000000#64 ∧
    answer (sent (tentC ++ [0x216300000000#48])) = okay 0x8000000000000003#64 := by decide +kernel

/-- V22: `a="0"`, `b="01"`. -/
theorem test_tchk_ambiguous :
    answer (sent (tentA ++ [0x246200000000#48, 0x250000000000#48, 0x250000000001#48, 0x260000000000#48,
      0x270000000000#48])) = fails .ambig := by decide +kernel

/-- V28: the empty table is valid. -/
theorem test_tchk_empty :
    answer (sent [0x230000000000#48, 0x270000000000#48, 0x020000000000#48]) = okay 2#64 := by decide +kernel

/-! ### Bit Packer -/

/-- `PINIT`, `PBITS "10110"`, `PFLUSH` (V30). -/
def packed5 : List CmdWord :=
  [0x300000000000#48, 0x310000000001#48, 0x310000000000#48, 0x310000000001#48, 0x310000000001#48, 0x310000000000#48,
   0x330000000000#48]

/-- P4: an empty payload has one byte. -/
theorem test_pinit :
    answer (sent [0x300000000000#48, 0x330000000000#48, 0x020600000000#48]) = okay 1#64 := by decide +kernel

/-- Eight 1s. -/
def ones8 : List CmdWord := List.replicate 8 0x310000000001#48

/-- V33: a full byte is stored. -/
theorem test_pbit_byte :
    answer (sent (0x300000000000#48 :: ones8 ++ [0x330000000000#48, 0x340000000001#48])) = okay 0xFF#64 := by
  decide +kernel

/-- V37g: no room for the second byte; `PBITCNT = 15` kept. -/
theorem test_pbit_overflow :
    answer (sentIn small (0x300000000000#48 :: ones8 ++ ones8)) = fails .ovf ∧
    answer (sentIn small (0x300000000000#48 :: ones8 ++ ones8 ++ [0x020700000000#48])) = okay 15#64 := by
  decide +kernel

/-- V36b: `abc` packs to `03 B0`. -/
theorem test_enc :
    answer (sent (abcTree ++ [0x200000000000#48, 0x300000000000#48, 0x326100000000#48, 0x326200000000#48,
      0x326300000000#48, 0x330000000000#48, 0x340000000001#48])) = okay 0xB0#64 := by decide +kernel

/-- V37e: no code. -/
theorem test_enc_nocode :
    answer (sent (abcTree ++ [0x200000000000#48, 0x300000000000#48, 0x327A00000000#48])) = fails .nocode := by
  decide +kernel

/-- V30. -/
theorem test_pflush :
    answer (sent packed5) = okay 3#64 ∧ answer (sent (packed5 ++ [0x340000000001#48])) = okay 0xB0#64 := by
  decide +kernel

/-- V37f. -/
theorem test_pflush_overflow :
    answer (sentIn small (0x300000000000#48 :: ones8 ++ [0x310000000000#48, 0x330000000000#48])) = fails .ovf := by
  decide +kernel

/-- V30: byte 0 is the padding count; byte 2 does not exist. -/
theorem test_rdp :
    answer (sent (packed5 ++ [0x340000000000#48])) = okay 3#64 ∧
    answer (sent (packed5 ++ [0x340000000002#48])) = fails .range := by decide +kernel

/-- V37c. -/
theorem test_rdp_not_flushed : answer (sent [0x300000000000#48, 0x340000000000#48]) = fails .seq := by
  decide +kernel

/-! ### Bit Unpacker -/

/-- V41c, V41d. -/
theorem test_uinit :
    answer (sent [0x400000000001#48]) = fails .seq ∧
    answer (sent [0x400000000000#48, 0x420000000000#48, 0x020000000000#48]) = okay 0x60#64 := by decide +kernel

/-- V39c: the held byte is released by the next. -/
theorem test_ubyte :
    (sent [0x400000000000#48, 0x410000000000#48, 0x41A500000000#48, 0x413C00000000#48]).port.ub
      = [true, false, true, false, false, true, false, true] := by decide +kernel

/-- V40, V41b. -/
theorem test_ubyte_faults :
    answer (sent [0x400000000000#48, 0x410800000000#48]) = fails .pad ∧
    answer (sent [0x410000000000#48]) = fails .seq := by decide +kernel

/-- V39a: the dropped bits are not checked. -/
theorem test_uend :
    (sent [0x400000000000#48, 0x410300000000#48, 0x41B700000000#48, 0x420000000000#48]).port.ub
      = [true, false, true, true, false] := by decide +kernel

/-- V41, and P5: a residual candidate undoes the whole command (`a="0"`, `c="100"`, payload `06 80`). -/
theorem test_uend_faults :
    answer (sent [0x400000000000#48, 0x410300000000#48, 0x420000000000#48]) = fails .pad ∧
    answer (sent (tentA ++ tentC ++ [0x270000000000#48, 0x400000000001#48, 0x410600000000#48, 0x418000000000#48,
      0x420000000000#48])) = fails .trunc ∧
    (sent (tentA ++ tentC ++ [0x270000000000#48, 0x400000000001#48, 0x410600000000#48, 0x418000000000#48,
      0x420000000000#48])).port.ub = [] := by decide +kernel

/-! ### Decoder -/

/-- The table of V46, valid. -/
def onlyA : List CmdWord := tentA ++ [0x270000000000#48]

/-- V49b. -/
theorem test_dinit_needs_a_table : answer (sent [0x430000000000#48]) = fails .seq := by decide +kernel

/-- V46. -/
theorem test_dbit :
    (sent (onlyA ++ [0x430000000000#48, 0x440000000000#48])).dec.omem.read 0 = some 0x61#8 ∧
    answer (sent (onlyA ++ [0x430000000000#48, 0x440000000000#48, 0x440000000001#48])) = fails .trunc := by
  decide +kernel

/-- V49: no room for the third byte. -/
theorem test_dbit_overflow :
    answer (sentIn small (onlyA ++ [0x430000000000#48, 0x440000000000#48, 0x440000000000#48, 0x440000000000#48]))
      = fails .ovf := by decide +kernel

/-- V45: a residual candidate, here `"10"` of `c="100"`. -/
theorem test_dend :
    answer (sent (tentC ++ [0x270000000000#48, 0x430000000000#48, 0x440000000001#48, 0x440000000000#48,
      0x450000000000#48])) = fails .trunc ∧
    answer (sent [0x270000000000#48, 0x430000000000#48, 0x450000000000#48]) = okay 0#64 := by decide +kernel

/-- V44, V47a. -/
theorem test_rdo :
    answer (sent (onlyA ++ [0x430000000000#48, 0x440000000000#48, 0x450000000000#48, 0x460000000000#48]))
      = okay 0x61#64 ∧
    answer (sent [0x270000000000#48, 0x430000000000#48, 0x450000000000#48, 0x460000000000#48]) = fails .range := by
  decide +kernel

/-- V49c: `DEND` during a payload, then `UBYTE`. -/
theorem test_ubyte_link_broken :
    answer (sent (onlyA ++ [0x400000000001#48, 0x410000000000#48, 0x450000000000#48, 0x410000000000#48]))
      = fails .seq := by decide +kernel

/-! ### States for the witnesses -/

/-- The next state of an outcome, and whether there is one. -/
def got : Host.Outcome State Fault Refusal → State
  | .next t => t
  | _ => State.reset

def goes : Host.Outcome State Fault Refusal → Bool
  | .next _ => true
  | _ => false

theorem next_of_goes {o : Host.Outcome State Fault Refusal} (h : goes o = true) : o = .next (got o) := by
  cases o with
  | next t => rfl
  | fault f => cases h
  | refused r => cases h

/-- The state after one command. -/
def ran (i : Instr) (s : State) : State := got (exec i s)

/-- A word waiting. -/
def waiting (w : CmdWord) : State := State.reset.placeWord w

/-- `E_EMPTY` recorded. -/
def stuck : State :=
  { State.reset with flt := { err := some .empty, einfo := 0x130000000000#48 }
                     port := { inq := [], rsps := [⟨.fault .empty, 0#64⟩], ub := [] } }

/-- The nodes of the tree of counts 0:1 1:2 (by R124 to R127: 256={3,0,1}). -/
def twoNodes : TreeBuilder :=
  (({ TreeBuilder.reset with freq := ((RegFile.fill 256 0#32).set 0 1#32).set 1 2#32 }.setNode
    0#9 { v := true, f := 1#40, l := 0#9, r := 0#9 }).setNode
    1#9 { v := true, f := 2#40, l := 0#9, r := 0#9 }).setNode
    256#9 { v := true, f := 3#40, l := 0#9, r := 1#9 }

/-- The tree itself: `ROOT` = 256, `NLEAF` = 2. -/
def twoLeaves : TreeBuilder := { twoNodes with treeValid := true, nleaf := 2#9, root := 256#9 }

/-- The node of the tree of the one count 97:4 (V14). -/
def oneNode : TreeBuilder :=
  { TreeBuilder.reset with freq := (RegFile.fill 256 0#32).set 97 4#32 }.setNode
    97#9 { v := true, f := 4#40, l := 0#9, r := 0#9 }

/-- The tree itself. -/
def oneLeaf : TreeBuilder := { oneNode with treeValid := true, nleaf := 1#9, root := 97#9 }

/-- What `BUILD` leaves is `twoLeaves`. -/
theorem test_build_two_leaves :
    (ran .build (ran (.ldf 1#8 2#32) (ran (.ldf 0#8 1#32) State.reset))).tree = twoLeaves := by decide +kernel

/-- What `BUILD` leaves is `oneLeaf` (V14). -/
theorem test_build_one_leaf :
    (ran .build (ran (.ldf 97#8 4#32) State.reset)).tree = oneLeaf := by decide +kernel

theorem blank_nodeAt (f : RegFile 256 Count) (j : NodeIdx) :
    ({ TreeBuilder.reset with freq := f } : TreeBuilder).nodeAt j = .blank := by
  unfold TreeBuilder.nodeAt
  split
  · exact RegFile.get_fill 511 _ _
  · rfl

theorem toFin_eq (x y : Symbol) : @Eq (Fin 256) x.toFin y.toFin ↔ x = y :=
  ⟨BitVec.eq_of_toFin_eq, fun h => h ▸ rfl⟩

theorem twoLeaves_nodeAt (j : NodeIdx) : twoLeaves.nodeAt j =
    if j = 256#9 then { v := true, f := 3#40, l := 0#9, r := 1#9 }
    else if j = 1#9 then { v := true, f := 2#40, l := 0#9, r := 0#9 }
    else if j = 0#9 then { v := true, f := 1#40, l := 0#9, r := 0#9 } else .blank := by
  rw [TreeBuilder.nodeAt_congr (t := twoLeaves) (u := twoNodes) rfl, twoNodes,
    TreeBuilder.nodeAt_setNode _ (by decide), TreeBuilder.nodeAt_setNode _ (by decide),
    TreeBuilder.nodeAt_setNode _ (by decide), blank_nodeAt]

theorem oneLeaf_nodeAt (j : NodeIdx) : oneLeaf.nodeAt j =
    if j = 97#9 then { v := true, f := 4#40, l := 0#9, r := 0#9 } else .blank := by
  rw [TreeBuilder.nodeAt_congr (t := oneLeaf) (u := oneNode) rfl, oneNode,
    TreeBuilder.nodeAt_setNode _ (by decide), blank_nodeAt]

theorem twoLeaves_freqAt (x : Symbol) :
    twoLeaves.freqAt x = if x = 1#8 then 2#32 else if x = 0#8 then 1#32 else 0#32 := by
  show (((RegFile.fill 256 0#32).set (0#8).toFin 1#32).set (1#8).toFin 2#32).get x.toFin = _
  simp only [RegFile.get_set, RegFile.get_fill, toFin_eq]

theorem oneLeaf_freqAt (x : Symbol) : oneLeaf.freqAt x = if x = 97#8 then 4#32 else 0#32 := by
  show ((RegFile.fill 256 0#32).set (97#8).toFin 4#32).get x.toFin = _
  simp only [RegFile.get_set, RegFile.get_fill, toFin_eq]

theorem twoLeaves_live {j : NodeIdx} (h : (twoLeaves.nodeAt j).v = true) : j = 256#9 ∨ j = 1#9 ∨ j = 0#9 := by
  rw [twoLeaves_nodeAt] at h
  split at h
  · exact .inl ‹_›
  · split at h
    · exact .inr (.inl ‹_›)
    · split at h
      · exact .inr (.inr ‹_›)
      · cases h

theorem twoLeaves_child (p n : NodeIdx) : twoLeaves.IsChild p n ↔ p = 256#9 ∧ (n = 0#9 ∨ n = 1#9) := by
  constructor
  · rintro ⟨hp, hv, h⟩
    rcases twoLeaves_live hv with rfl | rfl | rfl
    · rw [twoLeaves_nodeAt, if_pos rfl] at h
      exact ⟨rfl, h.imp Eq.symm Eq.symm⟩
    · exact absurd hp (by decide)
    · exact absurd hp (by decide)
  · rintro ⟨rfl, rfl | rfl⟩ <;> exact ⟨by decide, by decide +kernel, by decide +kernel⟩

theorem twoLeaves_isTree : twoLeaves.IsTree where
  leaves := by
    simp only [twoLeaves_nodeAt, twoLeaves_freqAt]
    decide +kernel
  internals := by
    simp only [twoLeaves_nodeAt]
    decide +kernel
  children n hn hv := by
    rcases twoLeaves_live hv with rfl | rfl | rfl
    · decide +kernel
    · exact absurd hn (by decide)
    · exact absurd hn (by decide)
  parents n hv hr := by
    refine ⟨256#9, ?_, fun q hq => ((twoLeaves_child q n).1 hq).1⟩
    rw [twoLeaves_child]
    rcases twoLeaves_live hv with rfl | rfl | rfl
    · exact absurd rfl hr
    · exact ⟨rfl, .inr rfl⟩
    · exact ⟨rfl, .inl rfl⟩
  rootless p h := by
    have := ((twoLeaves_child _ _).1 h).2
    revert this
    decide
  rootAt := by decide +kernel
  counted := by decide +kernel
  total := by decide +kernel

theorem twoLeaves_inv : TreeInv twoLeaves where
  valid _ := twoLeaves_isTree
  invalid h := by cases h
  heap := rfl

theorem oneLeaf_live {j : NodeIdx} (h : (oneLeaf.nodeAt j).v = true) : j = 97#9 := by
  rw [oneLeaf_nodeAt] at h
  split at h
  · assumption
  · cases h

theorem oneLeaf_isTree : oneLeaf.IsTree where
  leaves := by
    simp only [oneLeaf_nodeAt, oneLeaf_freqAt]
    decide +kernel
  internals := by
    simp only [oneLeaf_nodeAt]
    decide +kernel
  children n hn hv := by
    cases oneLeaf_live hv
    exact absurd hn (by decide)
  parents n hv hr := absurd (oneLeaf_live hv) hr
  rootless p h := by
    obtain ⟨hp, hv, -⟩ := h
    cases oneLeaf_live hv
    exact absurd hp (by decide)
  rootAt := by decide +kernel
  counted := by decide +kernel
  total := by decide +kernel

theorem oneLeaf_inv : TreeInv oneLeaf where
  valid _ := oneLeaf_isTree
  invalid h := by cases h
  heap := rfl

/-- `twoLeaves`, not yet built. -/
def counted : State :=
  { State.reset with tree := { TreeBuilder.reset with freq := ((RegFile.fill 256 0#32).set 0 1#32).set 1 2#32 } }

/-- A valid tree of two leaves, of one leaf. -/
def treed : State := { State.reset with tree := twoLeaves }
def oneTreed : State := { State.reset with tree := oneLeaf }

/-- The valid table of `twoLeaves` (V21h's shape): 0 has "0", 1 has "1". -/
def twoCodes : CodeTable :=
  { (CodeTable.reset.record 0#8 [false]).record 1#8 [true] with ctValid := true, nent := 2#9 }

/-- The valid table of one code of two bits, 5 = "10". -/
def longer : CodeTable := { CodeTable.reset.record 5#8 [true, false] with ctValid := true, nent := 1#9 }

theorem blank_entry (x : Symbol) : CodeTable.reset.entry x = .blank := RegFile.get_fill 256 _ _

theorem twoCodes_entry (x : Symbol) : twoCodes.entry x =
    if x = 1#8 then { v := true, code := [true] } else if x = 0#8 then { v := true, code := [false] } else .blank := by
  show ((CodeTable.reset.record 0#8 [false]).record 1#8 [true]).entry x = _
  rw [CodeTable.entry_record, CodeTable.entry_record, blank_entry]

theorem longer_entry (x : Symbol) :
    longer.entry x = if x = 5#8 then { v := true, code := [true, false] } else .blank := by
  show (CodeTable.reset.record 5#8 [true, false]).entry x = _
  rw [CodeTable.entry_record, blank_entry]

theorem twoCodes_live {x : Symbol} (h : (twoCodes.entry x).v = true) : x = 0#8 ∨ x = 1#8 := by
  rw [twoCodes_entry] at h
  split at h
  · exact .inr ‹_›
  · split at h
    · exact .inl ‹_›
    · cases h

theorem longer_live {x : Symbol} (h : (longer.entry x).v = true) : x = 5#8 := by
  rw [longer_entry] at h
  split at h
  · assumption
  · cases h

theorem twoCodes_prefixFree : PrefixFree twoCodes := by
  intro x y hxy hx hy
  rcases twoCodes_live hx with rfl | rfl <;> rcases twoCodes_live hy with rfl | rfl
  · exact absurd rfl hxy
  · simp [twoCodes_entry]
  · simp [twoCodes_entry]
  · exact absurd rfl hxy

theorem longer_prefixFree : PrefixFree longer := fun _ _ hxy hx hy =>
  absurd ((longer_live hx).trans (longer_live hy).symm) hxy

theorem twoCodes_inv : TableInv twoCodes where
  lengths x h := by
    rcases twoCodes_live h with rfl | rfl <;> simp [twoCodes_entry]
  prefixFree _ := twoCodes_prefixFree
  counted := by decide +kernel
  opened h := by cases h
  scratch := by decide
  stack := rfl

theorem longer_inv : TableInv longer where
  lengths x h := by
    cases longer_live h
    simp [longer_entry]
  prefixFree _ := longer_prefixFree
  counted := by decide +kernel
  opened h := by cases h
  scratch := by decide
  stack := rfl

/-- A valid table of two codes; of one longer code. -/
def coded : State := { State.reset with table := twoCodes }
def codedLong : State := { State.reset with table := longer }

/-- An open entry for Symbol 7 with bits `c`. -/
def opened (c : BitString) : State :=
  { State.reset with table := { CodeTable.reset with topen := true, ts := 7#8, tc := c } }

/-- A payload being packed, in memories of two bytes, with the codes of `twoCodes`. -/
def packing (pwp : BitVec 33) (pnb : BitVec 3) (acc : BitVec 8) : State :=
  { State.reset with
    cfg := small, table := twoCodes
    pack := { Packer.reset with pstate := .active, pwp := pwp, pnb := pnb, pacc := acc, pmem := [(0, 0#8)]
                                pbitcnt := BitVec.ofNat 64 (8 * (pwp.toNat - 1) + pnb.toNat) } }

/-- The published payload `07 80` (V31). -/
def packed : State :=
  { State.reset with
    cfg := small
    pack := { Packer.reset with pstate := .done, pwp := 2#33, ppad := 7#3, pbitcnt := 1#64
                                pmem := [(0, 7#8), (1, 0x80#8)] } }

theorem packed_inv : PackInv packed.cfg packed.pack where
  canonical := by decide
  inside a h := by
    match a with
    | 0 => decide
    | 1 => decide
    | a + 2 => simp [packed, Memory.read] at h
  written := by decide
  capacity := by decide
  idle h := by cases h
  active h := by cases h
  done _ := by decide

/-- A payload being taken in mode `m`, with the table `twoCodes` and the decoder running. -/
def taking (m : Bool) (u : UState) (held : Option Byte) (pad : BitVec 3) : State :=
  { State.reset with
    table := twoCodes
    unpack := { ustate := u, umode := m, upad := pad, uhold := held.getD 0#8, uholdv := held.isSome, ubitcnt := 0#64 }
    dec := { Decoder.reset with dstate := .run } }

theorem running_inv (c : Config) : DecInv c { Decoder.reset with dstate := .run } where
  canonical := by decide
  inside a h := by simp [Decoder.reset, Memory.read] at h
  written a h := by simp [Decoder.reset] at h
  capacity := Nat.zero_le _
  candidate := by decide
  atRest h := absurd rfl h

/-- The decoder running on a table, in memories of two bytes. -/
def decoding (g : CodeTable) (cand : BitString) (ocnt : BitVec 33) : State :=
  { State.reset with
    cfg := small, table := g, dec := { dstate := .run, dcand := cand, ocnt := ocnt, omem := [(0, 0#8), (1, 1#8)] } }

/-- A decode that ended with the two bytes 0, 1. -/
def decoded : State :=
  { State.reset with cfg := small, dec := { dstate := .done, dcand := [], ocnt := 2#33, omem := [(0, 0#8), (1, 1#8)] } }

theorem twoBytes_read (a : Nat) : (Memory.read [(0, 0#8), (1, 1#8)] a).isSome = true ↔ a < 2 := by
  match a with
  | 0 => decide
  | 1 => decide
  | a + 2 => simp [Memory.read]

theorem twoBytes_inv (d : DState) :
    DecInv small { dstate := d, dcand := [], ocnt := 2#33, omem := [(0, 0#8), (1, 1#8)] } where
  canonical := by show Memory.wf [(0, 0#8), (1, 1#8)]; decide
  inside a h := (twoBytes_read a).1 h
  written a h := (twoBytes_read a).2 h
  capacity := Nat.le_refl 2
  candidate := Nat.zero_le _
  atRest _ := rfl

/-- Every unit at work: a tree, its table, a payload half packed, another half taken, a decode running, and a word
waiting. -/
def midway (w : CmdWord) (ts : Symbol) (uhold : Byte) : State :=
  { cfg := small, tree := twoLeaves, table := { twoCodes with ts := ts }, pack := (packing 1#33 3#3 5#8).pack
    unpack := { (taking true .data none 3#3).unpack with uhold := uhold }
    dec := { dstate := .run, dcand := [], ocnt := 2#33, omem := [(0, 0#8), (1, 1#8)] }
    flt := .reset, port := { inq := [.word w], rsps := [], ub := [] } }

theorem midway_inv (w : CmdWord) (ts : Symbol) (uhold : Byte) : EngineInv (midway w ts uhold) where
  tree := twoLeaves_inv
  table := { twoCodes_inv with opened := fun h => by cases h }
  pack :=
    { canonical := by show Memory.wf [(0, 0#8)]; decide
      inside := fun a h => by
        match a with
        | 0 => show 0 < 2; decide
        | a + 1 => simp [midway, packing, Memory.read] at h
      written := fun a h => by
        match a with
        | 0 => rfl
        | a + 1 => exact absurd h (by show ¬ a + 1 < 1; omega)
      capacity := by show (1 : Nat) ≤ 2; decide
      idle := fun h => by cases h
      active := fun _ => by
        show (3#3).toNat = (3#64).toNat % 8 ∧ (1#33).toNat = 1 + (3#64).toNat / 8 ∧ (5#8).toNat < 2 ^ (3#3).toNat
        decide
      done := fun h => by cases h }
  unpack := fun h => by cases h
  dec := twoBytes_inv .run
  flt _ := rfl

/-! ### Witnesses: for each statement with hypotheses, states and operands that meet them, clause by clause -/

/-- At the last status register (R96), and at the largest Symbol and count. -/
theorem witness_DecodeEncodeRoundTrip :
    (Instr.rdsr 11#8).wellFormed = true ∧ (Instr.ldf 0xFF#8 0xFFFFFFFF#32).wellFormed = true := by decide

theorem witness_DecodedWordsEncodeBack : decode 0x020B00000000#48 = .ok (.rdsr 11#8) := by decide

theorem witness_IllegalWordsAreTheRest :
    decode 0x020C00000000#48 = .error .noSuchStatusRegister ∧
    (waiting 0x020C00000000#48).port.inq = .word 0x020C00000000#48 :: [] ∧
    (waiting 0x020C00000000#48).flt.err = none ∧
    (stuck.placeWord 0x020C00000000#48).port.inq = .word 0x020C00000000#48 :: [] ∧
    (stuck.placeWord 0x020C00000000#48).flt.err ≠ none := by decide

theorem witness_StepRunsTheDecodedCommand :
    (waiting 0x130000000000#48).port.inq = .word 0x130000000000#48 :: [] ∧ decode 0x130000000000#48 = .ok .build := by
  decide

theorem witness_StepResetsOrWaits :
    ({ stuck with port := { stuck.port with inq := [.rst] } } : State).port.inq = .rst :: [] ∧ stuck.port.inq = [] := by
  decide

theorem witness_FaultedEngineRefuses :
    stuck.flt.err ≠ none ∧
    (stuck.placeWord 0x020B00000000#48).port.inq = .word 0x020B00000000#48 :: [] ∧
    (decode 0x020B00000000#48 = .ok (.rdsr 11#8) ∧ runsWhileFaulted (.rdsr 11#8) = true) ∧
    (∀ i, decode 0x130000000000#48 = .ok i → runsWhileFaulted i = false) ∧
    (∀ i, decode 0x020C00000000#48 = .ok i → runsWhileFaulted i = false) := by
  refine ⟨by decide, by decide, by decide, fun i h => ?_, fun i h => ?_⟩
  · rw [show decode 0x130000000000#48 = .ok .build from by decide] at h
    cases h
    rfl
  · rw [show decode 0x020C00000000#48 = .error .noSuchStatusRegister from by decide] at h
    cases h

theorem witness_FaultEntryIsPrecise :
    (waiting 0x130000000000#48).flt.err = none ∧
    (waiting 0x130000000000#48).port.inq = .word 0x130000000000#48 :: [] ∧
    step (waiting 0x130000000000#48) = .next (got (step (waiting 0x130000000000#48))) ∧
    (got (step (waiting 0x130000000000#48))).flt.err ≠ none :=
  ⟨rfl, rfl, next_of_goes (by decide +kernel), by decide +kernel⟩

theorem witness_EveryWordIsAnsweredOnce :
    step (waiting 0x130000000000#48) = .next (got (step (waiting 0x130000000000#48))) ∧
    (got (step (waiting 0x130000000000#48))).port.rsps = [⟨.fault .empty, 0#64⟩] ∧
    step (waiting 0x100000000000#48) = .next (got (step (waiting 0x100000000000#48))) ∧
    decode 0x100000000000#48 = .ok .fclr ∧ carriesData .fclr = false :=
  ⟨next_of_goes (by decide +kernel), by decide +kernel, next_of_goes (by decide +kernel), by decide, rfl⟩

theorem witness_FirstFaultWins :
    stuck.flt.err ≠ none ∧ .clr ∉ [Instr.pinit, .rdsr 1#8] ∧
    runCommands [.pinit, .rdsr 1#8] stuck = .next (got (runCommands [.pinit, .rdsr 1#8] stuck)) :=
  ⟨by decide, by decide, next_of_goes (by decide +kernel)⟩

/-- Both sides of the table: legal and not. -/
theorem witness_SequenceFaultsExactly :
    State.reset.flt.err = none ∧ legal State.reset .gen = false ∧ legal treed .gen = true := by decide

theorem witness_FaultCodesComeFromTheirCommands :
    State.reset.flt.err = none ∧ exec .gen State.reset = .next (ran .gen State.reset) ∧
    (ran .gen State.reset).flt.err = some .seq ∧ raisedBy .seq .gen = true :=
  ⟨rfl, next_of_goes (by decide +kernel), by decide +kernel, rfl⟩

/-- Each flag changes somewhere, each way. -/
theorem witness_FlagsChangeOnlyByTheirCommands :
    (counted.tree.treeValid = false ∧ (ran .build counted).tree.treeValid = true) ∧
    (treed.tree.treeValid = true ∧ (ran .fclr treed).tree.treeValid = false) ∧
    (State.reset.table.ctValid = false ∧ (ran .tchk State.reset).table.ctValid = true) ∧
    (coded.table.ctValid = true ∧ (ran (.tsym 9#8) coded).table.ctValid = false) ∧
    (coded.table.topen = false ∧ (ran (.tsym 9#8) coded).table.topen = true) ∧
    ((opened [true]).table.topen = true ∧ (ran .tend (opened [true])).table.topen = false) ∧
    (ran .pinit coded).pack.pstate ≠ coded.pack.pstate ∧
    (ran (.uinit true) coded).unpack.ustate ≠ coded.unpack.ustate ∧
    (ran (.uinit true) coded).unpack.umode ≠ coded.unpack.umode ∧
    ((taking false .data none 0#3).unpack.uholdv = false ∧
      (ran (.ubyte 1#8) (taking false .data none 0#3)).unpack.uholdv = true) ∧
    ((taking false .data (some 1#8) 0#3).unpack.uholdv = true ∧
      (ran .uend (taking false .data (some 1#8) 0#3)).unpack.uholdv = false) ∧
    (ran .dinit coded).dec.dstate ≠ coded.dec.dstate ∧
    (stuck.flt.err ≠ none ∧ (ran .clr stuck).flt.err = none) ∧
    (ran .uend (taking false .data (some 1#8) 0#3)).port.ub ≠ (taking false .data (some 1#8) 0#3).port.ub := by
  decide +kernel

/-- Those changes are changes of a next state. -/
theorem witness_FlagsChangeOnlyByTheirCommands_next :
    exec .build counted = .next (ran .build counted) ∧ exec .fclr treed = .next (ran .fclr treed) ∧
    exec .tchk State.reset = .next (ran .tchk State.reset) ∧
    exec (.tsym 9#8) coded = .next (ran (.tsym 9#8) coded) ∧
    exec .tend (opened [true]) = .next (ran .tend (opened [true])) ∧ exec .pinit coded = .next (ran .pinit coded) ∧
    exec (.uinit true) coded = .next (ran (.uinit true) coded) ∧
    exec .uend (taking false .data (some 1#8) 0#3) = .next (ran .uend (taking false .data (some 1#8) 0#3)) ∧
    exec .dinit coded = .next (ran .dinit coded) ∧ exec .clr stuck = .next (ran .clr stuck) := by
  refine ⟨?_, ?_, ?_, ?_, ?_, ?_, ?_, ?_, ?_, ?_⟩ <;> exact next_of_goes (by decide +kernel)

theorem witness_ReadsHaveNoSideEffect :
    isRead (.rdf 1#8) = true ∧ exec (.rdf 1#8) counted = .next (ran (.rdf 1#8) counted) ∧
    Answered counted (ran (.rdf 1#8) counted) 2#64 :=
  ⟨rfl, next_of_goes (by decide +kernel), by decide +kernel, by decide +kernel⟩

theorem witness_NopDoesNothing : opcOf 1#48 = 0x00#8 ∧ (1#48) ≠ 0#48 := by decide

/-- The first number that is not implemented, the last that is; an engine with no tree. -/
theorem witness_RdsrReadsTheStatusRegisters :
    State.reset.flt.err = none ∧ stuck.flt.err ≠ none ∧ 12 ≤ (12#8).toNat ∧ (11#8).toNat < 12 ∧
    TreeInv State.reset.tree ∧ State.reset.tree.treeValid = false :=
  ⟨rfl, by decide, by decide, by decide,
    { valid := fun h => (by cases h), invalid := fun _ => ⟨rfl, rfl⟩, heap := rfl }, rfl⟩

/-- For `FCLR`, `LDF`, `TCLR`, `PINIT`: an engine that is not faulted. -/
theorem witness_notFaulted : (midway 0#48 0#8 0#8).flt.err = none := rfl

theorem witness_RdfReadsOneFrequency : counted.flt.err = none ∧ AtReset State.reset :=
  ⟨rfl, { freq := fun x => RegFile.get_fill 256 _ _, tree := by decide
          node := fun j => congrArg Node.v (blank_nodeAt (.fill 256 0#32) j), hidden := by decide
          ct := fun x => congrArg CodeEntry.v (blank_entry x), table := by decide, pack := by decide
          unpack := by decide, dec := by decide, flt := by decide }⟩

theorem witness_BuildGivesATree :
    State.reset.flt.err = none ∧ (∀ x, State.reset.tree.freqAt x = 0#32) ∧
    counted.flt.err = none ∧ counted.tree.freqAt 1#8 ≠ 0#32 :=
  ⟨rfl, fun x => RegFile.get_fill 256 _ _, rfl, by decide +kernel⟩

theorem witness_BuildIsTheGreedyMerge : counted.flt.err = none ∧ counted.tree.freqAt 0#8 ≠ 0#32 := by decide +kernel

/-- The second state still holds an earlier tree. -/
theorem witness_BuildDependsOnTheCountsAlone :
    counted.flt.err = none ∧ treed.flt.err = none ∧ counted.tree.freqAt 0#8 ≠ 0#32 ∧
    treed.tree.freq = counted.tree.freq ∧ treed.cfg.ties = counted.cfg.ties ∧ treed.cfg.child = counted.cfg.child ∧
    (treed.tree.nodeAt 256#9).v ≠ (counted.tree.nodeAt 256#9).v := by decide +kernel

theorem witness_BuildOrdersTheChildren :
    counted.flt.err = none ∧ counted.tree.freqAt 0#8 ≠ 0#32 ∧ 256 ≤ (256#9).toNat ∧
    ((ran .build counted).tree.nodeAt 256#9).v = true ∧ counted.cfg.child = .firstIsLeft ∧
    ((ran .build { counted with cfg := { small with child := .firstIsRight } }).tree.nodeAt 256#9).v = true := by
  decide +kernel

/-- The counts of `oneLeaf`. -/
theorem witness_OneSymbolGetsTheOneBitCode :
    oneTreed.flt.err = none ∧ oneTreed.tree.freqAt 97#8 ≠ 0#32 ∧ ∀ y, y ≠ 97#8 → oneTreed.tree.freqAt y = 0#32 := by
  refine ⟨rfl, by decide +kernel, fun y hy => ?_⟩
  rw [show oneTreed.tree = oneLeaf from rfl, oneLeaf_freqAt, if_neg hy]

theorem witness_EveryLeafHasOneBoundedPath : twoLeaves.IsTree ∧ (twoLeaves.nodeAt (leafIdx 1#8)).v = true :=
  ⟨twoLeaves_isTree, by decide +kernel⟩

theorem witness_EveryAdmissibleKeyOrderIsHeld :
    ∃ ties, ∀ c : Config, c.ties = ties → ∀ x y, c.keyLt x y = Config.standard.keyLt x y :=
  ⟨[], fun c h x y => by simp only [Config.keyLt, Config.rank, h, Config.standard]; rfl⟩

/-- A dead index and 511, a leaf, an internal node. -/
theorem witness_RdnReadsTheLinks :
    State.reset.flt.err = none ∧ State.reset.tree.treeValid = false ∧ treed.flt.err = none ∧
    treed.tree.treeValid = true ∧ (treed.tree.nodeAt 511#9).v = false ∧ (treed.tree.nodeAt 255#9).v = false ∧
    ((1#9).toNat < 256 ∧ (treed.tree.nodeAt 1#9).v = true) ∧
    (256 ≤ (256#9).toNat ∧ 256#9 ≠ 511#9 ∧ (treed.tree.nodeAt 256#9).v = true) := by decide +kernel

/-- A Symbol with no count; the first index beyond the last internal node, and 511. -/
theorem witness_RdnReadsTheLinks_absent :
    treed.tree.IsTree ∧ treed.tree.freqAt 255#8 = 0#32 ∧ 255 + treed.tree.nleaf.toNat ≤ (257#9).toNat ∧
    255 + treed.tree.nleaf.toNat ≤ (511#9).toNat :=
  ⟨twoLeaves_isTree, by decide +kernel, by decide, by decide⟩

theorem witness_RdnfReadsTheFrequency :
    State.reset.tree.treeValid = false ∧ treed.tree.treeValid = true ∧ (treed.tree.nodeAt 2#9).v = false ∧
    (256#9 ≠ 511#9 ∧ (treed.tree.nodeAt 256#9).v = true) ∧
    (ran (.rdnf 2#9) treed).port.rsps = [⟨.ok, 0#64⟩] ∧ treed.tree.IsTree :=
  ⟨by decide, by decide, by decide +kernel, by decide +kernel, by decide +kernel, twoLeaves_isTree⟩

theorem witness_GenReadsTheTree :
    (State.reset.flt.err = none ∧ State.reset.tree.treeValid = false) ∧
    (treed.flt.err = none ∧ treed.tree.treeValid = true ∧ TreeInv treed.tree ∧ 256 ≤ treed.tree.root.toNat) ∧
    (oneTreed.flt.err = none ∧ oneTreed.tree.treeValid = true ∧ TreeInv oneTreed.tree ∧
      oneTreed.tree.root.toNat < 256) :=
  ⟨by decide, ⟨rfl, rfl, twoLeaves_inv, by decide⟩, rfl, rfl, oneLeaf_inv, by decide⟩

theorem count_two (x : Symbol) : [0#8, 1#8, 1#8].count x = (treed.tree.freqAt x).toNat := by
  rw [show treed.tree = twoLeaves from rfl, twoLeaves_freqAt]
  revert x
  decide +kernel

/-- A live entry, two leaves and 255 bits, one leaf, a sequence with the counts of the tree. -/
theorem witness_GeneratedCodesAreCompleteAndPrefixFree :
    (treed.flt.err = none ∧ treed.tree.treeValid = true ∧ TreeInv treed.tree) ∧
    ((ran .gen treed).table.entry 1#8).v = true ∧
    (2 ≤ treed.tree.nleaf.toNat ∧ (List.replicate 255 true).length = 255) ∧
    (TreeInv oneTreed.tree ∧ oneTreed.tree.nleaf.toNat = 1) ∧
    (∀ x, [0#8, 1#8, 1#8].count x = (treed.tree.freqAt x).toNat) :=
  ⟨⟨rfl, rfl, twoLeaves_inv⟩, by decide +kernel,
    ⟨by decide, List.length_replicate⟩, ⟨oneLeaf_inv, by decide⟩, count_two⟩

theorem witness_RdclReadsTheLength :
    coded.flt.err = none ∧ TableInv coded.table ∧ (coded.table.entry 2#8).v = false ∧
    (coded.table.entry 1#8).v = true :=
  ⟨rfl, twoCodes_inv, by decide +kernel, by decide +kernel⟩

theorem witness_RdcwReadsTheCode :
    codedLong.flt.err = none ∧ TableInv codedLong.table ∧ (codedLong.table.entry 4#8).v = false ∧
    (codedLong.table.entry 5#8).v = true :=
  ⟨rfl, longer_inv, by decide +kernel, by decide +kernel⟩

theorem witness_TsymOpensAnEntry :
    (opened []).flt.err = none ∧ (opened []).table.topen = true ∧
    (coded.flt.err = none ∧ coded.table.topen = false) ∧ (coded.table.entry 1#8).v = true ∧
    (coded.table.entry 2#8).v = false := by decide +kernel

/-- The 255th and the 256th bit (V26). -/
theorem witness_TbitAppendsOneBit :
    (State.reset.flt.err = none ∧ State.reset.table.topen = false) ∧
    (opened (List.replicate 255 true)).flt.err = none ∧ (opened (List.replicate 255 true)).table.topen = true ∧
    (opened (List.replicate 255 true)).table.tc.length = 255 ∧
    (opened (List.replicate 254 true)).table.tc.length < 255 := by decide +kernel

theorem witness_TendCommitsTheEntry :
    (State.reset.flt.err = none ∧ State.reset.table.topen = false) ∧
    ((opened []).flt.err = none ∧ (opened []).table.topen = true ∧ (opened []).table.tc = []) ∧
    (opened [true]).table.tc ≠ [] ∧ TableInv (opened [true]).table :=
  ⟨by decide, by decide, by decide,
    { lengths := fun x h => by
        rw [show ((opened [true]).table.entry x).v = false from congrArg CodeEntry.v (blank_entry x)] at h
        cases h
      prefixFree := fun h => (by cases h), counted := by decide +kernel
      opened := fun _ => ⟨rfl, congrArg CodeEntry.v (blank_entry 7#8)⟩, scratch := by decide, stack := rfl }⟩

/-- 1 = "1" and 2 = "10" (a code that is a prefix of another). -/
theorem witness_TchkAcceptsPrefixFreeTables :
    (opened []).table.topen = true ∧
    (¬ PrefixFree (CodeTable.record (CodeTable.reset.record 1#8 [true]) 2#8 [true, false]) ∧
      (CodeTable.record (CodeTable.reset.record 1#8 [true]) 2#8 [true, false]).topen = false) ∧
    (coded.flt.err = none ∧ coded.table.topen = false ∧ PrefixFree coded.table) := by
  refine ⟨rfl, ⟨fun h => ?_, rfl⟩, rfl, rfl, twoCodes_prefixFree⟩
  exact h 1#8 2#8 (by decide) (by decide +kernel) (by decide +kernel) (by decide +kernel)

/-- Not active; the byte full with no room; the byte not full; the byte full with room for one more. -/
theorem witness_PbitShiftsOneBitIn :
    (State.reset.flt.err = none ∧ State.reset.pack.pstate ≠ .active) ∧
    ((packing 2#33 7#3 5#8).flt.err = none ∧ (packing 2#33 7#3 5#8).pack.pstate = .active ∧
      (packing 2#33 7#3 5#8).pack.pnb = 7#3 ∧
      (packing 2#33 7#3 5#8).pack.pwp.toNat = (packing 2#33 7#3 5#8).cfg.pmemBytes) ∧
    ((packing 2#33 6#3 5#8).pack.pstate = .active ∧ (packing 2#33 6#3 5#8).pack.pnb ≠ 7#3) ∧
    ((packing 1#33 7#3 5#8).pack.pnb = 7#3 ∧
      (packing 1#33 7#3 5#8).pack.pwp.toNat < (packing 1#33 7#3 5#8).cfg.pmemBytes) := by decide

/-- The code "1" of Symbol 1 into a full byte: with no room, and with room for exactly one byte. -/
theorem witness_EncPushesTheCode :
    (coded.flt.err = none ∧ coded.pack.pstate ≠ .active) ∧
    ((packing 1#33 7#3 5#8).flt.err = none ∧ (packing 1#33 7#3 5#8).pack.pstate = .active ∧
      (packing 1#33 7#3 5#8).table.ctValid = true ∧ ((packing 1#33 7#3 5#8).table.entry 2#8).v = false) ∧
    (((packing 2#33 7#3 5#8).table.entry 1#8).v = true ∧
      (packing 2#33 7#3 5#8).pack.pwp.toNat ≤ (packing 2#33 7#3 5#8).cfg.pmemBytes ∧
      (packing 2#33 7#3 5#8).cfg.pmemBytes < (packing 2#33 7#3 5#8).pack.pwp.toNat +
        ((packing 2#33 7#3 5#8).pack.pnb.toNat + ((packing 2#33 7#3 5#8).table.entry 1#8).code.length) / 8) ∧
    (((packing 1#33 7#3 5#8).table.entry 1#8).v = true ∧
      (packing 1#33 7#3 5#8).pack.pwp.toNat +
        ((packing 1#33 7#3 5#8).pack.pnb.toNat + ((packing 1#33 7#3 5#8).table.entry 1#8).code.length) / 8
        ≤ (packing 1#33 7#3 5#8).cfg.pmemBytes) := by decide +kernel

theorem witness_PflushPadsAndPublishes :
    (State.reset.flt.err = none ∧ State.reset.pack.pstate ≠ .active) ∧
    ((packing 2#33 1#3 1#8).flt.err = none ∧ (packing 2#33 1#3 1#8).pack.pstate = .active ∧
      (packing 2#33 1#3 1#8).pack.pnb ≠ 0#3 ∧
      (packing 2#33 1#3 1#8).pack.pwp.toNat = (packing 2#33 1#3 1#8).cfg.pmemBytes) ∧
    ((packing 2#33 0#3 0#8).pack.pstate = .active ∧ (packing 2#33 0#3 0#8).pack.pnb = 0#3) ∧
    ((packing 1#33 1#3 1#8).pack.pnb ≠ 0#3 ∧ 1 ≤ (packing 1#33 1#3 1#8).pack.pwp.toNat ∧
      (packing 1#33 1#3 1#8).pack.pwp.toNat < (packing 1#33 1#3 1#8).cfg.pmemBytes) := by decide

theorem packing_inv (n : BitVec 3) (acc : BitVec 8) (h : acc.toNat < 2 ^ n.toNat) :
    PackInv (packing 1#33 n acc).cfg (packing 1#33 n acc).pack where
  canonical := by show Memory.wf [(0, 0#8)]; decide
  inside a h := by
    match a with
    | 0 => show 0 < 2; decide
    | a + 1 => simp [packing, Memory.read] at h
  written a h := by
    match a with
    | 0 => rfl
    | a + 1 => exact absurd h (by show ¬ a + 1 < 1; omega)
  capacity := by show (1 : Nat) ≤ 2; decide
  idle h := by cases h
  active _ := by
    refine ⟨?_, ?_, h⟩
    · exact (by decide : ∀ n : BitVec 3, n.toNat = (BitVec.ofNat 64 (0 + n.toNat)).toNat % 8) n
    · exact (by decide : ∀ n : BitVec 3, 1 = 1 + (BitVec.ofNat 64 (0 + n.toNat)).toNat / 8) n
  done h := by cases h

/-- With bits waiting, and without. -/
theorem witness_PflushPadsAndPublishes_inv :
    PackInv (packing 1#33 1#3 1#8).cfg (packing 1#33 1#3 1#8).pack ∧ (packing 1#33 1#3 1#8).pack.pnb ≠ 0#3 ∧
    PackInv (packing 1#33 0#3 0#8).cfg (packing 1#33 0#3 0#8).pack ∧ (packing 1#33 0#3 0#8).pack.pnb = 0#3 :=
  ⟨packing_inv _ _ (by decide), by decide, packing_inv _ _ (by decide), by decide⟩

/-- The last byte of the payload and the address after it. -/
theorem witness_RdpReadsThePayload :
    (State.reset.flt.err = none ∧ State.reset.pack.pstate ≠ .done) ∧
    (packed.flt.err = none ∧ packed.pack.pstate = .done ∧ packed.pack.pwp.toNat ≤ (2#32).toNat) ∧
    ((1#32).toNat < packed.pack.pwp.toNat ∧ PackInv packed.cfg packed.pack) ∧
    (exec .tclr packed = .next (ran .tclr packed) ∧ Instr.tclr ≠ .pinit ∧ Instr.tclr ≠ .clr) :=
  ⟨by decide, by decide, ⟨by decide, packed_inv⟩, next_of_goes (by decide +kernel), by decide, by decide⟩

/-- A bit, then a code, in a memory of two bytes. -/
theorem witness_PackerComputesPack :
    ({ coded with cfg := small } : State).flt.err = none ∧
    (∀ x, .inr x ∈ ([.inl true, .inr 1#8] : List Feed) →
      ({ coded with cfg := small } : State).table.ctValid = true ∧
      (({ coded with cfg := small } : State).table.entry x).v = true) ∧
    1 + ((([.inl true, .inr 1#8] : List Feed).flatMap (Feed.bits ({ coded with cfg := small } : State).table)).length
      + 7) / 8 ≤ ({ coded with cfg := small } : State).cfg.pmemBytes := by
  refine ⟨rfl, fun x h => ⟨rfl, ?_⟩, by decide +kernel⟩
  simp only [List.mem_cons, Sum.inr.injEq, List.not_mem_nil, or_false, reduceCtorEq, false_or] at h
  subst h
  decide +kernel

theorem witness_UinitStartsUnpacking :
    (State.reset.flt.err = none ∧ State.reset.table.ctValid = false) ∧
    (coded.flt.err = none ∧ coded.table.ctValid = true) := by decide

/-- In their order: no payload open, the link broken, a bad padding count and the largest good one, the first data
byte, the next. -/
theorem witness_UbyteTakesAPayloadByte :
    (State.reset.flt.err = none ∧ State.reset.unpack.ustate ≠ .pad ∧ State.reset.unpack.ustate ≠ .data) ∧
    ((taking true .pad none 0#3).unpack.umode = true ∧
      ({ taking true .pad none 0#3 with dec := Decoder.reset } : State).dec.dstate ≠ .run) ∧
    ((taking true .pad none 0#3).flt.err = none ∧ legal (taking true .pad none 0#3) (.ubyte 8#8) = true ∧
      (taking true .pad none 0#3).unpack.ustate = .pad ∧ 7 < (8#8).toNat) ∧
    (legal (taking true .pad none 0#3) (.ubyte 7#8) = true ∧ (7#8).toNat ≤ 7) ∧
    (legal (taking true .data none 7#3) (.ubyte 1#8) = true ∧ (taking true .data none 7#3).unpack.ustate = .data ∧
      (taking true .data none 7#3).unpack.uholdv = false) ∧
    ((taking false .data (some 9#8) 7#3).unpack.umode = false ∧
      (taking false .data (some 9#8) 7#3).unpack.ustate = .data ∧
      (taking false .data (some 9#8) 7#3).unpack.uholdv = true) := by decide +kernel

theorem witness_UendReleasesTheLastByte :
    (State.reset.flt.err = none ∧ State.reset.unpack.ustate ≠ .pad ∧ State.reset.unpack.ustate ≠ .data) ∧
    ((taking true .pad none 0#3).unpack.umode = true ∧
      ({ taking true .pad none 0#3 with dec := Decoder.reset } : State).dec.dstate ≠ .run) ∧
    ((taking true .data none 1#3).flt.err = none ∧ legal (taking true .data none 1#3) .uend = true ∧
      (taking true .data none 1#3).unpack.ustate = .data ∧ (taking true .data none 1#3).unpack.uholdv = false ∧
      (taking true .data none 1#3).unpack.upad ≠ 0#3) ∧
    ((taking false .data (some 9#8) 7#3).flt.err = none ∧ (taking false .data (some 9#8) 7#3).unpack.umode = false ∧
      (taking false .data (some 9#8) 7#3).unpack.ustate = .data ∧
      (taking false .data (some 9#8) 7#3).unpack.uholdv = true) ∧
    ((taking false .data none 0#3).unpack.umode = false ∧ (taking false .data none 0#3).unpack.ustate = .data ∧
      (taking false .data none 0#3).unpack.uholdv = false ∧ (taking false .data none 0#3).unpack.upad = 0#3) ∧
    (taking false .pad none 0#3).unpack.ustate = .pad := by decide +kernel

/-- Held bytes that decode, and one that does not; `UEND` with no byte held and with the 5 bits of a byte. -/
theorem witness_ModeOneFeedsTheDecoder :
    ((taking true .data (some 9#8) 0#3).flt.err = none ∧
      legal (taking true .data (some 9#8) 0#3) (.ubyte 1#8) = true ∧
      (taking true .data (some 9#8) 0#3).unpack.umode = true ∧
      (taking true .data (some 9#8) 0#3).unpack.ustate = .data ∧
      (taking true .data (some 9#8) 0#3).unpack.uholdv = true ∧
      DecInv (taking true .data (some 9#8) 0#3).cfg (taking true .data (some 9#8) 0#3).dec) ∧
    (got (runCommands (((List.range 8).map (fun j => (9#8 : Byte).getLsbD (7 - j))).map Instr.dbit)
      (taking true .data (some 9#8) 0#3))).flt.err = none ∧
    (got (runCommands (((List.range 8).map (fun j => (9#8 : Byte).getLsbD (7 - j))).map Instr.dbit)
      { taking true .data (some 9#8) 0#3 with table := longer })).flt.err = some .trunc ∧
    (legal (taking true .data (some 9#8) 3#3) .uend = true ∧ UnpackInv (taking true .data (some 9#8) 3#3).unpack ∧
      DecInv (taking true .data (some 9#8) 3#3).cfg (taking true .data (some 9#8) 3#3).dec ∧
      (taking true .data (some 9#8) 3#3).unpack.uholdv = true ∧ (taking true .data (some 9#8) 3#3).unpack.upad = 3#3) ∧
    (legal (taking true .pad none 0#3) .uend = true ∧ UnpackInv (taking true .pad none 0#3).unpack ∧
      (taking true .pad none 0#3).unpack.uholdv = false ∧ (taking true .pad none 0#3).unpack.upad = 0#3) :=
  ⟨⟨rfl, by decide, rfl, rfl, rfl, running_inv _⟩, by decide +kernel, by decide +kernel,
    ⟨by decide, fun _ => rfl, running_inv _, rfl, rfl⟩, by decide, fun h => (by cases h), rfl, rfl⟩

/-- A first byte too large, a lone byte that is not 0, a lone 0, a byte and seven bits, and no byte at all. -/
theorem witness_UnpackerComputesUnpack :
    State.reset.flt.err = none ∧
    ([8#8].head? = some (8#8 : Byte) ∧ 7 < (8#8).toNat) ∧
    ([1#8].head? = some (1#8 : Byte) ∧ [1#8].length = 1 ∧ 1#8 ≠ 0#8) ∧
    (∀ v, [(0#8 : Byte)].head? = some v → v.toNat ≤ 7 ∧ ([(0#8 : Byte)].length = 1 → v = 0#8)) ∧
    (∀ v, [(7#8 : Byte), 0x80#8].head? = some v →
      v.toNat ≤ 7 ∧ ([(7#8 : Byte), 0x80#8].length = 1 → v = 0#8)) ∧
    (∀ v, ([] : List Byte).head? = some v → v.toNat ≤ 7 ∧ (([] : List Byte).length = 1 → v = 0#8)) := by
  refine ⟨rfl, by decide, by decide, fun v h => ?_, fun v h => ?_, fun v h => ?_⟩
  · cases h
    decide
  · cases h
    decide
  · cases h

theorem witness_DinitStartsADecode :
    (State.reset.flt.err = none ∧ State.reset.table.ctValid = false) ∧
    (coded.flt.err = none ∧ coded.table.ctValid = true) := by decide

/-- No decode; a code completed with no room and with room; a code begun; a bit that fits no code. -/
theorem witness_DbitStepsTheDecoder :
    (coded.flt.err = none ∧ coded.dec.dstate ≠ .run) ∧
    ((decoding longer [true] 2#33).flt.err = none ∧ (decoding longer [true] 2#33).dec.dstate = .run ∧
      (decoding longer [true] 2#33).table.ctValid = true ∧ PrefixFree (decoding longer [true] 2#33).table ∧
      ((decoding longer [true] 2#33).table.entry 5#8).v = true ∧
      ((decoding longer [true] 2#33).table.entry 5#8).code = (decoding longer [true] 2#33).dec.dcand ++ [false] ∧
      (decoding longer [true] 2#33).dec.ocnt.toNat = (decoding longer [true] 2#33).cfg.omemBytes.val) ∧
    (decoding longer [true] 1#33).dec.ocnt.toNat < (decoding longer [true] 1#33).cfg.omemBytes.val ∧
    ((decoding longer [] 0#33).dec.dcand ++ [true] <+: ((decoding longer [] 0#33).table.entry 5#8).code ∧
      ((decoding longer [] 0#33).table.entry 5#8).code ≠ (decoding longer [] 0#33).dec.dcand ++ [true]) ∧
    (∀ x, ((decoding longer [] 0#33).table.entry x).v = true →
      ¬ (decoding longer [] 0#33).dec.dcand ++ [false] <+: ((decoding longer [] 0#33).table.entry x).code) ∧
    TableInv (decoding longer [] 0#33).table := by
  refine ⟨by decide, ⟨rfl, rfl, rfl, longer_prefixFree, by decide +kernel, by decide +kernel, by decide⟩, by decide,
    by decide +kernel, fun x h => ?_, longer_inv⟩
  cases longer_live h
  decide +kernel

theorem witness_DendFinishesTheDecode :
    (State.reset.flt.err = none ∧ State.reset.dec.dstate ≠ .run) ∧
    ((decoding longer [true] 0#33).flt.err = none ∧ (decoding longer [true] 0#33).dec.dstate = .run ∧
      (decoding longer [true] 0#33).dec.dcand ≠ []) ∧ (decoding longer [] 0#33).dec.dcand = [] := by decide

/-- The last byte of the output and the address after it. -/
theorem witness_RdoReadsTheOutput :
    (State.reset.flt.err = none ∧ State.reset.dec.dstate ≠ .done) ∧
    (decoded.flt.err = none ∧ decoded.dec.dstate = .done ∧ decoded.dec.ocnt.toNat ≤ (2#32).toNat) ∧
    ((1#32).toNat < decoded.dec.ocnt.toNat ∧ DecInv decoded.cfg decoded.dec) ∧
    (exec (.uinit false) decoded = .next (ran (.uinit false) decoded) ∧ Instr.uinit false ≠ .uinit true) :=
  ⟨by decide, by decide, ⟨by decide, twoBytes_inv .done⟩, next_of_goes (by decide +kernel), by decide⟩

/-- Sequences that fill the output, equal concatenations, and a bit-string that is a code begun. -/
theorem witness_DecoderFactorsIntoCodes :
    (decoding longer [] 0#33).flt.err = none ∧ (decoding longer [] 0#33).table.ctValid = true ∧
    TableInv (decoding longer [] 0#33).table ∧
    ((∀ x ∈ [5#8, 5#8], ((decoding longer [] 0#33).table.entry x).v = true) ∧
      [5#8, 5#8].length ≤ (decoding longer [] 0#33).cfg.omemBytes.val) ∧
    ([true].length ≤ (decoding longer [] 0#33).cfg.omemBytes.val ∧
      ¬ ∃ xs, (∀ x ∈ xs, ((decoding longer [] 0#33).table.entry x).v = true) ∧
        [true] = codesOf (decoding longer [] 0#33).table xs) := by
  refine ⟨rfl, rfl, longer_inv, by decide +kernel, by decide, ?_⟩
  rintro ⟨xs, hv, h⟩
  cases xs with
  | nil => cases h
  | cons x xs =>
    cases longer_live (hv x (.head _))
    have h1 : (longer.entry 5#8).code = [true, false] := by rw [longer_entry]; rfl
    have h2 : [true] = (longer.entry 5#8).code ++ codesOf longer xs := h
    rw [h1] at h2
    cases h2

/-- The nodes of the tree of counts 0:1 1:1 2:1 (V11's shape: 256={2,0,1} 257={3,2,256}). -/
def threeNodes : TreeBuilder :=
  (((({ TreeBuilder.reset with freq := (((RegFile.fill 256 0#32).set 0 1#32).set 1 1#32).set 2 1#32 }.setNode
    0#9 { v := true, f := 1#40, l := 0#9, r := 0#9 }).setNode
    1#9 { v := true, f := 1#40, l := 0#9, r := 0#9 }).setNode
    2#9 { v := true, f := 1#40, l := 0#9, r := 0#9 }).setNode
    256#9 { v := true, f := 2#40, l := 0#9, r := 1#9 }).setNode
    257#9 { v := true, f := 3#40, l := 2#9, r := 256#9 }

/-- The tree itself: `ROOT` = 257, `NLEAF` = 3. -/
def threeLeaves : TreeBuilder := { threeNodes with treeValid := true, nleaf := 3#9, root := 257#9 }

/-- Its table (V21b's shape): 2 has "0", 0 has "10", 1 has "11". -/
def threeCodes : CodeTable :=
  { ((CodeTable.reset.record 0#8 [true, false]).record 1#8 [true, true]).record 2#8 [false] with
    ctValid := true, nent := 3#9 }

theorem threeLeaves_nodeAt (j : NodeIdx) : threeLeaves.nodeAt j =
    if j = 257#9 then { v := true, f := 3#40, l := 2#9, r := 256#9 }
    else if j = 256#9 then { v := true, f := 2#40, l := 0#9, r := 1#9 }
    else if j = 2#9 then { v := true, f := 1#40, l := 0#9, r := 0#9 }
    else if j = 1#9 then { v := true, f := 1#40, l := 0#9, r := 0#9 }
    else if j = 0#9 then { v := true, f := 1#40, l := 0#9, r := 0#9 } else .blank := by
  rw [TreeBuilder.nodeAt_congr (t := threeLeaves) (u := threeNodes) rfl, threeNodes,
    TreeBuilder.nodeAt_setNode _ (by decide), TreeBuilder.nodeAt_setNode _ (by decide),
    TreeBuilder.nodeAt_setNode _ (by decide), TreeBuilder.nodeAt_setNode _ (by decide),
    TreeBuilder.nodeAt_setNode _ (by decide), blank_nodeAt]

theorem threeLeaves_freqAt (x : Symbol) : threeLeaves.freqAt x =
    if x = 2#8 then 1#32 else if x = 1#8 then 1#32 else if x = 0#8 then 1#32 else 0#32 := by
  show ((((RegFile.fill 256 0#32).set (0#8).toFin 1#32).set (1#8).toFin 1#32).set (2#8).toFin 1#32).get x.toFin = _
  simp only [RegFile.get_set, RegFile.get_fill, toFin_eq]

theorem threeLeaves_live {j : NodeIdx} (h : (threeLeaves.nodeAt j).v = true) :
    j = 257#9 ∨ j = 256#9 ∨ j = 2#9 ∨ j = 1#9 ∨ j = 0#9 := by
  rw [threeLeaves_nodeAt] at h
  repeat' split at h
  all_goals first | (cases h; done) | (simp only [*]; simp)

theorem threeLeaves_child (p n : NodeIdx) : threeLeaves.IsChild p n ↔
    (p = 257#9 ∧ (n = 2#9 ∨ n = 256#9)) ∨ (p = 256#9 ∧ (n = 0#9 ∨ n = 1#9)) := by
  constructor
  · rintro ⟨hp, hv, h⟩
    rcases threeLeaves_live hv with rfl | rfl | rfl | rfl | rfl
    · exact .inl ⟨rfl, h.imp Eq.symm Eq.symm⟩
    · exact .inr ⟨rfl, h.imp Eq.symm Eq.symm⟩
    all_goals exact absurd hp (by decide)
  · rintro (⟨rfl, rfl | rfl⟩ | ⟨rfl, rfl | rfl⟩) <;>
      exact ⟨by decide, by rw [threeLeaves_nodeAt]; rfl, by rw [threeLeaves_nodeAt]; decide⟩

theorem threeLeaves_isTree : threeLeaves.IsTree where
  leaves := by
    simp only [threeLeaves_nodeAt, threeLeaves_freqAt]
    decide +kernel
  internals := by
    simp only [threeLeaves_nodeAt]
    decide +kernel
  children n hn hv := by
    rcases threeLeaves_live hv with rfl | rfl | rfl | rfl | rfl
    · decide +kernel
    · decide +kernel
    all_goals exact absurd hn (by decide)
  parents n hv hr := by
    simp only [threeLeaves_child]
    rcases threeLeaves_live hv with rfl | rfl | rfl | rfl | rfl
    · exact absurd rfl hr
    · exact ⟨257#9, by decide, fun q hq => by rcases hq with ⟨h, -⟩ | ⟨-, h⟩; exacts [h, absurd h (by decide)]⟩
    · exact ⟨257#9, by decide, fun q hq => by rcases hq with ⟨h, -⟩ | ⟨-, h⟩; exacts [h, absurd h (by decide)]⟩
    · exact ⟨256#9, by decide, fun q hq => by rcases hq with ⟨-, h⟩ | ⟨h, -⟩; exacts [absurd h (by decide), h]⟩
    · exact ⟨256#9, by decide, fun q hq => by rcases hq with ⟨-, h⟩ | ⟨h, -⟩; exacts [absurd h (by decide), h]⟩
  rootless p h := by
    rcases (threeLeaves_child _ _).1 h with ⟨-, h⟩ | ⟨-, h⟩ <;> revert h <;> decide
  rootAt := by decide +kernel
  counted := by decide +kernel
  total := by decide +kernel

theorem threeCodes_entry (x : Symbol) : threeCodes.entry x =
    if x = 2#8 then { v := true, code := [false] } else if x = 1#8 then { v := true, code := [true, true] }
    else if x = 0#8 then { v := true, code := [true, false] } else .blank := by
  show (((CodeTable.reset.record 0#8 [true, false]).record 1#8 [true, true]).record 2#8 [false]).entry x = _
  rw [CodeTable.entry_record, CodeTable.entry_record, CodeTable.entry_record, blank_entry]

theorem leafIdx_small (x : Symbol) : (leafIdx x).toNat < 256 := by
  revert x
  decide +kernel

/-- Paths of the tree, by length: none reaches a leaf but those of `threeCodes`. -/
theorem threeCodes_ofTree : TableOfTree threeCodes threeLeaves := by
  have h0 (n : NodeIdx) (c : BitString) (hn : n.toNat < 256) (hc : c ≠ []) : threeLeaves.follow n c = none := by
    cases c with
    | nil => exact absurd rfl hc
    | cons b c => exact if_pos hn
  have h257 : threeLeaves.nodeAt 257#9 = { v := true, f := 3#40, l := 2#9, r := 256#9 } := by
    rw [threeLeaves_nodeAt]; rfl
  have h256 : threeLeaves.nodeAt 256#9 = { v := true, f := 2#40, l := 0#9, r := 1#9 } := by
    rw [threeLeaves_nodeAt]; rfl
  have hl (b : Bool) (c : BitString) : threeLeaves.follow threeLeaves.root (b :: c) =
      threeLeaves.follow (if b then 256#9 else 2#9) c := by
    rw [show threeLeaves.follow threeLeaves.root (b :: c) = threeLeaves.follow (if b then
      (threeLeaves.nodeAt 257#9).r else (threeLeaves.nodeAt 257#9).l) c from rfl, h257]
  have hr (b : Bool) (c : BitString) : threeLeaves.follow 256#9 (b :: c) =
      threeLeaves.follow (if b then 1#9 else 0#9) c := by
    rw [show threeLeaves.follow 256#9 (b :: c) = threeLeaves.follow (if b then
      (threeLeaves.nodeAt 256#9).r else (threeLeaves.nodeAt 256#9).l) c from rfl, h256]
  intro x c
  rw [threeCodes_entry]
  match c with
  | [] =>
    rw [show threeLeaves.follow threeLeaves.root [] = some 257#9 from rfl]
    revert x
    decide +kernel
  | [b] =>
    rw [hl, show threeLeaves.follow (if b then 256#9 else 2#9) [] = some (if b then 256#9 else 2#9) from rfl]
    revert x b
    decide +kernel
  | [true, d] =>
    rw [hl, if_pos rfl, hr,
      show threeLeaves.follow (if d then 1#9 else 0#9) [] = some (if d then 1#9 else 0#9) from rfl]
    revert x d
    decide +kernel
  | false :: d :: c =>
    rw [hl, show (if false = true then 256#9 else 2#9) = 2#9 from rfl, h0 _ _ (by decide) (by simp)]
    refine iff_of_false (fun ⟨hv, hc⟩ => ?_) (by simp)
    repeat' split at hc
    all_goals simp_all [CodeEntry.blank]
  | true :: d :: e :: c =>
    rw [hl, if_pos rfl, hr, h0 _ _ (by cases d <;> decide) (by simp)]
    refine iff_of_false (fun ⟨hv, hc⟩ => ?_) (by simp)
    repeat' split at hc
    all_goals simp_all [CodeEntry.blank]

/-- The decoder at the root of `threeLeaves`, with room for one more byte. -/
def walking : State := { decoding threeCodes [] 1#33 with tree := threeLeaves }

/-- At the root: one branch reaches a leaf, the other an internal node. -/
theorem witness_DecoderWalksTheTree :
    walking.flt.err = none ∧ walking.table.ctValid = true ∧ walking.dec.dstate = .run ∧ walking.tree.IsTree ∧
    256 ≤ walking.tree.root.toNat ∧ TableOfTree walking.table walking.tree ∧
    walking.tree.follow walking.tree.root walking.dec.dcand = some 257#9 ∧ 256 ≤ (257#9).toNat ∧
    walking.dec.ocnt.toNat < walking.cfg.omemBytes.val ∧
    (walking.tree.nodeAt 257#9).l.toNat < 256 ∧ 256 ≤ (walking.tree.nodeAt 257#9).r.toNat :=
  ⟨rfl, rfl, rfl, threeLeaves_isTree, by decide, threeCodes_ofTree, rfl, by decide, by decide, by decide +kernel,
    by decide +kernel⟩

/-- The input "a" (V36d), payload `07 00`. -/
def coding : State := got (runCommands (freqCommands [0x61#8] ++ [.build, .gen]) State.reset)
def codedA : State := got (runCommands [.pinit, .enc 0x61#8, .pflush] coding)

theorem witness_DecodingUndoesEncoding :
    State.reset.flt.err = none ∧ [0x61#8] ≠ ([] : List Symbol) ∧ (∀ x, [(0x61#8 : Symbol)].count x < 2 ^ 32) ∧
    1 + ((codesOf coding.table [0x61#8]).length + 7) / 8 ≤ State.reset.cfg.pmemBytes ∧
    [0x61#8].length ≤ State.reset.cfg.omemBytes.val ∧
    [7#8, (0#8 : Byte)].length = codedA.pack.pwp.toNat ∧
    (∀ k v, [7#8, (0#8 : Byte)][k]? = some v → codedA.pack.pmem.read k = some v) := by
  refine ⟨rfl, by decide, fun x => ?_, by decide +kernel, by decide +kernel, by decide +kernel, fun k v h => ?_⟩
  · exact Nat.lt_of_le_of_lt List.count_le_length (by decide)
  · match k with
    | 0 => cases h; decide +kernel
    | 1 => cases h; decide +kernel
    | k + 2 => cases h

theorem witness_EveryStepKeepsTheInvariant :
    EngineInv (midway 0x440000000001#48 0#8 0#8) ∧
    step (midway 0x440000000001#48 0#8 0#8) = .next (got (step (midway 0x440000000001#48 0#8 0#8))) :=
  ⟨midway_inv _ _ _, next_of_goes (by decide +kernel)⟩

theorem witness_StepsNeverStop : EngineInv (midway 0x330000000000#48 0#8 0#8) := midway_inv _ _ _

/-- Two states that differ in `TS` with no entry open and in `UHOLD` with no byte held. -/
theorem witness_UnspecifiedValuesAreNeverRead :
    EngineInv (midway 0x41FF00000000#48 0#8 0#8) ∧ EngineInv (midway 0x41FF00000000#48 1#8 2#8) ∧
    SameSpecified (midway 0x41FF00000000#48 0#8 0#8) (midway 0x41FF00000000#48 1#8 2#8) ∧
    midway 0x41FF00000000#48 0#8 0#8 ≠ midway 0x41FF00000000#48 1#8 2#8 ∧
    step (midway 0x41FF00000000#48 0#8 0#8) = .next (got (step (midway 0x41FF00000000#48 0#8 0#8))) := by
  refine ⟨midway_inv _ _ _, midway_inv _ _ _, ?_, fun h => ?_, next_of_goes (by decide +kernel)⟩
  · exact { cfg := rfl, port := rfl, flt := rfl, tree := ⟨rfl, rfl, rfl, rfl, rfl⟩, node := fun j => ⟨rfl, fun _ => rfl⟩
            table := ⟨rfl, rfl, rfl, rfl⟩, ct := fun x => ⟨rfl, fun _ => rfl⟩, opened := fun h => by cases h
            pack := rfl, pmem := fun a _ => rfl, unpack := rfl, held := fun h => by cases h
            dec := rfl, omem := fun a _ => rfl }
  · exact absurd (congrArg (fun s => s.unpack.uhold) h) (by decide)

end Sys2Proof.Tests
end

section
/-! What a command can do, said once: `Effect i s u` lists, command by command, the state `u` that the rule of `i`
leaves when it ends normally in `s`, before the response is sent. `exec_cases` ties it to `exec`; the invariants and
the frames of single units are then case analyses over `Effect`. -/

namespace Sys2Proof.Machine

/-- What the decoder has become when the unpacker has released `bs`: as before in mode 0, and in mode 1 it has taken
every bit (R201). -/
def Feeds (s : State) (bs : BitString) (d : Decoder) : Prop :=
  s.unpack.umode = false ∧ d = s.dec ∨ s.unpack.umode = true ∧ dStepAll s.cfg s.table s.dec bs = .ok d

/-- A release that succeeds emits its bits and feeds them to the decoder. -/
theorem uEmitAll_ok {s t : State} {bs : BitString} (h : uEmitAll s bs = .ok t) :
    ∃ d, Feeds s bs d ∧ t = { s.emitted bs with dec := d } := by
  cases hm : s.unpack.umode
  · rw [uEmitAll_mode0 hm] at h
    cases h
    exact ⟨s.dec, .inl ⟨hm, rfl⟩, rfl⟩
  · rw [uEmitAll_mode1 hm] at h
    rcases hd : dStepAll s.cfg s.table s.dec bs with e | d <;> rw [hd] at h <;> cases h
    exact ⟨d, .inr ⟨hm, hd⟩, rfl⟩

theorem takePadding_ok {s t : State} {v : Byte} (h : takePadding v s = .ok t) :
    v.toNat ≤ 7 ∧ t = { s with unpack := { s.unpack with upad := v.setWidth 3, ustate := .data } } := by
  unfold takePadding at h
  split at h <;> cases h
  exact ⟨Nat.le_of_not_lt ‹_›, rfl⟩

theorem takeData_ok {s t : State} {v : Byte} (h : takeData v s = .ok t) :
    ∃ bs d, bs = (if s.unpack.uholdv then byteBits s.unpack.uhold else []) ∧ Feeds s bs d ∧
      t = { s.emitted bs with dec := d }.hold v := by
  rw [takeData_eq] at h
  generalize hb : (if s.unpack.uholdv then byteBits s.unpack.uhold else []) = bs at h
  rcases hu : uEmitAll s bs with e | u <;> rw [hu] at h <;> cases h
  obtain ⟨d, hd, rfl⟩ := uEmitAll_ok hu
  exact ⟨bs, d, rfl, hd, rfl⟩

/-- What `UEND` has released when it ends normally: some bits, after which no byte taken as data is held. -/
theorem releaseLast_ok {s t : State} (h : releaseLast s = .ok t) :
    ∃ bs b d, Feeds s bs d ∧
      (s.unpack.ustate = .data ∧ b = false ∨ s.unpack.ustate ≠ .data ∧ b = s.unpack.uholdv) ∧
      t = { s.emitted bs with unpack := { (s.emitted bs).unpack with uholdv := b }, dec := d } := by
  have nothing : Feeds s [] s.dec := by
    cases hm : s.unpack.umode
    · exact .inl ⟨hm, rfl⟩
    · exact .inr ⟨hm, rfl⟩
  rcases releaseLast_cases s with ⟨hn, e⟩ | ⟨hd, hv, -, e⟩ | ⟨-, -, -, e⟩ | ⟨hd, hv, e⟩
  · cases e.symm.trans h
    exact ⟨[], _, _, nothing, .inr ⟨hn, rfl⟩, by rw [State.emitted_nil]⟩
  · cases e.symm.trans h
    exact ⟨[], _, _, nothing, .inl ⟨hd, hv⟩, by rw [State.emitted_nil]⟩
  · cases e.symm.trans h
  · rw [e] at h
    generalize hb : (byteBits s.unpack.uhold).take (8 - s.unpack.upad.toNat) = bs at h
    rcases hu : uEmitAll s bs with e | u <;> rw [hu] at h <;> cases h
    obtain ⟨d, hf, rfl⟩ := uEmitAll_ok hu
    exact ⟨bs, false, d, hf, .inl ⟨hd, rfl⟩, rfl⟩

/-- The rule of `i` ends normally in `s` and leaves `u`. -/
inductive Effect : Instr → State → State → Prop where
  | nop (s) : Effect .nop s s
  | clr (s) : Effect .clr s s.clearAll
  | read {i s} (h : isRead i = true) : Effect i s s
  | fclr (s) : Effect .fclr s { s with tree := { s.tree with freq := .fill 256 0#32 }.invalidate }
  | ldf (s x n) : Effect (.ldf x n) s { s with tree := { s.tree with freq := s.tree.freq.set x.toFin n }.invalidate }
  | build {s} (hf : s.tree.noSymbols = false) : Effect .build s { s with tree := buildTree s.cfg s.tree }
  | gen {s g} (hv : s.tree.treeValid = true)
      (hg : genEntries s.tree { s.table.clearEntries with topen := false } = .ok g) :
      Effect .gen s { s with table := { g with nent := s.tree.nleaf, ctValid := true } }
  | tclr (s) :
      Effect .tclr s { s with table := { s.table.clearEntries with nent := 0#9, ctValid := false, topen := false } }
  | tsym {s x} (ho : s.table.topen = false) (hx : (s.table.entry x).v = false) :
      Effect (.tsym x) s { s with table := { s.table with topen := true, ts := x, tc := [], ctValid := false } }
  | tbit {s} (b) (ho : s.table.topen = true) (hl : s.table.tc.length < 255) :
      Effect (.tbit b) s { s with table := { s.table with tc := s.table.tc ++ [b] } }
  | tend {s} (ho : s.table.topen = true) (hc : s.table.tc ≠ []) :
      Effect .tend s { s with table :=
        { s.table.record s.table.ts s.table.tc with nent := s.table.nent + 1#9, topen := false } }
  | tchk {s} (ho : s.table.topen = false) (ha : ambig s.table.ct = false) :
      Effect .tchk s { s with table := { s.table with ctValid := true } }
  | pinit (s) : Effect .pinit s { s with pack :=
      { pstate := .active, pacc := 0#8, pnb := 0#3, pwp := 1#33, ppad := 0#3, pbitcnt := 0#64,
        pmem := s.pack.pmem.write 0 0#8 } }
  | pbit {s b p} (ha : s.pack.pstate = .active) (hp : pPush s.cfg s.pack b = .ok p) :
      Effect (.pbit b) s { s with pack := p }
  | enc {s x p} (ha : s.pack.pstate = .active) (hv : s.table.ctValid = true) (hx : (s.table.entry x).v = true)
      (hp : pPushAll s.cfg s.pack (s.table.entry x).code = .ok p) : Effect (.enc x) s { s with pack := p }
  | pflush {s p} (ha : s.pack.pstate = .active) (hp : flush s.cfg s.pack = .ok p) :
      Effect .pflush s { s with pack := p }
  | uinit {s} (m : Bool) (hm : m = true → s.table.ctValid = true) :
      Effect (.uinit m) s { s with
        unpack := { s.unpack with umode := m, ustate := .pad, upad := 0#3, uholdv := false, ubitcnt := 0#64 },
        dec := if m then s.dec.start else s.dec }
  | ubytePad {s v} (hu : s.unpack.ustate = .pad) (hv : v.toNat ≤ 7) :
      Effect (.ubyte v) s { s with unpack := { s.unpack with upad := v.setWidth 3, ustate := .data } }
  | ubyteData {s v bs d} (hu : s.unpack.ustate = .data) (hl : s.linked = true)
      (hb : bs = if s.unpack.uholdv then byteBits s.unpack.uhold else []) (hd : Feeds s bs d) :
      Effect (.ubyte v) s ({ s.emitted bs with dec := d }.hold v)
  | uend {s bs held d e} (ht : s.unpack.taking = true) (hl : s.linked = true) (hd : Feeds s bs d)
      (hh : s.unpack.ustate = .data ∧ held = false ∨ s.unpack.ustate ≠ .data ∧ held = s.unpack.uholdv)
      (he : s.unpack.umode = false ∧ e = d ∨
        s.unpack.umode = true ∧ d.dcand = [] ∧ e = { d with dstate := .done }) :
      Effect .uend s { s.emitted bs with
        unpack := { (s.emitted bs).unpack with ustate := .done, uholdv := held }, dec := e }
  | dinit {s} (hv : s.table.ctValid = true) : Effect .dinit s { s with dec := s.dec.start }
  | dbit {s b d} (hd : s.decoding = true) (hs : dStep s.cfg s.table s.dec b = .ok d) :
      Effect (.dbit b) s { s with dec := d }
  | dend {s d} (hr : s.dec.dstate = .run) (hd : dFinish s.dec = .ok d) : Effect .dend s { s with dec := d }

/-- A command under `command` that answers a next state: refused, faulted, or ended by its rule. -/
theorem command_next {w : CmdWord} {body : State → Except Stop (State × Data)} {s t : State}
    (h : command w body s = .next t) :
    (s.faulted = true ∧ t = s.refuseFaulted) ∨ (s.faulted = false ∧ ∃ e, t = s.raiseFault e w) ∨
      (s.faulted = false ∧ ∃ u d, body s = .ok (u, d) ∧ t = u.respond .ok d) := by
  rcases command_cases w body s with ⟨hf, hc⟩ | ⟨hf, ⟨u, d, hb, hc⟩ | ⟨e, -, hc⟩ | ⟨f, -, hc⟩⟩
  · exact .inl ⟨hf, by simpa [h] using hc⟩
  · exact .inr (.inr ⟨hf, u, d, hb, by simpa [h] using hc⟩)
  · exact .inr (.inl ⟨hf, e, by simpa [h] using hc⟩)
  · simp [h] at hc

/-- All that a command that answers a next state can do, for a command whose rule stands under `command`. -/
theorem command_effect {i : Instr} {body : State → Except Stop (State × Data)} {s t : State}
    (h : command (encode i) body s = .next t) (hb : ∀ u d, body s = .ok (u, d) → Effect i s u) :
    (s.faulted = true ∧ t = s.refuseFaulted) ∨ (s.faulted = false ∧ ∃ e, t = s.raiseFault e (encode i)) ∨
      (∃ u d, Effect i s u ∧ t = u.respond .ok d) :=
  (command_next h).imp_right (Or.imp_right fun ⟨_, u, d, hu, ht⟩ => ⟨u, d, hb u d hu, ht⟩)

/-- All that a command that answers a next state can do: it is refused, it records a fault, or its rule ends
normally and it responds with code `OK`. -/
theorem exec_cases {i : Instr} {s t : State} (h : exec i s = .next t) :
    (s.faulted = true ∧ t = s.refuseFaulted) ∨ (s.faulted = false ∧ ∃ e, t = s.raiseFault e (encode i)) ∨
      (∃ u d, Effect i s u ∧ t = u.respond .ok d) := by
  cases i with
  | nop => exact .inr (.inr ⟨s, _, .nop s, (Host.Outcome.next.inj h).symm⟩)
  | clr => exact .inr (.inr ⟨_, _, .clr s, (Host.Outcome.next.inj h).symm⟩)
  | rdsr n =>
    rcases hn : s.statusReg n with _ | d
    · have ht := Host.Outcome.next.inj ((exec_rdsr_illegal hn).symm.trans h)
      cases hf : s.faulted
      · exact .inr (.inl ⟨rfl, .ill, by simp [← ht, State.illegalWord, hf]⟩)
      · exact .inl ⟨rfl, by simp [← ht, State.illegalWord, hf]⟩
    · exact .inr (.inr ⟨s, d, .read rfl, (Host.Outcome.next.inj ((exec_rdsr hn).symm.trans h)).symm⟩)
  | fclr | ldf | tclr =>
    simp only [exec, execFclr, execLdf, execTclr] at h
    refine command_effect h fun u d hb => ?_
    cases hb
    constructor
  | rdf | rdcl | rdcw =>
    simp only [exec, execRdf, execRdcl, execRdcw] at h
    refine command_effect h fun u d hb => ?_
    cases hb
    exact .read rfl
  | rdn | rdnf =>
    simp only [exec, execRdn, execRdnf] at h
    refine command_effect h fun u d hb => ?_
    split at hb <;> cases hb
    exact .read rfl
  | rdp | rdo =>
    simp only [exec, execRdp, execRdo] at h
    refine command_effect h fun u d hb => ?_
    repeat' split at hb
    all_goals cases hb
    exact .read rfl
  | build =>
    simp only [exec, execBuild] at h
    refine command_effect h fun u d hb => ?_
    split at hb <;> cases hb
    exact .build (Bool.eq_false_iff.2 ‹_›)
  | gen =>
    simp only [exec, execGen] at h
    refine command_effect h fun u d hb => ?_
    repeat' split at hb
    all_goals cases hb
    exact .gen ‹_› ‹_›
  | tsym | tbit | tend | tchk =>
    simp only [exec, execTsym, execTbit, execTend, execTchk] at h
    refine command_effect h fun u d hb => ?_
    repeat' split at hb
    all_goals cases hb
    constructor <;> simp_all
  | pinit =>
    simp only [exec, execPinit] at h
    refine command_effect h fun u d hb => ?_
    simp only [storeByte_ok s.cfg.pmemBytes_pos] at hb
    cases hb
    exact .pinit s
  | pbit | pflush | dend =>
    simp only [exec, execPbit, execPflush, execDend] at h
    refine command_effect h fun u d hb => ?_
    repeat' split at hb
    all_goals cases hb
    constructor <;> assumption
  | enc =>
    simp only [exec, execEnc] at h
    refine command_effect h fun u d hb => ?_
    repeat' split at hb
    all_goals cases hb
    exact .enc (And.left ‹_›) (And.right ‹_›) ‹_› ‹_›
  | uinit m =>
    simp only [exec, execUinit] at h
    refine command_effect h fun u d hb => ?_
    split at hb <;> cases hb
    exact .uinit m (by simp_all)
  | ubyte =>
    simp only [exec, execUbyte] at h
    refine command_effect h fun u d hb => ?_
    split at hb
    · cases hb
    split at hb
    · cases hb
    split at hb <;> cases hb
    rename_i hk hl _ hr
    split at hr
    · obtain ⟨hv, rfl⟩ := takePadding_ok hr
      exact .ubytePad ‹_› hv
    · obtain ⟨bs, d, hb, hd, rfl⟩ := takeData_ok hr
      exact .ubyteData (by simp_all [Unpacker.taking]) (by simpa using hl) hb hd
  | uend =>
    simp only [exec, execUend] at h
    refine command_effect h fun u d hb => ?_
    repeat' split at hb
    all_goals cases hb
    rename_i hk hl _ t ht _ hu
    obtain ⟨bs, b, d, hf, hh, rfl⟩ := releaseLast_ok ht
    rcases endPayload_cases { s.emitted bs with
      unpack := { (s.emitted bs).unpack with uholdv := b }, dec := d } with ⟨hm, e⟩ | ⟨hm, hc, e⟩ | ⟨-, -, e⟩
    · cases e.symm.trans hu
      exact .uend (by simpa using hk) (by simpa using hl) hf hh (.inl ⟨hm, rfl⟩)
    · cases e.symm.trans hu
      exact .uend (by simpa using hk) (by simpa using hl) hf hh (.inr ⟨hm, hc, rfl⟩)
    · cases e.symm.trans hu
  | dinit =>
    simp only [exec, execDinit] at h
    refine command_effect h fun u d hb => ?_
    split at hb <;> cases hb
    exact .dinit ‹_›
  | dbit =>
    simp only [exec, execDbit] at h
    refine command_effect h fun u d hb => ?_
    repeat' split at hb
    all_goals cases hb
    exact .dbit ‹_› ‹_›

end Sys2Proof.Machine
end

section
/-! The rows of the table of R45, one lemma per flag, for a rule that ends normally. -/

namespace Sys2Proof.Machine

/-! ### What the micro-steps leave of the flags -/

@[simp] theorem buildTree_treeValid (c : Config) (t : TreeBuilder) : (buildTree c t).treeValid = true := rfl

theorem walk_topen {t : TreeBuilder} {k : Nat} {n : NodeIdx} {path : BitString} {g g' : CodeTable}
    (h : walk t k n path g = .ok g') : g'.topen = g.topen := by
  induction k generalizing n path g g' with
  | zero => cases h
  | succ k ih =>
    unfold walk at h
    split at h
    · cases h; rfl
    · split at h
      · split at h
        · cases h
        · rename_i g1 h1
          split at h
          · cases h
          · have e1 := ih h1
            exact (ih h).trans e1
      · cases h

theorem genEntries_topen {t : TreeBuilder} {g g' : CodeTable} (h : genEntries t g = .ok g') :
    g'.topen = g.topen := by
  unfold genEntries at h
  split at h
  · cases h; rfl
  · exact walk_topen h

theorem pPush_pstate {c : Config} {p q : Packer} {b : Bool} (h : pPush c p b = .ok q) : q.pstate = p.pstate := by
  rcases pPush_cases c p b with ⟨-, -, e⟩ | ⟨-, -, e⟩ | ⟨-, -, e⟩ | ⟨-, e⟩ <;> cases e.symm.trans h <;> rfl

/-- What one bit keeps, the bits of a code keep. -/
theorem pPushAll_induct {c : Config} {P : Packer → Prop} (hstep : ∀ p q b, pPush c p b = .ok q → P p → P q)
    {p q : Packer} {bs : BitString} (h : pPushAll c p bs = .ok q) (hp : P p) : P q := by
  induction bs generalizing p with
  | nil => cases h; exact hp
  | cons b bs ih =>
    rcases hb : pPush c p b with e | r
    · rw [pPushAll_cons_error hb] at h; cases h
    · rw [pPushAll_cons_ok hb] at h
      exact ih h (hstep p r b hb hp)

theorem pPushAll_pstate {c : Config} {p q : Packer} {bs : BitString} (h : pPushAll c p bs = .ok q) :
    q.pstate = p.pstate :=
  pPushAll_induct (P := fun r => r.pstate = p.pstate) (fun _ _ _ hr hp => (pPush_pstate hr).trans hp) h rfl

theorem flush_pstate {c : Config} {p q : Packer} (h : flush c p = .ok q) : q.pstate = .done := by
  rcases flush_cases c p with ⟨-, e⟩ | ⟨-, -, e⟩ | ⟨-, -, e⟩ | ⟨-, -, e⟩ <;> cases e.symm.trans h <;> rfl

theorem dStep_dstate {c : Config} {g : CodeTable} {d e : Decoder} {b : Bool} (h : dStep c g d b = .ok e) :
    e.dstate = d.dstate := by
  rcases dStep_cases c g d b with ⟨x, -, ⟨-, r⟩ | ⟨-, r⟩ | ⟨-, r⟩⟩ | ⟨-, -, r⟩ | ⟨-, -, r⟩ <;>
    cases r.symm.trans h <;> rfl

/-- What one bit keeps, a release keeps. -/
theorem dStepAll_induct {c : Config} {g : CodeTable} {P : Decoder → Prop}
    (hstep : ∀ d e b, dStep c g d b = .ok e → P d → P e)
    {d e : Decoder} {bs : BitString} (h : dStepAll c g d bs = .ok e) (hd : P d) : P e := by
  induction bs generalizing d with
  | nil => cases h; exact hd
  | cons b bs ih =>
    unfold dStepAll at h
    split at h
    · cases h
    · exact ih h (hstep _ _ _ ‹_› hd)

theorem Feeds.dstate {s : State} {bs : BitString} {d : Decoder} (h : Feeds s bs d) : d.dstate = s.dec.dstate := by
  rcases h with ⟨-, rfl⟩ | ⟨-, h⟩
  · rfl
  · exact dStepAll_induct (P := fun e => e.dstate = s.dec.dstate) (fun _ _ _ he hd => (dStep_dstate he).trans hd) h rfl

theorem dFinish_dstate {d e : Decoder} (h : dFinish d = .ok e) : e.dstate = .done := by
  rcases dFinish_cases d with ⟨-, r⟩ | ⟨-, r⟩ <;> cases r.symm.trans h
  rfl

/-! ### The rows -/

section
variable {i : Instr} {s u : State}

theorem Effect.treeValid_set (he : Effect i s u) (h0 : s.tree.treeValid = false) (h1 : u.tree.treeValid = true) :
    i = .build := by
  cases he with
  | build => rfl
  | _ => simp_all [TreeBuilder.reset]

theorem Effect.treeValid_cleared (he : Effect i s u) (h0 : s.tree.treeValid = true) (h1 : u.tree.treeValid = false) :
    i = .fclr ∨ (∃ x n, i = .ldf x n) ∨ i = .clr := by
  cases he with
  | fclr | ldf | clr => simp
  | _ => simp_all

theorem Effect.ctValid_set (he : Effect i s u) (h0 : s.table.ctValid = false) (h1 : u.table.ctValid = true) :
    i = .gen ∨ i = .tchk := by
  cases he with
  | gen | tchk => simp
  | _ => simp_all [CodeTable.reset]

theorem Effect.ctValid_cleared (he : Effect i s u) (h0 : s.table.ctValid = true) (h1 : u.table.ctValid = false) :
    i = .tclr ∨ (∃ x, i = .tsym x) ∨ i = .clr := by
  cases he with
  | tclr | tsym | clr => simp
  | _ => simp_all

theorem Effect.topen_set (he : Effect i s u) (h0 : s.table.topen = false) (h1 : u.table.topen = true) :
    ∃ x, i = .tsym x := by
  cases he with
  | tsym => exact ⟨_, rfl⟩
  | gen hv hg => simp [genEntries_topen hg] at h1
  | _ => simp_all [CodeTable.reset]

theorem Effect.topen_cleared (he : Effect i s u) (h0 : s.table.topen = true) (h1 : u.table.topen = false) :
    i = .tend ∨ i = .gen ∨ i = .tclr ∨ i = .clr := by
  cases he with
  | tend | gen | tclr | clr => simp
  | _ => simp_all

theorem Effect.pstate (he : Effect i s u) (h : u.pack.pstate ≠ s.pack.pstate) :
    (i = .pinit ∧ u.pack.pstate = .active) ∨ (i = .pflush ∧ u.pack.pstate = .done) ∨
      (i = .clr ∧ u.pack.pstate = .idle) := by
  cases he with
  | pinit | clr => simp [Packer.reset]
  | pflush _ hp => simp [flush_pstate hp]
  | pbit _ hp => exact absurd (pPush_pstate hp) h
  | enc _ _ _ hp => exact absurd (pPushAll_pstate hp) h
  | _ => exact absurd rfl h

theorem Effect.ustate (he : Effect i s u) (h : u.unpack.ustate ≠ s.unpack.ustate) :
    ((∃ m, i = .uinit m) ∧ u.unpack.ustate = .pad) ∨
      ((∃ v, i = .ubyte v) ∧ s.unpack.ustate = .pad ∧ u.unpack.ustate = .data) ∨
      (i = .uend ∧ u.unpack.ustate = .done) ∨ (i = .clr ∧ u.unpack.ustate = .idle) := by
  cases he with
  | uinit | clr | uend => simp [Unpacker.reset]
  | ubytePad hu => simp [hu]
  | _ => exact absurd rfl h

theorem Effect.umode (he : Effect i s u) (h : u.unpack.umode ≠ s.unpack.umode) :
    i = .uinit u.unpack.umode ∨ (i = .clr ∧ u.unpack.umode = false) := by
  cases he with
  | uinit | clr => simp [Unpacker.reset]
  | _ => exact absurd rfl h

theorem Effect.uholdv_set (he : Effect i s u) (h0 : s.unpack.uholdv = false) (h1 : u.unpack.uholdv = true) :
    (∃ v, i = .ubyte v) ∧ s.unpack.ustate = .data := by
  cases he with
  | ubyteData hu => exact ⟨⟨_, rfl⟩, hu⟩
  | uend _ _ _ hh => rcases hh with ⟨-, rfl⟩ | ⟨-, rfl⟩ <;> simp_all
  | _ => simp_all [Unpacker.reset]

theorem Effect.uholdv_cleared (he : Effect i s u) (h0 : s.unpack.uholdv = true) (h1 : u.unpack.uholdv = false) :
    (∃ m, i = .uinit m) ∨ i = .uend ∨ i = .clr := by
  cases he with
  | uinit | uend | clr => simp
  | _ => simp_all

theorem Effect.dstate (he : Effect i s u) (h : u.dec.dstate ≠ s.dec.dstate) :
    ((i = .dinit ∨ i = .uinit true) ∧ u.dec.dstate = .run) ∨
      ((i = .dend ∨ (i = .uend ∧ s.unpack.umode = true)) ∧ u.dec.dstate = .done) ∨
      (i = .clr ∧ u.dec.dstate = .idle) := by
  cases he with
  | dinit | clr => simp [Decoder.reset]
  | uinit m => cases m <;> simp_all
  | dend _ hd => simp [dFinish_dstate hd]
  | uend _ _ hd _ he =>
    rcases he with ⟨-, rfl⟩ | ⟨hm, -, rfl⟩
    · exact absurd hd.dstate h
    · simp [hm]
  | dbit _ hs => exact absurd (dStep_dstate hs) h
  | ubyteData _ _ _ hd => exact absurd hd.dstate h
  | _ => exact absurd rfl h

theorem Effect.err_cleared (he : Effect i s u) (h0 : s.flt.err ≠ none) (h1 : u.flt.err = none) : i = .clr := by
  cases he with
  | clr => rfl
  | _ => exact absurd h1 h0

theorem Effect.ub (he : Effect i s u) (h : u.port.ub ≠ s.port.ub) : (∃ v, i = .ubyte v) ∨ i = .uend := by
  cases he with
  | ubyteData | uend => simp
  | _ => exact absurd rfl h

end

/-- Settles O13: a refusal and a recorded fault leave every flag of R45 but `FAULT`; for a rule that ends normally
each conjunct is the flag's row. -/
theorem flagsChangeOnlyByTheirCommands : Obligations.FlagsChangeOnlyByTheirCommands := by
  intro s i t h
  rcases exec_cases h with ⟨-, rfl⟩ | ⟨-, e, rfl⟩ | ⟨u, d, he, rfl⟩
  · simp +contextual
  · simp +contextual
  · exact ⟨he.treeValid_set, he.treeValid_cleared, he.ctValid_set, he.ctValid_cleared, he.topen_set,
      he.topen_cleared, he.pstate, he.ustate, he.umode, he.uholdv_set, he.uholdv_cleared, he.dstate,
      he.err_cleared, he.ub⟩

end Sys2Proof.Machine
end

section
/-! The invariant of the machine after reset, and unit by unit under the micro-steps of the Bit Packer, the Decoder
and the entry commands of the Code Table. -/

namespace Sys2Proof.Machine

/-! ### Reset -/

theorem TreeInv.reset : TreeInv .reset where
  valid h := by cases h
  invalid _ := ⟨rfl, rfl⟩
  heap := rfl

@[simp] theorem CodeTable.reset_entry (x : Symbol) : CodeTable.reset.entry x = .blank := RegFile.get_fill 256 _ _

theorem CodeTable.liveCount_eq_zero {g : CodeTable} (h : ∀ x, (g.entry x).v = false) : g.liveCount = 0 := by
  refine List.countP_eq_zero.2 fun e he => ?_
  obtain ⟨j, rfl⟩ := (RegFile.mem_cells ..).1 he
  exact ne_true_of_eq_false (h (BitVec.ofFin j))

theorem TableInv.reset : TableInv .reset where
  lengths x h := by simp [CodeEntry.blank] at h
  prefixFree h := by cases h
  counted := (CodeTable.liveCount_eq_zero fun x => by simp [CodeEntry.blank]).symm
  opened h := by cases h
  scratch := Nat.zero_le _
  stack := rfl

theorem PackInv.reset (c : Config) : PackInv c .reset where
  canonical := List.Pairwise.nil
  inside a h := by cases h
  written a h := absurd h (Nat.not_lt_zero a)
  capacity := Nat.zero_le _
  idle _ := rfl
  active h := by cases h
  done h := by cases h

theorem DecInv.reset (c : Config) : DecInv c .reset where
  canonical := List.Pairwise.nil
  inside a h := by cases h
  written a h := absurd h (Nat.not_lt_zero a)
  capacity := Nat.zero_le _
  candidate := Nat.zero_le _
  atRest _ := rfl

/-- Reset values meet the invariant, whatever the parameters and the ports. -/
theorem EngineInv.clearAll (s : State) : EngineInv s.clearAll where
  tree := .reset
  table := .reset
  pack := .reset _
  unpack h := by cases h
  dec := .reset _
  flt _ := rfl

/-- Settles O58: the reset state is what `CLR` leaves under the default parameters. -/
theorem resetMeetsTheInvariant : Obligations.ResetMeetsTheInvariant := EngineInv.clearAll State.reset

/-! ### Memories -/

theorem Memory.isSome_read_write (m : Memory) (a b : Nat) (v : Byte) :
    ((m.write a v).read b).isSome = true ↔ b = a ∨ (m.read b).isSome = true := by
  rw [Memory.read_write]
  split <;> simp [*]

/-- A memory of `size` bytes in canonical form, with every byte below `n` written: what the two payload memories have
in common (R61, R62, R66). -/
structure FilledTo (size : Nat) (m : Memory) (n : Nat) : Prop where
  canonical : m.wf
  inside : ∀ a, (m.read a).isSome = true → a < size
  written : ∀ a, a < n → (m.read a).isSome = true

theorem PackInv.filled {c : Config} {p : Packer} (h : PackInv c p) : FilledTo c.pmemBytes p.pmem p.pwp.toNat :=
  { h with }

theorem DecInv.filled {c : Config} {d : Decoder} (h : DecInv c d) : FilledTo c.omemBytes.val d.omem d.ocnt.toNat :=
  { h with }

section
variable {size n : Nat} {m : Memory}

theorem FilledTo.write (h : FilledTo size m n) {a : Nat} (ha : a < size) (v : Byte) :
    FilledTo size (m.write a v) n where
  canonical := Memory.wf_write h.canonical a v
  inside b hb := by
    rcases (Memory.isSome_read_write ..).1 hb with rfl | hb
    · exact ha
    · exact h.inside b hb
  written b hb := (Memory.isSome_read_write ..).2 (.inr (h.written b hb))

/-- A byte written at the end makes room for one more. -/
theorem FilledTo.push (h : FilledTo size m n) (hn : n < size) (v : Byte) : FilledTo size (m.write n v) (n + 1) :=
  { h.write hn v with
    written := fun a ha => (Memory.isSome_read_write ..).2 <| by
      rcases Nat.lt_succ_iff_lt_or_eq.1 ha with ha | ha
      · exact .inr (h.written a ha)
      · exact .inl ha }

end

/-! ### Bit Packer -/

theorem PackInv.pinit {c : Config} {p : Packer} (h : PackInv c p) :
    PackInv c { pstate := .active, pacc := 0#8, pnb := 0#3, pwp := 1#33, ppad := 0#3, pbitcnt := 0#64,
                pmem := p.pmem.write 0 0#8 } :=
  { h.filled.write c.pmemBytes_pos 0#8 with
    written := fun a ha => (Memory.isSome_read_write ..).2 (.inl (by simpa using ha))
    capacity := c.pmemBytes_pos
    idle := nofun
    active := fun _ => by simp
    done := nofun }

/-- `PBITCNT` does not wrap while `PMEM` bounds the payload (R12 (e)). -/
theorem pbitcnt_succ {c : Config} {p : Packer} (h : p.pwp.toNat = 1 + p.pbitcnt.toNat / 8)
    (hc : p.pwp.toNat ≤ c.pmemBytes) : (p.pbitcnt + 1#64).toNat = p.pbitcnt.toNat + 1 := by
  have := c.pmemBytes_le
  rw [BitVec.toNat_add, BitVec.toNat_ofNat]
  omega

/-- `P_PUSH` on an active packer keeps its invariant (R182). -/
theorem PackInv.pPush {c : Config} {p q : Packer} {b : Bool} (h : pPush c p b = .ok q)
    (hi : PackInv c p ∧ p.pstate = .active) : PackInv c q ∧ q.pstate = .active := by
  obtain ⟨hi, ha⟩ := hi
  obtain ⟨hnb, hwp, hacc⟩ := hi.active ha
  have hcnt := pbitcnt_succ hwp hi.capacity
  refine ⟨?_, (pPush_pstate h).trans ha⟩
  rcases pPush_cases c p b with ⟨-, -, e⟩ | ⟨h7, hlt, e⟩ | ⟨-, -, e⟩ | ⟨h7, e⟩ <;> cases e.symm.trans h
  · have hsucc := pwp_succ hlt
    rw [h7] at hnb
    simp only [BitVec.toNat_ofNat] at hnb
    have hm := hi.filled.push hlt (shiftIn p.pacc b)
    rw [← hsucc] at hm
    exact
      { hm with
        capacity := by simp only [hsucc]; omega
        idle := fun h => by simp [ha] at h
        active := fun _ => by
          refine ⟨?_, ?_, by simp⟩
          · simp only [hcnt, BitVec.toNat_ofNat]; omega
          · simp only [hsucc, hcnt]; omega
        done := fun h => by simp [ha] at h }
  · have hne : p.pnb.toNat ≠ 7 := fun e => h7 (BitVec.eq_of_toNat_eq e)
    have hlt := p.pnb.isLt
    have hnb' : (p.pnb + 1#3).toNat = p.pnb.toNat + 1 := by
      rw [BitVec.toNat_add, BitVec.toNat_ofNat]
      omega
    have hb := Bool.toNat_le b
    exact
      { hi with
        idle := fun h => by simp [ha] at h
        active := fun _ => by
          simp only [hcnt, hnb', shiftIn_toNat, Nat.pow_succ]
          have := Nat.mod_le (2 * p.pacc.toNat + b.toNat) 256
          omega
        done := fun h => by simp [ha] at h }

theorem PackInv.pPushAll {c : Config} {p q : Packer} {bs : BitString} (h : pPushAll c p bs = .ok q)
    (hi : PackInv c p) (ha : p.pstate = .active) : PackInv c q :=
  (pPushAll_induct (P := fun r => PackInv c r ∧ r.pstate = .active) (fun _ _ _ => PackInv.pPush) h ⟨hi, ha⟩).1

/-- `PFLUSH` leaves a payload with the counts of R35 and its padding count at address 0 (R184). -/
theorem PackInv.flush {c : Config} {p q : Packer} (h : flush c p = .ok q) (hi : PackInv c p)
    (ha : p.pstate = .active) : PackInv c q := by
  obtain ⟨hnb, hwp, -⟩ := hi.active ha
  rcases flush_cases c p with ⟨hn, e⟩ | ⟨-, -, e⟩ | ⟨-, -, e⟩ | ⟨hn, hlt, e⟩ <;> cases e.symm.trans h
  · rw [hn] at hnb
    simp only [BitVec.toNat_ofNat] at hnb
    exact
      { hi.filled.write c.pmemBytes_pos 0#8 with
        capacity := hi.capacity
        idle := nofun
        active := nofun
        done := fun _ => ⟨rfl, rfl, by simp only; omega, by simp only [BitVec.toNat_ofNat]; omega, by simp⟩ }
  · have hsucc := pwp_succ hlt
    obtain ⟨hpad, hpos⟩ := padCount_of_ne hn
    have hlt8 := p.pnb.isLt
    have hm := (hi.filled.push hlt (p.pacc <<< padCount p)).write c.pmemBytes_pos (BitVec.ofNat 8 (padCount p))
    rw [← hsucc] at hm
    exact
      { hm with
        capacity := by simp only [hsucc]; omega
        idle := nofun
        active := nofun
        done := fun _ => by
          refine ⟨rfl, rfl, by simp only [hsucc]; omega, ?_, ?_⟩
          · simp only [hpad, BitVec.toNat_ofNat]; omega
          · simp only [Memory.read_write_self, hpad, Option.some.injEq]
            apply BitVec.eq_of_toNat_eq
            simp only [BitVec.toNat_ofNat, BitVec.toNat_setWidth]
            omega }

/-! ### Decoder -/

theorem DecInv.start {c : Config} {d : Decoder} (h : DecInv c d) : DecInv c d.start :=
  { h with
    written := fun a ha => absurd ha (Nat.not_lt_zero a)
    capacity := Nat.zero_le _
    candidate := Nat.zero_le _
    atRest := fun _ => rfl }

/-- `D_STEP` keeps the decoder's invariant: a candidate that stays is shorter than some code, so it has at most 254 bits
(R40, R222). -/
theorem DecInv.dStep {c : Config} {g : CodeTable} (hg : TableInv g) {d e : Decoder} {b : Bool}
    (h : dStep c g d b = .ok e) (hi : DecInv c d ∧ d.dstate = .run) : DecInv c e ∧ e.dstate = .run := by
  obtain ⟨hi, hr⟩ := hi
  refine ⟨?_, (dStep_dstate h).trans hr⟩
  rcases dStep_cases c g d b with ⟨x, -, ⟨-, r⟩ | ⟨hlt, r⟩ | ⟨-, r⟩⟩ | ⟨-, hx, r⟩ | ⟨-, -, r⟩ <;>
    cases r.symm.trans h
  · have hsucc := ocnt_succ hlt
    have hm := hi.filled.push hlt x
    rw [← hsucc] at hm
    exact
      { hm with
        capacity := by simp only [hsucc]; omega
        candidate := Nat.zero_le _
        atRest := fun _ => rfl }
  · obtain ⟨x, hv, hp, hne⟩ := extendable_iff.1 hx
    have hlt : (d.dcand ++ [b]).length < (g.entry x).code.length :=
      Nat.lt_of_le_of_ne hp.length_le fun e => hne (hp.eq_of_length e)
    exact
      { hi with
        candidate := Nat.le_of_lt_succ (Nat.lt_of_lt_of_le hlt (hg.lengths x hv).2)
        atRest := fun h => absurd hr h }

theorem DecInv.dFinish {c : Config} {d e : Decoder} (h : dFinish d = .ok e) (hi : DecInv c d) : DecInv c e := by
  rcases dFinish_cases d with ⟨hc, r⟩ | ⟨-, r⟩ <;> cases r.symm.trans h
  exact { hi with atRest := fun _ => hc }

/-- A release keeps the decoder's invariant: in mode 1 the link has put the decoder in `D_RUN` (R202, R203). -/
theorem DecInv.feeds {s : State} {bs : BitString} {d : Decoder} (hd : Feeds s bs d) (hl : s.linked = true)
    (hg : TableInv s.table) (hi : DecInv s.cfg s.dec) : DecInv s.cfg d := by
  rcases hd with ⟨-, rfl⟩ | ⟨hm, hd⟩
  · exact hi
  · have hr : s.dec.dstate = .run := by
      simp only [State.linked, State.decoding, hm, Bool.not_true, Bool.false_or, Bool.and_eq_true, beq_iff_eq] at hl
      exact hl.1
    exact (dStepAll_induct (P := fun e => DecInv s.cfg e ∧ e.dstate = .run) (fun _ _ _ => DecInv.dStep hg) hd
      ⟨hi, hr⟩).1

/-! ### Code Table -/

/-- Two register files that pass their tests at the same places have equally many registers that pass. -/
theorem RegFile.countP_congr {n : Nat} {α β : Type} (r : RegFile n α) (q : RegFile n β) {f : α → Bool} {g : β → Bool}
    (h : ∀ j, f (r.get j) = g (q.get j)) : r.cells.countP f = q.cells.countP g := by
  have e : r.cells.map f = q.cells.map g := by
    apply List.ext_getElem (by simp [r.size, q.size])
    intro j h1 h2
    simp only [List.getElem_map]
    exact h ⟨j, by simpa [r.size] using h1⟩
  simpa [List.countP_map, Function.comp_def] using congrArg (List.countP id) e

theorem CodeTable.liveCount_le (g : CodeTable) : g.liveCount ≤ 256 :=
  List.countP_le_length.trans_eq g.ct.size

theorem CodeTable.liveCount_record {g : CodeTable} {x : Symbol} (hx : (g.entry x).v = false) (c : BitString) :
    (g.record x c).liveCount = g.liveCount + 1 := by
  have hlt : x.toNat < g.ct.cells.length := by rw [g.ct.size]; exact x.isLt
  have hd : g.ct.cells[x.toNat].v = false := hx
  show (g.ct.cells.set x.toNat { v := true, code := c }).countP (fun e => e.v) = _
  rw [List.countP_set hlt]
  simp [hd, CodeTable.liveCount]

theorem CodeTable.clearEntries_dead (g : CodeTable) (x : Symbol) : (g.clearEntries.entry x).v = false := by
  rw [CodeTable.entry_clearEntries]

theorem TableInv.tclr {g : CodeTable} (h : TableInv g) :
    TableInv { g.clearEntries with nent := 0#9, ctValid := false, topen := false } where
  lengths x hx := absurd hx (ne_true_of_eq_false (g.clearEntries_dead x))
  prefixFree := nofun
  counted := (CodeTable.liveCount_eq_zero g.clearEntries_dead).symm
  opened := nofun
  scratch := h.scratch
  stack := h.stack

theorem TableInv.tsym {g : CodeTable} (h : TableInv g) {x : Symbol} (hx : (g.entry x).v = false) :
    TableInv { g with topen := true, ts := x, tc := [], ctValid := false } :=
  { h with
    prefixFree := nofun
    opened := fun _ => ⟨rfl, hx⟩
    scratch := Nat.zero_le _ }

theorem TableInv.tbit {g : CodeTable} (h : TableInv g) {b : Bool} (hl : g.tc.length < 255) :
    TableInv { g with tc := g.tc ++ [b] } :=
  { h with scratch := by simpa using hl }

/-- `TEND` adds one live entry, so `NENT` counts on (R159). -/
theorem TableInv.tend {g : CodeTable} (h : TableInv g) (ho : g.topen = true) (hc : g.tc ≠ []) :
    TableInv { g.record g.ts g.tc with nent := g.nent + 1#9, topen := false } := by
  obtain ⟨hv, hx⟩ := h.opened ho
  have hl := CodeTable.liveCount_record hx g.tc
  have hlen (y : Symbol) (hy : ((g.record g.ts g.tc).entry y).v = true) :
      1 ≤ ((g.record g.ts g.tc).entry y).code.length ∧ ((g.record g.ts g.tc).entry y).code.length ≤ 255 := by
    rw [CodeTable.entry_record] at hy ⊢
    split at hy
    · rw [if_pos ‹_›]
      exact ⟨List.length_pos_iff.2 hc, h.scratch⟩
    · rw [if_neg ‹_›]
      exact h.lengths y hy
  exact
    { lengths := hlen
      prefixFree := fun hv' => by simp [hv] at hv'
      counted := by
        have := (g.record g.ts g.tc).liveCount_le
        show (g.nent + 1#9).toNat = (g.record g.ts g.tc).liveCount
        rw [BitVec.toNat_add, BitVec.toNat_ofNat, h.counted]
        omega
      opened := nofun
      scratch := h.scratch
      stack := h.stack }

theorem TableInv.tchk {g : CodeTable} (h : TableInv g) (ho : g.topen = false) (ha : ambig g.ct = false) :
    TableInv { g with ctValid := true } :=
  { h with
    prefixFree := fun _ => not_not.1 fun hn => by simp [(ambig_iff g).2 hn] at ha
    opened := fun ho' => by simp [ho] at ho' }

end Sys2Proof.Machine
end

section
/-! `BUILD` leaves a tree (R25). Before the last merge the node store holds a forest whose roots are the pool; each
micro-step keeps the predicate `Forest`, and a forest with one root is a tree. The order in which the heap gives its
nodes out plays no part here. -/

namespace Sys2Proof.Machine

/-! ### Indices and counts -/

theorem internalIdx_toNat {k : Nat} (h : k < 256) : (internalIdx k).toNat = 256 + k := by
  rw [internalIdx, BitVec.toNat_ofNat]
  omega

theorem internalIdx_succ (k : Nat) : internalIdx k + 1#9 = internalIdx (k + 1) := by
  apply BitVec.eq_of_toNat_eq
  simp only [internalIdx, BitVec.toNat_add, BitVec.toNat_ofNat]
  omega

/-- A node from index 256 on is the node of some merge (R24). -/
theorem eq_internalIdx {n : NodeIdx} (h : 256 ≤ n.toNat) : n = internalIdx (n.toNat - 256) := by
  have := n.isLt
  apply BitVec.eq_of_toNat_eq
  rw [internalIdx_toNat (by omega)]
  omega

/-- The number of Symbols that occur, `NL` of R124. -/
def TreeBuilder.leafCount (t : TreeBuilder) : Nat := t.freq.cells.countP (fun n => n != 0#32)

/-- The sum of all counts (R25 (f)). -/
def TreeBuilder.totalCount (t : TreeBuilder) : Nat := (t.freq.cells.map BitVec.toNat).sum

theorem TreeBuilder.leafCount_le (t : TreeBuilder) : t.leafCount ≤ 256 :=
  List.countP_le_length.trans_eq t.freq.size

/-- The sum of all counts fits in a node frequency (R7: `FW` = 40). -/
theorem TreeBuilder.totalCount_lt (t : TreeBuilder) : t.totalCount < 2 ^ 40 := by
  have h : t.totalCount ≤ (t.freq.cells.map BitVec.toNat).length • (2 ^ 32 - 1) :=
    List.sum_le_card_nsmul _ _ fun m hm => by
      obtain ⟨n, -, rfl⟩ := List.mem_map.1 hm
      exact Nat.le_pred_of_lt n.isLt
  rw [List.length_map, t.freq.size, smul_eq_mul] at h
  omega

/-- The sum of the frequencies of the nodes in the pool. -/
def TreeBuilder.poolTotal (t : TreeBuilder) : Nat := (t.heap.map (fun n => (t.nodeAt n).f.toNat)).sum

/-! ### A merge, as a change of the node store -/

@[simp] theorem mergedNode_v (c : Config) (t : TreeBuilder) (x y : NodeIdx) : (mergedNode c t x y).v = true := by
  unfold mergedNode; split <;> rfl

@[simp] theorem mergedNode_f (c : Config) (t : TreeBuilder) (x y : NodeIdx) :
    (mergedNode c t x y).f = (t.nodeAt x).f + (t.nodeAt y).f := by
  unfold mergedNode; split <;> rfl

theorem mergedNode_links (c : Config) (t : TreeBuilder) (x y : NodeIdx) :
    (mergedNode c t x y).l = x ∧ (mergedNode c t x y).r = y ∨
      (mergedNode c t x y).l = y ∧ (mergedNode c t x y).r = x := by
  unfold mergedNode; split <;> simp

/-- `u` holds the nodes of `t` and, at the free entry `next`, the node that joins `x` and `y` (R126). -/
structure Joins (c : Config) (t u : TreeBuilder) (next x y : NodeIdx) : Prop where
  node : ∀ j, u.nodeAt j = if j = next then mergedNode c t x y else t.nodeAt j
  internal : 256 ≤ next.toNat
  free : (t.nodeAt next).v = false

section
variable {c : Config} {t u : TreeBuilder} {next x y : NodeIdx}

theorem Joins.next_ne (h : Joins c t u next x y) {n : NodeIdx} (hn : (t.nodeAt n).v = true) : n ≠ next := by
  rintro rfl
  simp [h.free] at hn

theorem Joins.at_next (h : Joins c t u next x y) : u.nodeAt next = mergedNode c t x y := by rw [h.node, if_pos rfl]

/-- A node that was live is as it was. -/
theorem Joins.at_live (h : Joins c t u next x y) {n : NodeIdx} (hn : (t.nodeAt n).v = true) :
    u.nodeAt n = t.nodeAt n := by
  rw [h.node, if_neg (h.next_ne hn)]

theorem Joins.live_iff (h : Joins c t u next x y) (n : NodeIdx) :
    (u.nodeAt n).v = true ↔ n = next ∨ (t.nodeAt n).v = true := by
  rw [h.node]
  split <;> simp [*]

/-- The children of the new node are `x` and `y`, and no other node has gained or lost a child. -/
theorem Joins.isChild_iff (h : Joins c t u next x y) (p n : NodeIdx) :
    u.IsChild p n ↔ (p = next ∧ (n = x ∨ n = y)) ∨ t.IsChild p n := by
  unfold TreeBuilder.IsChild
  rw [h.node]
  by_cases hp : p = next
  · subst hp
    rcases mergedNode_links c t x y with ⟨hl, hr⟩ | ⟨hl, hr⟩ <;>
      simp only [if_true, hl, hr, h.internal, h.free, mergedNode_v, true_and, Bool.false_eq_true, false_and, or_false] <;>
      grind
  · simp [hp]

end

/-! ### Forests -/

/-- The node store and the pool after `k` merges (R124 to R126): R25 (a) to (d), but that the nodes without a parent
are those of the pool; the pool shrinks by one with each merge and its frequencies always sum to all counts. -/
structure Forest (k : Nat) (t : TreeBuilder) : Prop where
  leaves : ∀ x, ((t.nodeAt (leafIdx x)).v = true ↔ t.freqAt x ≠ 0#32) ∧
    ((t.nodeAt (leafIdx x)).v = true → (t.nodeAt (leafIdx x)).f = (t.freqAt x).setWidth 40)
  internals : ∀ j, j < 255 → ((t.nodeAt (internalIdx j)).v = true ↔ j < k)
  children : ∀ n, 256 ≤ n.toNat → (t.nodeAt n).v = true →
    (t.nodeAt n).l < n ∧ (t.nodeAt n).r < n ∧ (t.nodeAt n).l ≠ (t.nodeAt n).r ∧
    (t.nodeAt (t.nodeAt n).l).v = true ∧ (t.nodeAt (t.nodeAt n).r).v = true ∧
    (t.nodeAt n).f.toNat = (t.nodeAt (t.nodeAt n).l).f.toNat + (t.nodeAt (t.nodeAt n).r).f.toNat
  parents : ∀ n, (t.nodeAt n).v = true → n ∉ t.heap → ∃ p, t.IsChild p n ∧ ∀ q, t.IsChild q n → q = p
  roots : ∀ n ∈ t.heap, (t.nodeAt n).v = true ∧ ∀ p, ¬ t.IsChild p n
  nodup : t.heap.Nodup
  count : t.heap.length + k = t.leafCount
  total : t.poolTotal = t.totalCount
  last : ∀ j, k = j + 1 → internalIdx j ∈ t.heap

/-- The nodes written so far are below the entry of the next merge. -/
theorem Forest.lt_of_live {k : Nat} {t : TreeBuilder} (h : Forest k t) {n : NodeIdx} (hn : (t.nodeAt n).v = true) :
    n.toNat < 256 + k := by
  by_contra hc
  have h256 : 256 ≤ n.toNat := by omega
  have h511 := TreeBuilder.lt_of_live hn
  rw [eq_internalIdx h256] at hn
  have := (h.internals _ (by omega)).1 hn
  omega

/-- A child of a live node is live. -/
theorem Forest.live_of_isChild {k : Nat} {t : TreeBuilder} (h : Forest k t) {p n : NodeIdx} (hp : t.IsChild p n) :
    (t.nodeAt n).v = true := by
  obtain ⟨h256, hv, hln⟩ := hp
  obtain ⟨-, -, -, hl, hr, -⟩ := h.children p h256 hv
  rcases hln with rfl | rfl
  · exact hl
  · exact hr

/-- One merge (R126): the pool of `t` is `x`, `y` and `rest`, that of `u` is the new node and `rest`. -/
structure Merges (c : Config) (k : Nat) (t u : TreeBuilder) (x y : NodeIdx) (rest : List NodeIdx) : Prop where
  joins : Joins c t u (internalIdx k) x y
  before : t.heap.Perm (x :: y :: rest)
  after : u.heap.Perm (internalIdx k :: rest)
  freq : u.freq = t.freq

/-- `B_MERGE` is a merge. -/
theorem Forest.bMerge_merges {k : Nat} {t : TreeBuilder} (h : Forest k t) (c : Config) (hp : 1 < t.heap.length) :
    k < 255 ∧ ∃ x y rest, Merges c k t (bMerge c (internalIdx k) t) x y rest := by
  have hk : k < 255 := by have := h.count; have := t.leafCount_le; omega
  have hidx := internalIdx_toNat (show k < 256 by omega)
  obtain ⟨x, y, rest, perm, -, -, -, hnode, hfreq, -, perm'⟩ := bMerge_spec c (next := internalIdx k) t hp
  refine ⟨hk, x, y, rest, ?_, perm, perm', hfreq⟩
  exact
    { node := fun j => (TreeBuilder.nodeAt_congr hnode j).trans (t.nodeAt_setNode (by omega) _ j)
      internal := by omega
      free := by simpa using mt (h.internals k hk).1 (lt_irrefl k) }

section
variable {c : Config} {k : Nat} {t u : TreeBuilder} {x y : NodeIdx} {rest : List NodeIdx}

/-- The two nodes that leave the pool, and those that stay, are roots. -/
theorem Merges.roots (m : Merges c k t u x y rest) (h : Forest k t) :
    ∀ n ∈ x :: y :: rest, (t.nodeAt n).v = true ∧ ∀ p, ¬ t.IsChild p n :=
  fun n hn => h.roots n (m.before.symm.subset hn)

theorem Merges.x_live (m : Merges c k t u x y rest) (h : Forest k t) : (t.nodeAt x).v = true :=
  (m.roots h x (by simp)).1

theorem Merges.y_live (m : Merges c k t u x y rest) (h : Forest k t) : (t.nodeAt y).v = true :=
  (m.roots h y (by simp)).1

theorem Merges.rest_live (m : Merges c k t u x y rest) (h : Forest k t) : ∀ n ∈ rest, (t.nodeAt n).v = true :=
  fun n hn => (m.roots h n (by simp [hn])).1

theorem Merges.nodup (m : Merges c k t u x y rest) (h : Forest k t) : (x :: y :: rest).Nodup :=
  m.before.nodup_iff.1 h.nodup

/-- The frequencies of the two nodes and of the rest of the pool sum to all counts. -/
theorem Merges.sum_eq (m : Merges c k t u x y rest) (h : Forest k t) :
    (t.nodeAt x).f.toNat + ((t.nodeAt y).f.toNat + (rest.map (fun n => (t.nodeAt n).f.toNat)).sum)
      = t.totalCount := by
  rw [← h.total, TreeBuilder.poolTotal, (m.before.map _).sum_eq]
  simp

/-- The sum that a merge writes does not wrap (R126). -/
theorem Merges.f_toNat (m : Merges c k t u x y rest) (h : Forest k t) :
    (u.nodeAt (internalIdx k)).f.toNat = (t.nodeAt x).f.toNat + (t.nodeAt y).f.toNat := by
  rw [m.joins.at_next, mergedNode_f, BitVec.toNat_add, Nat.mod_eq_of_lt]
  have := m.sum_eq h
  have := t.totalCount_lt
  omega

theorem Merges.children (m : Merges c k t u x y rest) (h : Forest k t) (hk : k < 255) :
    ∀ n, 256 ≤ n.toNat → (u.nodeAt n).v = true →
      (u.nodeAt n).l < n ∧ (u.nodeAt n).r < n ∧ (u.nodeAt n).l ≠ (u.nodeAt n).r ∧
      (u.nodeAt (u.nodeAt n).l).v = true ∧ (u.nodeAt (u.nodeAt n).r).v = true ∧
      (u.nodeAt n).f.toNat = (u.nodeAt (u.nodeAt n).l).f.toNat + (u.nodeAt (u.nodeAt n).r).f.toNat := by
  intro n h256 hn
  rcases (m.joins.live_iff n).1 hn with rfl | hn
  · have hxv := m.x_live h
    have hyv := m.y_live h
    have hxl := h.lt_of_live hxv
    have hyl := h.lt_of_live hyv
    have hxy : x ≠ y := fun e => (List.nodup_cons.1 (m.nodup h)).1 (by simp [e])
    rw [m.f_toNat h, m.joins.at_next, BitVec.lt_def, BitVec.lt_def, internalIdx_toNat (by omega)]
    rcases mergedNode_links c t x y with ⟨hl, hr⟩ | ⟨hl, hr⟩ <;>
      rw [hl, hr, m.joins.at_live hxv, m.joins.at_live hyv]
    · exact ⟨hxl, hyl, hxy, hxv, hyv, rfl⟩
    · exact ⟨hyl, hxl, hxy.symm, hyv, hxv, Nat.add_comm _ _⟩
  · obtain ⟨hl, hr, hlr, hlv, hrv, hs⟩ := h.children n h256 hn
    rw [m.joins.at_live hn, m.joins.at_live hlv, m.joins.at_live hrv]
    exact ⟨hl, hr, hlr, hlv, hrv, hs⟩

/-- `x` and `y` have the new node as their one parent; the other nodes keep theirs. -/
theorem Merges.parents (m : Merges c k t u x y rest) (h : Forest k t) :
    ∀ n, (u.nodeAt n).v = true → n ∉ u.heap → ∃ p, u.IsChild p n ∧ ∀ q, u.IsChild q n → q = p := by
  intro n hn hnot
  simp only [m.after.mem_iff, List.mem_cons, not_or] at hnot
  obtain ⟨hne, hnr⟩ := hnot
  by_cases hxy : n = x ∨ n = y
  · refine ⟨internalIdx k, (m.joins.isChild_iff ..).2 (.inl ⟨rfl, hxy⟩), fun q hq => ?_⟩
    rcases (m.joins.isChild_iff ..).1 hq with ⟨hq, -⟩ | hq
    · exact hq
    · exact absurd hq ((m.roots h n (by rcases hxy with rfl | rfl <;> simp)).2 q)
  · have hnv := ((m.joins.live_iff n).1 hn).resolve_left hne
    have hout : n ∉ t.heap := by
      rw [m.before.mem_iff]
      simpa [hnr] using hxy
    obtain ⟨p, hp, hu⟩ := h.parents n hnv hout
    refine ⟨p, (m.joins.isChild_iff ..).2 (.inr hp), fun q hq => ?_⟩
    rcases (m.joins.isChild_iff ..).1 hq with ⟨-, hq⟩ | hq
    · exact absurd hq hxy
    · exact hu q hq

/-- The new node and the rest of the pool have no parent. -/
theorem Merges.roots_after (m : Merges c k t u x y rest) (h : Forest k t) :
    ∀ n ∈ u.heap, (u.nodeAt n).v = true ∧ ∀ p, ¬ u.IsChild p n := by
  have hnd := m.nodup h
  simp only [List.nodup_cons, List.mem_cons, not_or] at hnd
  obtain ⟨⟨-, hxr⟩, hyr, -⟩ := hnd
  intro n hn
  rcases List.mem_cons.1 (m.after.subset hn) with rfl | hn
  · refine ⟨(m.joins.live_iff _).2 (.inl rfl), fun p hp => ?_⟩
    rcases (m.joins.isChild_iff ..).1 hp with ⟨-, rfl | rfl⟩ | hp
    · exact m.joins.next_ne (m.x_live h) rfl
    · exact m.joins.next_ne (m.y_live h) rfl
    · exact m.joins.next_ne (h.live_of_isChild hp) rfl
  · refine ⟨(m.joins.live_iff n).2 (.inr (m.rest_live h n hn)), fun p hp => ?_⟩
    rcases (m.joins.isChild_iff ..).1 hp with ⟨-, rfl | rfl⟩ | hp
    · exact hxr hn
    · exact hyr hn
    · exact (m.roots h n (by simp [hn])).2 p hp

theorem Merges.total (m : Merges c k t u x y rest) (h : Forest k t) : u.poolTotal = u.totalCount := by
  have hrest : rest.map (fun n => (u.nodeAt n).f.toNat) = rest.map (fun n => (t.nodeAt n).f.toNat) :=
    List.map_congr_left fun n hn => by rw [m.joins.at_live (m.rest_live h n hn)]
  calc u.poolTotal
    _ = (u.nodeAt (internalIdx k)).f.toNat + (rest.map (fun n => (u.nodeAt n).f.toNat)).sum := by
      rw [TreeBuilder.poolTotal, (m.after.map _).sum_eq, List.map_cons, List.sum_cons]
    _ = t.totalCount := by rw [m.f_toNat h, hrest, Nat.add_assoc, m.sum_eq h]
    _ = u.totalCount := by rw [TreeBuilder.totalCount, TreeBuilder.totalCount, m.freq]

/-- A merge keeps the forest (R126). -/
theorem Merges.forest (m : Merges c k t u x y rest) (h : Forest k t) (hk : k < 255) : Forest (k + 1) u where
  leaves s := by
    have hne : leafIdx s ≠ internalIdx k := fun e => by
      have := congrArg BitVec.toNat e
      rw [leafIdx_toNat, internalIdx_toNat (by omega)] at this
      omega
    rw [m.joins.node, if_neg hne, TreeBuilder.freqAt_congr m.freq]
    exact h.leaves s
  internals j hj := by
    rw [m.joins.live_iff, h.internals j hj, Nat.lt_succ_iff_lt_or_eq, or_comm]
    refine or_congr_right ⟨fun e => ?_, fun e => e ▸ rfl⟩
    have := congrArg BitVec.toNat e
    rw [internalIdx_toNat (by omega), internalIdx_toNat (by omega)] at this
    omega
  children := m.children h hk
  parents := m.parents h
  roots := m.roots_after h
  nodup := by
    refine m.after.nodup_iff.2 (List.nodup_cons.2 ⟨fun hn => m.joins.next_ne (m.rest_live h _ hn) rfl, ?_⟩)
    exact (List.nodup_cons.1 (List.nodup_cons.1 (m.nodup h)).2).2
  count := by
    have h1 := m.before.length_eq
    have h2 := m.after.length_eq
    have h3 := h.count
    simp only [TreeBuilder.leafCount, List.length_cons, m.freq] at h1 h2 h3 ⊢
    omega
  total := m.total h
  last j hj := by
    cases hj
    exact m.after.symm.subset (by simp)

end

/-- The merges end with one root (R123). -/
theorem Forest.merges {k : Nat} {t : TreeBuilder} (h : Forest k t) (c : Config) (fuel : Nat)
    (h0 : 0 < t.heap.length) (hfuel : t.heap.length ≤ fuel + 1) :
    ∃ m, Forest m (bMerges c fuel (internalIdx k) t) ∧ (bMerges c fuel (internalIdx k) t).heap.length = 1 ∧
      (bMerges c fuel (internalIdx k) t).freq = t.freq := by
  induction fuel generalizing k t with
  | zero => exact ⟨k, h, Nat.le_antisymm hfuel h0, rfl⟩
  | succ fuel ih =>
    unfold bMerges
    split
    · rename_i hp
      obtain ⟨hk, x, y, rest, m⟩ := h.bMerge_merges c hp
      have h1 := m.before.length_eq
      have h2 := m.after.length_eq
      simp only [List.length_cons] at h1 h2
      rw [internalIdx_succ]
      obtain ⟨j, hf, hl, he⟩ := ih (m.forest h hk) (by omega) (by omega)
      exact ⟨j, hf, hl, he.trans m.freq⟩
    · exact ⟨k, h, by omega, rfl⟩

/-- A forest with one root is a tree (R127). -/
theorem Forest.finish {k : Nat} {t : TreeBuilder} (h : Forest k t) (h1 : t.heap.length = 1) :
    (bFinish t.leafCount t).IsTree := by
  obtain ⟨r, hr⟩ := List.length_eq_one_iff.1 h1
  have hroot : (bFinish t.leafCount t).root = r := by simp [bFinish, heapAt, hr]
  have hnl : (bFinish t.leafCount t).nleaf.toNat = 1 + k := by
    have h2 := h.count
    have h3 := t.leafCount_le
    show (BitVec.ofNat 9 t.leafCount).toNat = _
    rw [BitVec.toNat_ofNat]
    omega
  have hle : 1 + k ≤ 256 := by have := h.count; have := t.leafCount_le; omega
  obtain ⟨hrv, hrp⟩ := h.roots r (by simp [hr])
  refine ⟨h.leaves, fun j hj => ?_, h.children, fun n hn hne => ?_, ?_, ?_, ?_, ?_⟩
  · rw [hnl, Nat.add_comm 1 k, Nat.add_lt_add_iff_right]
    exact h.internals j hj
  · rw [hroot] at hne
    exact h.parents n hn (by simpa [hr] using hne)
  · rw [hroot]; exact hrp
  · rw [hroot, hnl]
    refine ⟨hrv, by omega, hle, fun h2 => ?_, fun h2 => ?_⟩
    · have hlast := h.last (k - 1) (by omega)
      rw [hr, List.mem_singleton] at hlast
      rw [← hlast, internalIdx_toNat (by omega)]
      omega
    · have := h.lt_of_live hrv
      omega
  · rw [hnl]
    have := h.count
    rw [h1] at this
    exact this.symm
  · rw [hroot]
    have := h.total
    rwa [TreeBuilder.poolTotal, hr, List.map_singleton, List.sum_singleton] at this

/-! ### The leaves -/

/-- The node store and the pool when the counts `pre` of the first Symbols have been planted (R124). -/
structure Planted (pre : List Count) (t : TreeBuilder) : Prop where
  mem : ∀ n, n ∈ t.heap ↔ pre.getD n.toNat 0#32 ≠ 0#32
  live : ∀ n, (t.nodeAt n).v = true ↔ n ∈ t.heap
  value : ∀ n ∈ t.heap, (t.nodeAt n).f = (pre.getD n.toNat 0#32).setWidth 40
  nodup : t.heap.Nodup
  count : t.heap.length = pre.countP (fun n => n != 0#32)
  total : t.poolTotal = (pre.map BitVec.toNat).sum

theorem getD_concat {α : Type} (l : List α) (a d : α) (j : Nat) :
    (l ++ [a]).getD j d = if j = l.length then a else l.getD j d := by
  grind

/-- One turn of the loop of `B_INIT` (R124). -/
theorem Planted.initLeaf {pre : List Count} {t : TreeBuilder} (h : Planted pre t) (c : Config) (a : Count)
    (hl : pre.length < 256) : Planted (pre ++ [a]) (initLeaf c t pre.length a) := by
  have hend : pre.getD pre.length 0#32 = 0#32 := by simp
  unfold Machine.initLeaf
  split
  · rename_i h0
    have hsame (j : Nat) : (pre ++ [a]).getD j 0#32 = pre.getD j 0#32 := by
      rw [getD_concat]
      split
      · rw [‹j = _›, hend, h0]
      · rfl
    exact
      { mem := fun n => by rw [hsame]; exact h.mem n
        live := h.live
        value := fun n hn => by rw [hsame]; exact h.value n hn
        nodup := h.nodup
        count := by simp [h.count, h0]
        total := by simp [h.total, h0] }
  · rename_i h0
    generalize hi : BitVec.ofNat 9 pre.length = i
    have hit : i.toNat = pre.length := by rw [← hi, BitVec.toNat_ofNat]; omega
    have heq (n : NodeIdx) : n.toNat = pre.length ↔ n = i := by rw [← hit, BitVec.toNat_inj]
    have hni : i ∉ t.heap := by rw [h.mem, hit, hend]; simp
    generalize hu : t.setNode i { v := true, f := a.setWidth 40, l := 0#9, r := 0#9 } = u
    have hnode (n : NodeIdx) : u.nodeAt n = if n = i then { v := true, f := a.setWidth 40, l := 0#9, r := 0#9 }
        else t.nodeAt n := by
      rw [← hu]; exact t.nodeAt_setNode (by omega) _ n
    have hheap : u.heap = t.heap := by rw [← hu, TreeBuilder.setNode_heap]
    have perm : (heapInsert (u.before c) u.heap i).Perm (i :: t.heap) := hheap ▸ heapInsert_perm ..
    have hmem (n : NodeIdx) : n ∈ heapInsert (u.before c) u.heap i ↔ n = i ∨ n ∈ t.heap := by
      rw [perm.mem_iff, List.mem_cons]
    refine ⟨fun n => ?_, fun n => ?_, fun n hn => ?_, ?_, ?_, ?_⟩
    · simp only [hmem, getD_concat, heq, h.mem]
      split <;> simp [*]
    · show (u.nodeAt n).v = true ↔ _
      simp only [hmem, hnode, ← h.live]
      split <;> simp [*]
    · show (u.nodeAt n).f = _
      simp only [getD_concat, heq, hnode]
      split
      · rfl
      · exact h.value n (((hmem n).1 hn).resolve_left ‹_›)
    · exact perm.nodup_iff.2 (List.nodup_cons.2 ⟨hni, h.nodup⟩)
    · show (heapInsert (u.before c) u.heap i).length = _
      rw [perm.length_eq]
      simp [h.count, h0]
    · have hold : t.heap.map (fun n => (u.nodeAt n).f.toNat) = t.heap.map (fun n => (t.nodeAt n).f.toNat) :=
        List.map_congr_left fun n hn => by rw [hnode, if_neg (show n ≠ i from fun e => hni (e ▸ hn))]
      have ha : (a.setWidth 40).toNat = a.toNat := by
        rw [BitVec.toNat_setWidth]
        have := a.isLt
        omega
      show ((heapInsert (u.before c) u.heap i).map (fun n => (u.nodeAt n).f.toNat)).sum = _
      rw [(perm.map _).sum_eq, List.map_cons, List.sum_cons, hold, hnode, if_pos rfl, ha, ← TreeBuilder.poolTotal,
        h.total]
      simp [Nat.add_comm]

theorem Planted.initLeaves {pre : List Count} {t : TreeBuilder} (h : Planted pre t) (c : Config) (ns : List Count)
    (hl : pre.length + ns.length ≤ 256) : Planted (pre ++ ns) (initLeaves c ns pre.length t) := by
  induction ns generalizing pre t with
  | nil => simpa [Machine.initLeaves] using h
  | cons a ns ih =>
    simp only [List.length_cons] at hl
    have := ih (h.initLeaf c a (by omega)) (by simp; omega)
    simpa [Machine.initLeaves] using this

theorem initLeaf_freq (c : Config) (t : TreeBuilder) (x : Nat) (a : Count) : (initLeaf c t x a).freq = t.freq := by
  unfold initLeaf
  split
  · rfl
  · exact TreeBuilder.setNode_freq ..

theorem initLeaves_freq (c : Config) (ns : List Count) (x : Nat) (t : TreeBuilder) :
    (initLeaves c ns x t).freq = t.freq := by
  induction ns generalizing x t with
  | nil => rfl
  | cons a ns ih => exact (ih _ _).trans (initLeaf_freq ..)

theorem bInit_freq (c : Config) (t : TreeBuilder) : (bInit c t).freq = t.freq := initLeaves_freq ..

theorem bInit_planted (c : Config) (t : TreeBuilder) : Planted t.freq.cells (bInit c t) := by
  have h : Planted [] { t with node := t.node.map (fun n => { n with v := false }), heap := [] } :=
    { mem := by simp
      live := fun n => by rw [TreeBuilder.nodeAt_unlive]; simp
      value := by simp
      nodup := List.nodup_nil
      count := rfl
      total := rfl }
  exact h.initLeaves c t.freq.cells (by simp [t.freq.size])

theorem TreeBuilder.freqAt_eq_getD (t : TreeBuilder) (x : Symbol) : t.freqAt x = t.freq.cells.getD x.toNat 0#32 := by
  have := t.freq.cells_getElem? x.toFin
  rw [List.getD_eq_getElem?_getD]
  exact (congrArg (Option.getD · 0#32) this).symm

/-- `B_INIT` leaves a forest of single leaves (R124). -/
theorem bInit_forest (c : Config) (t : TreeBuilder) : Forest 0 (bInit c t) := by
  have h := bInit_planted c t
  rw [← bInit_freq c t] at h
  generalize bInit c t = u at h
  have hlive (n : NodeIdx) (hn : (u.nodeAt n).v = true) : n.toNat < 256 := by
    by_contra hc
    refine (h.mem n).1 ((h.live n).1 hn) ?_
    rw [List.getD_eq_getElem?_getD, List.getElem?_eq_none (by rw [u.freq.size]; omega)]
    rfl
  have hnochild (p n : NodeIdx) : ¬ u.IsChild p n := fun ⟨h256, hv, _⟩ => by have := hlive p hv; omega
  refine ⟨fun x => ?_, fun j hj => ?_, fun n h256 hn => ?_, fun n hn hnot => ?_, fun n hn => ?_, h.nodup, h.count,
    h.total, nofun⟩
  · rw [TreeBuilder.freqAt_eq_getD, h.live, h.mem, leafIdx_toNat]
    refine ⟨Iff.rfl, fun hx => ?_⟩
    rw [h.value _ ((h.mem _).2 (by rwa [leafIdx_toNat])), leafIdx_toNat]
  · refine iff_of_false (fun hv => ?_) (Nat.not_lt_zero j)
    have := hlive _ hv
    rw [internalIdx_toNat (by omega)] at this
    omega
  · have := hlive n hn
    omega
  · exact absurd ((h.live n).1 hn) hnot
  · exact ⟨(h.live n).2 hn, fun p => hnochild p n⟩

/-! ### The tree -/

/-- `BUILD` on a Frequency Table that is not empty leaves a tree (R25, R123). -/
theorem buildTree_isTree (c : Config) {t : TreeBuilder} (h : t.noSymbols = false) : (buildTree c t).IsTree := by
  have hf := bInit_forest c t
  have hc : (bInit c t).heap.length = (bInit c t).leafCount := hf.count
  have h0 : 0 < (bInit c t).heap.length := by
    rw [hc, TreeBuilder.leafCount, bInit_freq, List.countP_pos_iff]
    simpa [TreeBuilder.noSymbols] using h
  obtain ⟨m, hm, hl, he⟩ := hf.merges c (bInit c t).heap.length h0 (Nat.le_succ _)
  have hfin := hm.finish hl
  rw [TreeBuilder.leafCount, he, ← TreeBuilder.leafCount, ← hc] at hfin
  exact hfin

theorem TreeInv.buildTree (c : Config) {t : TreeBuilder} (h : t.noSymbols = false) : TreeInv (buildTree c t) where
  valid _ := buildTree_isTree c h
  invalid := nofun
  heap := rfl

theorem TreeInv.invalidate {t : TreeBuilder} (h : t.heap = []) : TreeInv t.invalidate where
  valid := nofun
  invalid _ := ⟨rfl, rfl⟩
  heap := h

end Sys2Proof.Machine
end

section
/-! `GEN` from a valid tree leaves a table with the invariant (R31, R151): its codes are paths from the root to the
live leaves, so none begins another, and there are `NLEAF` of them. -/

namespace Sys2Proof.Machine

variable {t : TreeBuilder}

/-- A child has a smaller index than its parent (R25 (c)). -/
theorem TreeBuilder.IsTree.lt_of_isChild (h : t.IsTree) {p n : NodeIdx} (hp : t.IsChild p n) : n < p := by
  obtain ⟨h256, hv, hln⟩ := hp
  obtain ⟨hl, hr, -⟩ := h.children p h256 hv
  rcases hln with rfl | rfl
  · exact hl
  · exact hr

/-- One bit leads from a parent to its child (R101). -/
theorem TreeBuilder.IsChild.follow {p n : NodeIdx} (hp : t.IsChild p n) : ∃ b, t.follow p [b] = some n := by
  obtain ⟨h256, -, hln⟩ := hp
  rcases hln with rfl | rfl
  · exact ⟨false, by simp [TreeBuilder.follow_cons h256]⟩
  · exact ⟨true, by simp [TreeBuilder.follow_cons h256]⟩

/-- Every live node of a tree is reached from the root: indices rise from a node to its parent, so the way up
ends. -/
theorem TreeBuilder.IsTree.reached (h : t.IsTree) (k : Nat) {n : NodeIdx} (hk : 511 ≤ n.toNat + k)
    (hv : (t.nodeAt n).v = true) : ∃ c, t.follow t.root c = some n := by
  induction k generalizing n with
  | zero => exact absurd (TreeBuilder.lt_of_live hv) (by omega)
  | succ k ih =>
    by_cases hr : n = t.root
    · exact ⟨[], by rw [hr, TreeBuilder.follow_nil]⟩
    · obtain ⟨p, hp, -⟩ := h.parents n hv hr
      have hlt := h.lt_of_isChild hp
      rw [BitVec.lt_def] at hlt
      obtain ⟨c, hc⟩ := ih (by omega) hp.2.1
      obtain ⟨b, hb⟩ := hp.follow
      exact ⟨c ++ [b], by rw [TreeBuilder.follow_append, hc, Option.bind_some, hb]⟩

/-- The leaves reached from the root are those of the Symbols that occur (R25 (a)). -/
theorem TreeBuilder.IsTree.reached_iff (h : t.IsTree) (x : Symbol) :
    (∃ c, t.follow t.root c = some (leafIdx x)) ↔ t.freqAt x ≠ 0#32 := by
  rw [← (h.leaves x).1]
  exact ⟨fun ⟨c, hc⟩ => (h.descends.follow_live h.rootAt.1 hc).1, h.reached 511 (by omega)⟩

/-- What `GEN` leaves of the entries (R151, R152): a Symbol whose leaf is reached has a path to it as its code, or
`LEAF1` when the leaf is the root; every other entry is as before. -/
theorem genEntries_spec (h : t.IsTree) (g : CodeTable) :
    ∃ g', genEntries t g = .ok g' ∧ g'.wstk = g.wstk ∧ g'.topen = g.topen ∧ g'.tc = g.tc ∧
      ∀ x, (∃ d, t.follow t.root d = some (leafIdx x) ∧
          g'.entry x = { v := true, code := if t.root.toNat < 256 then leaf1 else d }) ∨
        ((∀ d, t.follow t.root d ≠ some (leafIdx x)) ∧ g'.entry x = g.entry x) := by
  unfold genEntries
  by_cases hl : t.root.toNat < 256
  · simp only [if_pos hl]
    refine ⟨_, rfl, rfl, rfl, rfl, fun x => ?_⟩
    rw [CodeTable.entry_record]
    by_cases hx : leafIdx x = t.root
    · exact .inl ⟨[], by rw [TreeBuilder.follow_nil, hx],
        if_pos (leafIdx_inj.1 (hx.trans (leafIdx_setWidth hl).symm))⟩
    · refine .inr ⟨fun d hd => hx (TreeBuilder.follow_leaf hl hd).2, if_neg ?_⟩
      rintro rfl
      exact hx (leafIdx_setWidth hl)
  · simp only [if_neg hl]
    have hroot := TreeBuilder.lt_of_live h.rootAt.1
    obtain ⟨g', e, hw, -, -, ho, -, hc, hx⟩ :=
      walk_spec h.descends 256 t.root [] g h.rootAt.1 (by omega) (by omega)
    exact ⟨g', e, hw, ho, hc, hx⟩

/-- A path from an internal root to a leaf has 1 to 255 bits. -/
theorem TreeBuilder.IsTree.path_length (h : t.IsTree) (hr : ¬ t.root.toNat < 256) {x : Symbol} {d : BitString}
    (hd : t.follow t.root d = some (leafIdx x)) : 1 ≤ d.length ∧ d.length ≤ 255 := by
  have hne : d ≠ [] := by
    rintro rfl
    rw [TreeBuilder.follow_nil, Option.some.injEq] at hd
    rw [hd, leafIdx_toNat] at hr
    exact hr x.isLt
  have := h.descends.follow_length h.rootAt.1 hd hne
  have := TreeBuilder.lt_of_live h.rootAt.1
  exact ⟨List.length_pos_iff.2 hne, by omega⟩

/-- No path to a leaf begins a path to another leaf. -/
theorem TreeBuilder.eq_of_path_prefix {n : NodeIdx} {x y : Symbol} {c d : BitString}
    (hc : t.follow n c = some (leafIdx x)) (hd : t.follow n d = some (leafIdx y)) (hp : c <+: d) : x = y := by
  obtain ⟨e, rfl⟩ := hp
  rw [TreeBuilder.follow_append, hc, Option.bind_some] at hd
  have hx : (leafIdx x).toNat < 256 := by rw [leafIdx_toNat]; exact x.isLt
  exact (leafIdx_inj.1 (TreeBuilder.follow_leaf hx hd).2).symm

section
variable {g g' : CodeTable}

/-- In a table that was cleared, every live entry holds a path to its leaf, or `LEAF1`. -/
theorem genEntries_code (h : t.IsTree) (hdead : ∀ x, (g.entry x).v = false) (hg : genEntries t g = .ok g')
    {x : Symbol} (hv : (g'.entry x).v = true) : ∃ d, t.follow t.root d = some (leafIdx x) ∧
      (g'.entry x).code = if t.root.toNat < 256 then leaf1 else d := by
  obtain ⟨g1, e, -, -, -, hx⟩ := genEntries_spec h g
  cases e.symm.trans hg
  rcases hx x with ⟨d, hd, he⟩ | ⟨-, he⟩
  · exact ⟨d, hd, by rw [he]⟩
  · simp [he, hdead] at hv

/-- In a table that was cleared, the live entries are those of the Symbols that occur. -/
theorem genEntries_live (h : t.IsTree) (hdead : ∀ x, (g.entry x).v = false) (hg : genEntries t g = .ok g')
    (x : Symbol) : (g'.entry x).v = (t.freqAt x != 0#32) := by
  obtain ⟨g1, e, -, -, -, hx⟩ := genEntries_spec h g
  cases e.symm.trans hg
  have hiff := h.reached_iff x
  rcases hx x with ⟨d, hd, he⟩ | ⟨hd, he⟩
  · simpa [he] using hiff.1 ⟨d, hd⟩
  · simpa [he, hdead, hd] using hiff

/-- No code that `GEN` writes begins another (R31, R153). -/
theorem genEntries_prefixFree (h : t.IsTree) (hdead : ∀ x, (g.entry x).v = false) (hg : genEntries t g = .ok g') :
    PrefixFree g' := by
  intro x y hxy vx vy hp
  obtain ⟨c, hc, ex⟩ := genEntries_code h hdead hg vx
  obtain ⟨d, hd, ey⟩ := genEntries_code h hdead hg vy
  refine hxy ?_
  by_cases hr : t.root.toNat < 256
  · exact leafIdx_inj.1 ((TreeBuilder.follow_leaf hr hc).2.trans (TreeBuilder.follow_leaf hr hd).2.symm)
  · rw [ex, ey, if_neg hr, if_neg hr] at hp
    exact TreeBuilder.eq_of_path_prefix hc hd hp

/-- The codes that `GEN` writes have 1 to 255 bits (R30, R153). -/
theorem genEntries_lengths (h : t.IsTree) (hdead : ∀ x, (g.entry x).v = false) (hg : genEntries t g = .ok g')
    (x : Symbol) (hv : (g'.entry x).v = true) :
    1 ≤ (g'.entry x).code.length ∧ (g'.entry x).code.length ≤ 255 := by
  obtain ⟨d, hd, he⟩ := genEntries_code h hdead hg hv
  rw [he]
  split
  · decide
  · exact h.path_length ‹_› hd

/-- `GEN` leaves a valid table with one entry for each leaf (R150). -/
theorem TableInv.gen (hT : t.IsTree) (h : TableInv g)
    (hg : genEntries t { g.clearEntries with topen := false } = .ok g') :
    TableInv { g' with nent := t.nleaf, ctValid := true } := by
  have hdead (x : Symbol) : (({ g.clearEntries with topen := false } : CodeTable).entry x).v = false :=
    g.clearEntries_dead x
  obtain ⟨g1, e, hw, ho, hc, -⟩ := genEntries_spec hT { g.clearEntries with topen := false }
  cases e.symm.trans hg
  have hlen := genEntries_lengths hT hdead hg
  have hpf := genEntries_prefixFree hT hdead hg
  exact
    { lengths := hlen
      prefixFree := fun _ => hpf
      counted := hT.counted.symm.trans
        (RegFile.countP_congr _ _ fun j => (genEntries_live hT hdead hg (BitVec.ofFin j)).symm)
      opened := fun h' => Bool.noConfusion (ho.symm.trans h')
      scratch := hc.symm ▸ h.scratch
      stack := hw.trans h.stack }

end

end Sys2Proof.Machine
end

section
/-! Every step keeps the invariant of the machine. -/

namespace Sys2Proof.Machine

/-- A rule that ends normally keeps the invariant: each command's unit by the lemma of that unit. -/
theorem EngineInv.effect {i : Instr} {s u : State} (h : EngineInv s) (he : Effect i s u) : EngineInv u := by
  cases he with
  | nop | read => exact h
  | clr => exact .clearAll s
  | fclr | ldf => exact { h with tree := .invalidate h.tree.heap }
  | build hf => exact { h with tree := .buildTree s.cfg hf }
  | gen hv hg => exact { h with table := .gen (h.tree.valid hv) h.table hg }
  | tclr => exact { h with table := h.table.tclr }
  | tsym _ hx => exact { h with table := h.table.tsym hx }
  | tbit _ _ hl => exact { h with table := h.table.tbit hl }
  | tend ho hc => exact { h with table := h.table.tend ho hc }
  | tchk ho ha => exact { h with table := h.table.tchk ho ha }
  | pinit => exact { h with pack := h.pack.pinit }
  | pbit ha hp => exact { h with pack := (PackInv.pPush hp ⟨h.pack, ha⟩).1 }
  | enc ha _ _ hp => exact { h with pack := .pPushAll hp h.pack ha }
  | pflush ha hp => exact { h with pack := .flush hp h.pack ha }
  | uinit m =>
    refine { h with unpack := nofun, dec := ?_ }
    cases m
    · exact h.dec
    · exact h.dec.start
  | ubytePad => exact { h with unpack := fun _ => rfl }
  | ubyteData hu hl _ hd =>
    have hdec := DecInv.feeds hd hl h.table h.dec
    exact { h with unpack := fun _ => hu, dec := hdec }
  | uend _ hl hd hh he =>
    have hdec := DecInv.feeds hd hl h.table h.dec
    refine { h with unpack := fun hv => ?_, dec := ?_ }
    · rcases hh with ⟨-, rfl⟩ | ⟨hn, rfl⟩
      · cases hv
      · exact absurd (h.unpack hv) hn
    · rcases he with ⟨-, rfl⟩ | ⟨-, hc, rfl⟩
      · exact hdec
      · exact { hdec with atRest := fun _ => hc }
  | dinit => exact { h with dec := h.dec.start }
  | dbit hd hs =>
    have hr : s.dec.dstate = .run := by
      simp only [State.decoding, Bool.and_eq_true, beq_iff_eq] at hd
      exact hd.1
    exact { h with dec := (DecInv.dStep h.table hs ⟨h.dec, hr⟩).1 }
  | dend _ hd => exact { h with dec := .dFinish hd h.dec }

/-- The ports play no part in the invariant. -/
theorem EngineInv.with_port {s : State} (h : EngineInv s) (p : Port) : EngineInv { s with port := p } := { h with }

theorem EngineInv.raiseFault {s : State} (h : EngineInv s) (e : ErrCode) (w : CmdWord) :
    EngineInv (s.raiseFault e w) :=
  { h with flt := nofun }

theorem EngineInv.exec {i : Instr} {s t : State} (h : EngineInv s) (he : exec i s = .next t) : EngineInv t := by
  rcases exec_cases he with ⟨-, rfl⟩ | ⟨-, e, rfl⟩ | ⟨u, d, hu, rfl⟩
  · exact h.with_port _
  · exact h.raiseFault e _
  · exact (h.effect hu).with_port _

theorem EngineInv.illegalWord {s : State} (h : EngineInv s) (w : CmdWord) : EngineInv (s.illegalWord w) := by
  unfold State.illegalWord
  split
  · exact h.with_port _
  · exact h.raiseFault .ill w

/-- Settles O57: by what the engine finds at the port, nothing, `rst`, an illegal word or a command. -/
theorem everyStepKeepsTheInvariant : Obligations.EveryStepKeepsTheInvariant := by
  intro s t h hs
  unfold step State.take at hs
  rcases hq : s.port.inq with _ | ⟨w | _, rest⟩
  · simp only [hq] at hs
    cases hs
    exact h
  · simp only [hq] at hs
    split at hs
    · exact (h.with_port _).exec hs
    · cases hs
      exact (h.with_port _).illegalWord w
  · simp only [hq] at hs
    cases hs
    exact .clearAll _

end Sys2Proof.Machine
end

section
/-! Reads (R67). The rule of a read looks at the units alone and leaves them as they are, so what it answers once it
answers whatever the ports have seen since. -/

namespace Sys2Proof.Machine

/-- A rule that returns the state it was given, with data that do not depend on the ports. -/
def ReadRule (body : State → Except Stop (State × Data)) : Prop :=
  ∀ s p, body { s with port := p } = (body s).map fun r => ({ s with port := p }, r.2)

/-- The read commands that a faulted engine refuses have such a rule. -/
theorem exec_readRule {i : Instr} (hr : isRead i = true) (hf : runsWhileFaulted i = false) :
    ∃ body, ReadRule body ∧ ∀ s, exec i s = command (encode i) body s := by
  cases i <;> simp only [isRead, runsWhileFaulted, Bool.false_eq_true, Bool.true_eq_false] at hr hf
  case rdf | rdcl | rdcw => exact ⟨_, fun _ _ => rfl, fun _ => rfl⟩
  case rdn | rdnf =>
    refine ⟨_, fun s p => ?_, fun _ => rfl⟩
    dsimp only
    split <;> rfl
  case rdp | rdo =>
    refine ⟨_, fun s p => ?_, fun _ => rfl⟩
    dsimp only
    repeat' split
    all_goals rfl

/-- An answer is an `OK` response with the data answered. -/
theorem Answered.of_respond {s u : State} {c : RspCode} {d d' : Data} (hu : u.port = s.port)
    (h : Answered s (u.respond c d') d) : c = .ok ∧ d' = d := by
  obtain ⟨-, hp⟩ := h
  simpa [State.respond, hu] using hp

theorem not_answered_refuseFaulted (s : State) (d : Data) : ¬ Answered s s.refuseFaulted d :=
  fun h => nomatch (h.of_respond rfl).1

theorem not_answered_raiseFault (s : State) (e : ErrCode) (w : CmdWord) (d : Data) :
    ¬ Answered s (s.raiseFault e w) d :=
  fun h => nomatch (Answered.of_respond (u := { s with flt := { err := some e, einfo := w } }) rfl h).1

theorem not_answered_illegalWord (s : State) (w : CmdWord) (d : Data) : ¬ Answered s (s.illegalWord w) d := by
  unfold State.illegalWord
  split
  · exact not_answered_refuseFaulted s d
  · exact not_answered_raiseFault s .ill w d

/-- A read that ended well ends well, with the same data, whatever the ports hold. -/
theorem ReadRule.command_with_port {body : State → Except Stop (State × Data)} (hb : ReadRule body) {w : CmdWord}
    {s t : State} {d : Data} (h : command w body s = .next t) (ha : Answered s t d) (p : Port) :
    command w body { s with port := p } = .next ({ s with port := p }.respond .ok d) := by
  rcases command_next h with ⟨-, rfl⟩ | ⟨-, e, rfl⟩ | ⟨hf, u, d', hu, rfl⟩
  · exact absurd ha (not_answered_refuseFaulted s d)
  · exact absurd ha (not_answered_raiseFault s e w d)
  · have hus : u = s := by
      have hsame := hb s s.port
      rw [hu] at hsame
      exact congrArg Prod.fst (Except.ok.inj hsame)
    obtain ⟨-, rfl⟩ := ha.of_respond (congrArg State.port hus)
    exact command_ok hf (by rw [hb, hu]; rfl)

/-- R67, for every read: `RDSR`, which a faulted engine executes, and those with a rule under `command`. -/
theorem exec_read_with_port {i : Instr} {s t : State} {d : Data} (hr : isRead i = true) (h : exec i s = .next t)
    (ha : Answered s t d) (p : Port) : exec i { s with port := p } = .next ({ s with port := p }.respond .ok d) := by
  cases hf : runsWhileFaulted i
  · obtain ⟨body, hb, he⟩ := exec_readRule hr hf
    rw [he] at h ⊢
    exact hb.command_with_port h ha p
  · cases i <;> simp only [isRead, runsWhileFaulted, Bool.false_eq_true] at hr hf
    case rdsr n =>
      rcases hn : s.statusReg n with _ | d'
      · cases (exec_rdsr_illegal hn).symm.trans h
        exact absurd ha (not_answered_illegalWord s _ d)
      · cases (exec_rdsr hn).symm.trans h
        obtain ⟨-, rfl⟩ := ha.of_respond rfl
        exact exec_rdsr (s := { s with port := p }) hn

/-- Settles O14: the first run is the read at the ports of `s`, the repeated one the read at the ports it left. -/
theorem readsHaveNoSideEffect : Obligations.ReadsHaveNoSideEffect := by
  intro s i t d hr h ha
  have again := exec_read_with_port hr h ha
  obtain rfl : t = s.respond .ok d := Host.Outcome.next.inj (h.symm.trans (again s.port))
  have same (u : State) : Unchanged u (u.respond .ok d) := ⟨⟨rfl, rfl, rfl, rfl, rfl⟩, rfl⟩
  exact ⟨same s, _, again (s.respond .ok d).port, ⟨rfl, rfl⟩, same _⟩

end Sys2Proof.Machine
end

section
/-! Decoding and encoding (R91, R95, R103). A row of the opcode map and its format say when a word matches and what its
operands are; a word that matches is the word of the command the row assembles. -/

namespace Sys2Proof

/-! ### The opcode map -/

/-- Every command's word lies in its row. -/
theorem Laws.InRow.of_instr (i : Instr) : Laws.InRow.Statement i := by
  cases i with
  | nop => exact nop
  | clr => exact clr
  | rdsr n => exact rdsr n
  | fclr => exact fclr
  | ldf x n => exact ldf x n
  | rdf x => exact rdf x
  | build => exact build
  | rdn j => exact rdn j
  | rdnf j => exact rdnf j
  | gen => exact gen
  | rdcl x => exact rdcl x
  | rdcw x w => exact rdcw x w
  | tclr => exact tclr
  | tsym x => exact tsym x
  | tbit b => exact tbit b
  | tend => exact tend
  | tchk => exact tchk
  | pinit => exact pinit
  | pbit b => exact pbit b
  | enc x => exact enc x
  | pflush => exact pflush
  | rdp a => exact rdp a
  | uinit m => exact uinit m
  | ubyte v => exact ubyte v
  | uend => exact uend
  | dinit => exact dinit
  | dbit b => exact dbit b
  | dend => exact dend
  | rdo a => exact rdo a

/-- No opcode is listed twice (R95). -/
theorem opcode_injective {r q : OpRow} (hr : r ∈ opcodeTable) (hq : q ∈ opcodeTable) (h : r.opcode = q.opcode) :
    r = q :=
  List.inj_on_of_nodup_map (f := OpRow.opcode) (by decide) hr hq h

theorem find_opcode {r : OpRow} (hr : r ∈ opcodeTable) :
    opcodeTable.find? (fun q => q.opcode == r.opcode) = some r := by
  have hsome : (opcodeTable.find? (fun q => q.opcode == r.opcode)).isSome := by
    rw [List.find?_isSome]
    exact ⟨r, hr, beq_self_eq_true _⟩
  obtain ⟨q, hq⟩ := Option.isSome_iff_exists.1 hsome
  rw [hq, opcode_injective (List.mem_of_find?_eq_some hq) hr (by simpa using List.find?_some hq)]

/-! ### When a word matches a row -/

theorem opcOf_and (v w : CmdWord) : opcOf (v &&& w) = opcOf v &&& opcOf w := BitVec.extractLsb'_and ..
theorem fieldA_and (v w : CmdWord) : fieldA (v &&& w) = fieldA v &&& fieldA w := BitVec.extractLsb'_and ..
theorem fieldB_and (v w : CmdWord) : fieldB (v &&& w) = fieldB v &&& fieldB w := BitVec.extractLsb'_and ..

theorem eq_packWord_iff (w : CmdWord) (o a : BitVec 8) (b : BitVec 32) :
    w = packWord o a b ↔ opcOf w = o ∧ fieldA w = a ∧ fieldB w = b := by
  constructor
  · rintro rfl
    simp
  · rintro ⟨rfl, rfl, rfl⟩
    exact (packWord_fields w).symm

theorem OpRow.matchWord_eq (r : OpRow) : r.matchWord = packWord r.opcode 0#8 0#32 := (packWord_zero _).symm

theorem Format.opcOf_mask (f : Format) : opcOf f.mask = 0xFF#8 := by cases f <;> rfl

/-- A word matches a row when it has the row's opcode and no reserved bit of the format is 1 (R91, R96). -/
theorem OpRow.matches_iff (r : OpRow) (w : CmdWord) : w &&& r.format.mask = r.matchWord ↔
    opcOf w = r.opcode ∧ fieldA w &&& fieldA r.format.mask = 0#8 ∧ fieldB w &&& fieldB r.format.mask = 0#32 := by
  rw [r.matchWord_eq, eq_packWord_iff, opcOf_and, fieldA_and, fieldB_and, Format.opcOf_mask, and_ff]

/-- The rows are disjoint. -/
theorem matching_row_unique {r q : OpRow} {w : CmdWord} (hr : r ∈ opcodeTable) (hq : q ∈ opcodeTable)
    (hwr : w &&& r.format.mask = r.matchWord) (hwq : w &&& q.format.mask = q.matchWord) : r = q :=
  opcode_injective hr hq (((r.matches_iff w).1 hwr).1.symm.trans ((q.matches_iff w).1 hwq).1)

/-! ### What decoding answers -/

/-- A word decodes to `i` when it matches a row that assembles `i`, and `i` is well-formed (R103). -/
theorem decode_eq_ok_iff (w : CmdWord) (i : Instr) : decode w = .ok i ↔
    ∃ r ∈ opcodeTable, w &&& r.format.mask = r.matchWord ∧ r.operands w = i ∧ i.wellFormed = true := by
  unfold decode
  constructor
  · intro h
    split at h
    · cases h
    · rename_i r hr
      split at h
      · split at h <;> cases h
        exact ⟨r, List.mem_of_find?_eq_some hr, ‹_›, rfl, ‹_›⟩
      · cases h
  · rintro ⟨r, hr, hm, rfl, hi⟩
    rw [((r.matches_iff w).1 hm).1, find_opcode hr]
    simp [hm, hi]

/-- The word of a well-formed command decodes to it: the command's row gives it back. -/
theorem decode_of_encode {w : CmdWord} {i : Instr} (h : encode i = w) (hi : i.wellFormed = true) :
    decode w = .ok i := by
  obtain ⟨r, hr, hm, ho⟩ := Laws.InRow.of_instr i
  exact (decode_eq_ok_iff w i).2 ⟨r, List.mem_of_find?_eq_some hr, h ▸ hm, h ▸ ho, hi⟩

/-- Settles O2, by the row of the command in the opcode map. -/
theorem decodeEncodeRoundTrip : Obligations.DecodeEncodeRoundTrip :=
  fun _ hi => decode_of_encode rfl hi

/-- Settles O1: eleven of the words are words of commands, and the last has reserved bit 1 of format `B1` set. -/
theorem writtenOutWordsDecode : Obligations.WrittenOutWordsDecode :=
  ⟨decode_of_encode rfl rfl, decode_of_encode rfl rfl, decode_of_encode rfl rfl, decode_of_encode rfl rfl,
    decode_of_encode rfl rfl, decode_of_encode rfl rfl, decode_of_encode rfl rfl, decode_of_encode rfl rfl,
    decode_of_encode rfl rfl, decode_of_encode rfl rfl, decode_of_encode rfl rfl, rfl⟩

/-! ### Encoding back -/

/-- What a word of format `f` has in `A` (R91): its operand, or 0. -/
def Format.operandA (w : CmdWord) : Format → BitVec 8
  | .Z | .B1 | .B9 | .B32 => 0#8
  | .A | .AB32 | .AB2 => fieldA w

/-- What a word of format `f` has in `B` (R91): its operand, zero-extended, or 0. -/
def Format.operandB (w : CmdWord) : Format → BitVec 32
  | .Z | .A => 0#32
  | .B1 => bitField (fieldBit w)
  | .B9 => (fieldI w).setWidth 32
  | .B32 | .AB32 => fieldB w
  | .AB2 => (fieldW w).setWidth 32

/-- The word of the command that a row assembles, by the row's format (R91, R92). -/
theorem encode_operands {r : OpRow} (hr : r ∈ opcodeTable) (w : CmdWord) :
    encode (r.operands w) = packWord r.opcode (r.format.operandA w) (r.format.operandB w) := by
  fin_cases hr <;> rfl

theorem Format.operandA_eq {f : Format} {w : CmdWord} (h : fieldA w &&& fieldA f.mask = 0#8) :
    f.operandA w = fieldA w := by
  cases f with
  | A | AB32 | AB2 => rfl
  | Z | B1 | B9 | B32 => exact h.symm.trans (and_ff _)

/-- Where the bits of `B` from `k` on are 0, the `k` low bits are all of it. -/
theorem low_bits_eq_fieldB {k : Nat} {w : CmdWord} {m : BitVec 32} (hm : ∀ j < 32, m.getLsbD j = decide (k ≤ j))
    (h : fieldB w &&& m = 0#32) : (w.extractLsb' 0 k).setWidth 32 = fieldB w := by
  apply BitVec.eq_of_getLsbD_eq
  intro j hj
  have hz : (fieldB w &&& m).getLsbD j = false := by simp [h]
  simp only [BitVec.getLsbD_and, hm j hj, fieldB, BitVec.getLsbD_extractLsb', hj, decide_true, Bool.true_and,
    Bool.and_eq_false_iff, decide_eq_false_iff_not, Nat.zero_add, BitVec.getLsbD_setWidth] at hz ⊢
  by_cases hk : j < k
  · simp [hk]
  · simp [hk, hz.resolve_right (by omega)]

theorem ofBool_fieldBit (w : CmdWord) : BitVec.ofBool (fieldBit w) = w.extractLsb' 0 1 := by
  apply BitVec.eq_of_getLsbD_eq
  intro j hj
  simp [fieldBit, show j = 0 by omega]

theorem Format.operandB_eq {f : Format} {w : CmdWord} (h : fieldB w &&& fieldB f.mask = 0#32) :
    f.operandB w = fieldB w := by
  cases f with
  | B32 | AB32 => rfl
  | Z | A => exact h.symm.trans (BitVec.and_allOnes (x := fieldB w))
  | B1 =>
    rw [← low_bits_eq_fieldB (k := 1) (by decide) h, ← ofBool_fieldBit]
    rfl
  | B9 => exact low_bits_eq_fieldB (k := 9) (by decide) h
  | AB2 => exact low_bits_eq_fieldB (k := 2) (by decide) h

/-- A word that matches a row is the word of the command the row assembles: no bit is dropped. -/
theorem encode_operands_of_matches {r : OpRow} {w : CmdWord} (hr : r ∈ opcodeTable)
    (h : w &&& r.format.mask = r.matchWord) : encode (r.operands w) = w := by
  obtain ⟨ho, ha, hb⟩ := (r.matches_iff w).1 h
  rw [encode_operands hr, ← ho, Format.operandA_eq ha, Format.operandB_eq hb, packWord_fields]

/-- Settles O3: the row that the word matches assembles the command. -/
theorem decodedWordsEncodeBack : Obligations.DecodedWordsEncodeBack := by
  intro w i h
  obtain ⟨r, hr, hm, rfl, hi⟩ := (decode_eq_ok_iff w i).1 h
  exact ⟨encode_operands_of_matches hr hm, hi⟩

end Sys2Proof
end

section
/-! Illegal words (R96). -/

namespace Sys2Proof

/-- Illegal is what does not decode to a command. -/
theorem decode_error_iff (w : CmdWord) : (∃ e, decode w = .error e) ↔ ∀ i, decode w ≠ .ok i := by
  cases decode w <;> simp

theorem not_wellFormed_iff (i : Instr) : i.wellFormed = false ↔ ∃ n, i = .rdsr n ∧ 12 ≤ n.toNat := by
  cases i <;> simp [Instr.wellFormed]

/-- The row of `RDSR` (R95). -/
def rdsrRow : OpRow := ⟨0x02#8, .A, fun w => .rdsr (fieldA w)⟩

theorem rdsrRow_mem : rdsrRow ∈ opcodeTable := .tail _ (.tail _ (.head _))

/-- A word that matches a row assembles an ill-formed command exactly when it is `RDSR n` with `n >= 12`. -/
theorem operands_not_wellFormed_iff {r : OpRow} {w : CmdWord} (hr : r ∈ opcodeTable)
    (hm : w &&& r.format.mask = r.matchWord) :
    (r.operands w).wellFormed = false ↔ w &&& rdsrRow.format.mask = rdsrRow.matchWord ∧ 12 ≤ (fieldA w).toNat := by
  constructor
  · intro hi
    obtain ⟨n, hn, h12⟩ := (not_wellFormed_iff _).1 hi
    have hw : w = packWord 0x02#8 n 0#32 := by rw [← encode_operands_of_matches hr hm, hn]; rfl
    rw [hw, fieldA_packWord]
    exact ⟨masked_A _ n, h12⟩
  · rintro ⟨hm', h12⟩
    rw [matching_row_unique hr rdsrRow_mem hm hm', not_wellFormed_iff]
    exact ⟨_, rfl, h12⟩

/-- R96: a word is illegal when it matches no row of the opcode map, or is `RDSR n` with `n >= 12`. -/
theorem illegal_iff (w : CmdWord) : (∃ e, decode w = .error e) ↔
    (∀ r ∈ opcodeTable, w &&& r.format.mask ≠ r.matchWord) ∨
      (w &&& rdsrRow.format.mask = rdsrRow.matchWord ∧ 12 ≤ (fieldA w).toNat) := by
  simp only [decode_error_iff, ne_eq, decode_eq_ok_iff]
  constructor
  · intro h
    by_cases hrow : ∃ r ∈ opcodeTable, w &&& r.format.mask = r.matchWord
    · obtain ⟨r, hr, hm⟩ := hrow
      refine .inr ((operands_not_wellFormed_iff hr hm).1 (Bool.eq_false_iff.2 fun hi => ?_))
      exact h _ ⟨r, hr, hm, rfl, hi⟩
    · exact .inl fun r hr hm => hrow ⟨r, hr, hm⟩
  · rintro (hnone | hrdsr) i ⟨r, hr, hm, rfl, hi⟩
    · exact hnone r hr hm
    · simp [(operands_not_wellFormed_iff hr hm).2 hrdsr] at hi

namespace Machine

/-- R90, R103: a step that finds a legal word takes it and runs its command. -/
theorem step_of_legal {s : State} {w : CmdWord} {i : Instr} {rest : List HostInput}
    (hq : s.port.inq = .word w :: rest) (hd : decode w = .ok i) :
    step s = exec i { s with port := { s.port with inq := rest } } := by
  simp [step, State.take, hq, hd]

/-- A step that finds an illegal word takes it. -/
theorem step_of_illegal {s : State} {w : CmdWord} {e : Illegal} {rest : List HostInput}
    (hq : s.port.inq = .word w :: rest) (hd : decode w = .error e) :
    step s = .next ({ s with port := { s.port with inq := rest } }.illegalWord w) := by
  simp [step, State.take, hq, hd]

/-- Settles O5. -/
theorem stepRunsTheDecodedCommand : Obligations.StepRunsTheDecodedCommand :=
  fun _ _ _ _ => step_of_legal

/-- All that an illegal word does: it is refused while faulted, else it records `E_ILL` (R253, R254). -/
theorem illegalWord_cases (s : State) (w : CmdWord) :
    (s.flt.err ≠ none ∧ s.illegalWord w = s.refuseFaulted) ∨
      (s.flt.err = none ∧ s.illegalWord w = s.raiseFault .ill w) := by
  unfold State.illegalWord
  cases hf : s.faulted
  · exact .inr ⟨s.faulted_eq_false_iff.1 hf, rfl⟩
  · exact .inl ⟨s.faulted_iff.1 hf, rfl⟩

/-- Settles O4: `illegal_iff` says which words are illegal, `illegalWord_cases` what they do. -/
theorem illegalWordsAreTheRest : Obligations.IllegalWordsAreTheRest := by
  refine ⟨rfl, illegal_iff, ?_⟩
  intro w e s rest hd hq
  refine ⟨_, step_of_illegal hq hd, ?_⟩
  rcases illegalWord_cases { s with port := { s.port with inq := rest } } w with ⟨hf, ht⟩ | ⟨hf, ht⟩ <;> rw [ht]
  · exact ⟨⟨rfl, rfl, rfl, rfl, rfl⟩, rfl, rfl, rfl, fun h => absurd h hf, fun _ => ⟨rfl, rfl⟩⟩
  · exact ⟨⟨rfl, rfl, rfl, rfl, rfl⟩, rfl, rfl, rfl, fun _ => ⟨rfl, rfl⟩, fun h => absurd hf h⟩

end Machine
end Sys2Proof
end

section
/-! Responses (R93). Every end of a command sends one response: a refusal, fault entry, and the normal end of a rule. -/

namespace Sys2Proof.Machine

/-- A rule that ends normally leaves the configuration, what the host has sent, and the responses sent so far. -/
theorem Effect.port {i : Instr} {s u : State} (he : Effect i s u) :
    u.cfg = s.cfg ∧ u.port.inq = s.port.inq ∧ u.port.rsps = s.port.rsps := by
  cases he <;> exact ⟨rfl, rfl, rfl⟩

/-- `t` has answered a word taken in `s` with `r`, whose code, unless it is `OK`, comes with no data and no change of
any unit or of `UB` (R93). -/
def Responds (s t : State) (r : Rsp) : Prop :=
  t.cfg = s.cfg ∧ t.port.inq = s.port.inq ∧ t.port.rsps = s.port.rsps ++ [r] ∧
    (r.code ≠ .ok → r.data = 0#64 ∧ SameUnits s t ∧ t.port.ub = s.port.ub)

theorem responds_refuseFaulted (s : State) : Responds s s.refuseFaulted ⟨.faulted, 0#64⟩ :=
  ⟨rfl, rfl, rfl, fun _ => ⟨rfl, ⟨rfl, rfl, rfl, rfl, rfl⟩, rfl⟩⟩

theorem responds_raiseFault (s : State) (e : ErrCode) (w : CmdWord) :
    Responds s (s.raiseFault e w) ⟨.fault e, 0#64⟩ :=
  ⟨rfl, rfl, rfl, fun _ => ⟨rfl, ⟨rfl, rfl, rfl, rfl, rfl⟩, rfl⟩⟩

theorem Effect.responds {i : Instr} {s u : State} (he : Effect i s u) (d : Data) :
    Responds s (u.respond .ok d) ⟨.ok, d⟩ := by
  obtain ⟨hc, hi, hr⟩ := he.port
  exact ⟨hc, hi, congrArg (· ++ _) hr, fun h => absurd rfl h⟩

theorem responds_illegalWord (s : State) (w : CmdWord) : ∃ r, Responds s (s.illegalWord w) r := by
  rcases illegalWord_cases s w with ⟨-, h⟩ | ⟨-, h⟩ <;> rw [h]
  · exact ⟨_, responds_refuseFaulted s⟩
  · exact ⟨_, responds_raiseFault s .ill w⟩

theorem exec_responds {i : Instr} {s t : State} (h : exec i s = .next t) : ∃ r, Responds s t r := by
  rcases exec_cases h with ⟨-, rfl⟩ | ⟨-, e, rfl⟩ | ⟨u, d, he, rfl⟩
  · exact ⟨_, responds_refuseFaulted s⟩
  · exact ⟨_, responds_raiseFault s e _⟩
  · exact ⟨_, he.responds d⟩

/-! ### Commands that carry no data (R94) -/

/-- Such a command, if its rule stands under `command`, ends with `respond(0)` whenever it ends normally (R10). -/
theorem exec_rule_without_data {i : Instr} (hc : carriesData i = false) (hf : runsWhileFaulted i = false) :
    ∃ body, (∀ s u d, body s = .ok (u, d) → d = 0#64) ∧ ∀ s, exec i s = command (encode i) body s := by
  cases i <;> simp only [carriesData, runsWhileFaulted, Bool.true_eq_false] at hc hf
  all_goals
    refine ⟨_, fun s u d h => ?_, fun _ => rfl⟩
    repeat' split at h
    all_goals cases h
    all_goals rfl

/-- Every command without data sends 0, whatever its code. -/
theorem exec_responds_without_data {i : Instr} {s t : State} (hc : carriesData i = false) (h : exec i s = .next t) :
    ∃ (u : State) (c : RspCode), t = u.respond c 0#64 := by
  cases hf : runsWhileFaulted i
  · obtain ⟨body, hb, he⟩ := exec_rule_without_data hc hf
    rw [he] at h
    rcases command_next h with ⟨-, rfl⟩ | ⟨-, e, rfl⟩ | ⟨-, u, d, hu, rfl⟩
    · exact ⟨s, .faulted, rfl⟩
    · exact ⟨{ s with flt := { err := some e, einfo := encode i } }, .fault e, rfl⟩
    · exact ⟨u, .ok, by rw [hb s u d hu]⟩
  · cases i <;> simp only [carriesData, runsWhileFaulted, Bool.false_eq_true, Bool.true_eq_false] at hc hf
    case nop => exact ⟨s, .ok, (Host.Outcome.next.inj h).symm⟩
    case clr => exact ⟨s.clearAll, .ok, (Host.Outcome.next.inj h).symm⟩

/-- The response of a command whose rule gives no data has data 0 (R94). -/
theorem Responds.data_eq_zero {i : Instr} {s t : State} {r : Rsp} (hr : Responds s t r) (hc : carriesData i = false)
    (h : exec i s = .next t) : r.data = 0#64 := by
  obtain ⟨-, -, hrsps, -⟩ := hr
  obtain ⟨u, c, rfl⟩ := exec_responds_without_data hc h
  have hlast := List.singleton_inj.1 (List.append_inj' hrsps rfl).2
  exact hlast ▸ rfl

/-! ### The response word -/

/-- The code stands in `RSP[71:64]` (R93). -/
theorem Rsp.word_code (r : Rsp) : r.word.extractLsb' 64 8 = r.code.number :=
  BitVec.extractLsb'_append_eq_left

/-- The data stand in `RSP[63:0]` (R93). -/
theorem Rsp.word_data (r : Rsp) : r.word.extractLsb' 0 64 = r.data :=
  BitVec.extractLsb'_append_eq_right

/-- 0 is the number of `OK` alone (R251). -/
theorem RspCode.number_eq_zero_iff (c : RspCode) : c.number = 0#8 ↔ c = .ok := by
  cases c with
  | ok => simp [RspCode.number]
  | faulted => simp [RspCode.number]
  | fault e => cases e <;> simp [RspCode.number, ErrCode.number]

/-- A step that takes a word responds to it once, with no data if its command carries none. -/
theorem step_responds {s t : State} {w : CmdWord} {rest : List HostInput} (hq : s.port.inq = .word w :: rest)
    (h : step s = .next t) :
    ∃ r, Responds { s with port := { s.port with inq := rest } } t r ∧
      ∀ i, decode w = .ok i → carriesData i = false → r.data = 0#64 := by
  rcases hd : decode w with e | i
  · obtain rfl := Host.Outcome.next.inj ((step_of_illegal hq hd).symm.trans h)
    obtain ⟨r, hr⟩ := responds_illegalWord { s with port := { s.port with inq := rest } } w
    exact ⟨r, hr, nofun⟩
  · rw [step_of_legal hq hd] at h
    obtain ⟨r, hr⟩ := exec_responds h
    refine ⟨r, hr, fun j hj hc => ?_⟩
    cases hj
    exact hr.data_eq_zero hc h

/-- Settles O9: the step responds once (`step_responds`), and the layout is that of the response word. -/
theorem everyWordIsAnsweredOnce : Obligations.EveryWordIsAnsweredOnce := by
  intro s w rest t hq h
  obtain ⟨r, ⟨hcfg, hinq, hrsps, hnotOk⟩, hdata⟩ := step_responds hq h
  exact ⟨hinq, hcfg, r, hrsps, r.word_code, r.word_data, r.code.number_eq_zero_iff, hnotOk, hdata⟩

end Sys2Proof.Machine
end

section
/-! The Frequency Table commands (R120 to R122), and how a command that is not faulted follows its rule. -/

namespace Sys2Proof.Machine

/-! ### A command whose rule stands under `command`, in a state that is not faulted (R254) -/

section
variable {i : Instr} {body : State → Except Stop (State × Data)} {s : State}

/-- The rule ends normally: its effect, and the response `OK`. -/
theorem exec_of_rule_ok {t : State} {d : Data} (he : ∀ s, exec i s = command (encode i) body s) (hf : s.flt.err = none)
    (hb : body s = .ok (t, d)) : exec i s = .next (t.respond .ok d) :=
  (he s).trans (command_ok (s.faulted_eq_false_iff.2 hf) hb)

/-- The rule raises: fault entry (R252). -/
theorem raises_of_rule {e : ErrCode} (he : ∀ s, exec i s = command (encode i) body s) (hf : s.flt.err = none)
    (hb : body s = raise e) : Raises i s e :=
  ⟨_, (he s).trans (command_raise (s.faulted_eq_false_iff.2 hf) hb), ⟨rfl, rfl, rfl, rfl, rfl⟩, rfl, rfl, rfl⟩

end

/-- A read leaves the units as they are. -/
theorem unchanged_respond (s : State) (c : RspCode) (d : Data) : Unchanged s (s.respond c d) :=
  ⟨⟨rfl, rfl, rfl, rfl, rfl⟩, rfl⟩

/-! ### `FREQ` -/

/-- `FCLR` on an engine that is not faulted (R120). -/
theorem exec_fclr {s : State} (hf : s.flt.err = none) : exec .fclr s =
    .next ({ s with tree := { s.tree with freq := .fill 256 0#32 }.invalidate }.respond .ok 0#64) := by
  refine exec_of_rule_ok (fun _ => rfl) hf ?_
  rfl

/-- `LDF s, n` on an engine that is not faulted (R121). -/
theorem exec_ldf {s : State} (hf : s.flt.err = none) (x : Symbol) (n : Count) : exec (.ldf x n) s =
    .next ({ s with tree := { s.tree with freq := s.tree.freq.set x.toFin n }.invalidate }.respond .ok 0#64) := by
  refine exec_of_rule_ok (fun _ => rfl) hf ?_
  rfl

/-- Settles O18: the rule of `FCLR` fills `FREQ` and invalidates the tree. -/
theorem fclrEmptiesTheFrequencyTable : Obligations.FclrEmptiesTheFrequencyTable := by
  refine ⟨rfl, fun s hf => ⟨_, exec_fclr hf, ⟨rfl, rfl⟩, fun x => ?_, rfl, rfl, rfl, rfl, rfl, rfl, rfl, rfl, rfl, rfl⟩⟩
  exact RegFile.get_fill 256 0#32 x.toFin

/-- Settles O19: the rule of `LDF` writes one register of `FREQ` and invalidates the tree. -/
theorem ldfLoadsOneFrequency : Obligations.LdfLoadsOneFrequency := by
  refine ⟨fun _ _ => rfl, fun s x n hf => ⟨_, exec_ldf hf x n, ⟨rfl, rfl⟩, ?_, fun y hy => ?_, rfl, rfl, rfl,
    rfl, rfl, rfl, rfl, rfl, rfl, rfl⟩⟩
  · exact RegFile.get_set_self s.tree.freq x.toFin n
  · exact (RegFile.get_set s.tree.freq x.toFin y.toFin n).trans (if_neg fun e => hy (BitVec.eq_of_toFin_eq e))

/-- `RDF s` on an engine that is not faulted (R122). -/
theorem exec_rdf {s : State} (hf : s.flt.err = none) (x : Symbol) :
    exec (.rdf x) s = .next (s.respond .ok ((s.tree.freqAt x).setWidth 64)) := by
  refine exec_of_rule_ok (fun _ => rfl) hf ?_
  rfl

/-- Settles O20: by `exec_rdf`; the reset value of every count is 0 (R50). -/
theorem rdfReadsOneFrequency : Obligations.RdfReadsOneFrequency := by
  refine ⟨fun _ => rfl, fun s x hf => ⟨_, exec_rdf hf x, ⟨rfl, rfl⟩, unchanged_respond ..⟩, fun s x hr => ?_⟩
  have hz : (s.tree.freqAt x).setWidth 64 = 0#64 := by rw [hr.freq]; rfl
  exact ⟨_, exec_rdf hr.flt.1 x, rfl, by rw [hz]; rfl⟩

end Sys2Proof.Machine
end

section
/-! The reads of the node store (R131, R132). -/

namespace Sys2Proof.Machine

/-- The index field of `RDN` and `RDNF`: the bits of `B` above `i` are reserved (R91, R92). -/
theorem setWidth_nodeIdx (j : NodeIdx) : j.setWidth 32 = 0#23 ++ j := BitVec.setWidth_eq_append (by decide)

/-- A word of format `B9` (R91). -/
theorem packWord_nodeIdx (o : BitVec 8) (j : NodeIdx) : packWord o 0#8 (j.setWidth 32) = o ++ 0#31 ++ j := by
  rw [packWord, setWidth_nodeIdx, BitVec.append_assoc']
  exact congrArg (· ++ j) (BitVec.append_assoc (x₁ := o) (x₂ := 0#8) (x₃ := 0#23))

/-! ### The layout of `RDN`'s response (R131) -/

theorem leafLinks_eq : leafLinks = 0xC000000000000000#64 := by decide

theorem nodeLinks_r (n : Node) : (nodeLinks n).extractLsb' 0 9 = n.r := BitVec.extractLsb'_append_eq_right

theorem nodeLinks_gap (n : Node) : (nodeLinks n).extractLsb' 9 7 = 0#7 :=
  (BitVec.extractLsb'_append_eq_of_le (by decide)).trans BitVec.extractLsb'_append_eq_right

theorem nodeLinks_l (n : Node) : (nodeLinks n).extractLsb' 16 9 = n.l :=
  (BitVec.extractLsb'_append_eq_of_le (by decide)).trans
    ((BitVec.extractLsb'_append_eq_of_le (by decide)).trans BitVec.extractLsb'_append_eq_right)

theorem nodeLinks_zeros (n : Node) : (nodeLinks n).extractLsb' 25 37 = 0#37 :=
  (BitVec.extractLsb'_append_eq_of_le (by decide)).trans
    ((BitVec.extractLsb'_append_eq_of_le (by decide)).trans
      ((BitVec.extractLsb'_append_eq_of_le (by decide)).trans BitVec.extractLsb'_append_eq_right))

/-- `V` = 1 and `LEAF` = 0. -/
theorem nodeLinks_kind (n : Node) : (nodeLinks n).extractLsb' 62 2 = 0b10#2 :=
  (BitVec.extractLsb'_append_eq_of_le (by decide)).trans
    ((BitVec.extractLsb'_append_eq_of_le (by decide)).trans
      ((BitVec.extractLsb'_append_eq_of_le (by decide)).trans BitVec.extractLsb'_append_eq_left))

/-! ### What the two reads answer -/

theorem exec_rdn {s : State} (hf : s.flt.err = none) (hv : s.tree.treeValid = true) (j : NodeIdx) :
    exec (.rdn j) s = .next (s.respond .ok (linksData s.tree j)) := by
  refine exec_of_rule_ok (fun _ => rfl) hf ?_
  exact if_pos hv

theorem exec_rdnf {s : State} (hf : s.flt.err = none) (hv : s.tree.treeValid = true) (j : NodeIdx) :
    exec (.rdnf j) s = .next (s.respond .ok (freqData s.tree j)) := by
  refine exec_of_rule_ok (fun _ => rfl) hf ?_
  exact if_pos hv

theorem raises_rdn {s : State} (hf : s.flt.err = none) (hv : s.tree.treeValid = false) (j : NodeIdx) :
    Raises (.rdn j) s .seq := by
  refine raises_of_rule (fun _ => rfl) hf ?_
  exact if_neg (Bool.eq_false_iff.1 hv)

theorem raises_rdnf {s : State} (hf : s.flt.err = none) (hv : s.tree.treeValid = false) (j : NodeIdx) :
    Raises (.rdnf j) s .seq := by
  refine raises_of_rule (fun _ => rfl) hf ?_
  exact if_neg (Bool.eq_false_iff.1 hv)

section
variable {t : TreeBuilder} {j : NodeIdx}

/-- Index 511 is not a node, so it is never live (R24). -/
theorem TreeBuilder.dead_of_absent (h : j = 511#9 ∨ (t.nodeAt j).v = false) : (t.nodeAt j).v = false := by
  rcases h with rfl | h
  · rw [TreeBuilder.nodeAt_last]; rfl
  · exact h

theorem linksData_dead (h : (t.nodeAt j).v = false) : linksData t j = 0#64 := by simp [linksData, h]

theorem linksData_leaf (hl : j.toNat < 256) (h : (t.nodeAt j).v = true) : linksData t j = leafLinks := by
  simp [linksData, h, hl]

theorem linksData_internal (hl : 256 ≤ j.toNat) (h : (t.nodeAt j).v = true) :
    linksData t j = nodeLinks (t.nodeAt j) := by
  simp [linksData, h, Nat.not_lt.2 hl]

theorem freqData_dead (h : (t.nodeAt j).v = false) : freqData t j = 0#64 := by simp [freqData, h]

theorem freqData_live (h : (t.nodeAt j).v = true) : freqData t j = (t.nodeAt j).f.setWidth 64 := by simp [freqData, h]

/-- A Symbol with no count has no leaf (R25 (a)). -/
theorem TreeBuilder.IsTree.leaf_dead (ht : t.IsTree) {x : Symbol} (hx : t.freqAt x = 0#32) :
    (t.nodeAt (leafIdx x)).v = false :=
  Bool.eq_false_iff.2 fun hv => (ht.leaves x).1.1 hv hx

/-- The last internal node is `NODE[254 + NLEAF]` (R25 (b)). -/
theorem TreeBuilder.IsTree.lt_of_live (ht : t.IsTree) (hv : (t.nodeAt j).v = true) :
    j.toNat < 255 + t.nleaf.toNat := by
  have h511 := TreeBuilder.lt_of_live hv
  obtain ⟨-, hn, -⟩ := ht.rootAt
  by_cases h : 256 ≤ j.toNat
  · rw [eq_internalIdx h] at hv
    have := (ht.internals _ (by omega)).1 hv
    omega
  · omega

/-- No live node of a tree has frequency 0: a leaf has its count, and an internal node has the frequencies of two nodes
of smaller index (R25 (a), (c)). -/
theorem TreeBuilder.IsTree.freq_pos (ht : t.IsTree) (k : Nat) {n : NodeIdx} (hk : n.toNat < k)
    (hv : (t.nodeAt n).v = true) : 0 < (t.nodeAt n).f.toNat := by
  induction k generalizing n with
  | zero => omega
  | succ k ih =>
    by_cases h : 256 ≤ n.toNat
    · obtain ⟨hl, -, -, hlv, -, hs⟩ := ht.children n h hv
      rw [BitVec.lt_def] at hl
      have := ih (by omega) hlv
      omega
    · rw [← leafIdx_setWidth (Nat.lt_of_not_le h)] at hv ⊢
      obtain ⟨hlive, hval⟩ := ht.leaves (n.setWidth 8)
      have hne := hlive.1 hv
      rw [hval hv, BitVec.toNat_setWidth_of_le (by decide)]
      exact Nat.pos_of_ne_zero fun e => hne (BitVec.eq_of_toNat_eq e)

end

/-- Settles O28: the three cases of `linksData`, and the layout of its two live ones. -/
theorem rdnReadsTheLinks : Obligations.RdnReadsTheLinks := by
  refine ⟨packWord_nodeIdx 0x14#8, fun _ j hf hv => raises_rdn hf hv j,
    fun s j hf hv => ⟨_, _, exec_rdn hf hv j, ⟨rfl, rfl⟩, unchanged_respond .., fun h => ?_, fun hl h => ?_,
      fun hl _ h => ?_, fun ht => ⟨fun x hj hx => ?_, fun hj => ?_⟩⟩⟩
  · exact linksData_dead (TreeBuilder.dead_of_absent h)
  · rw [linksData_leaf hl h, leafLinks_eq]
  · rw [linksData_internal hl h]
    exact ⟨nodeLinks_kind _, nodeLinks_zeros _, nodeLinks_l _, nodeLinks_gap _, nodeLinks_r _⟩
  · subst hj
    exact linksData_dead (ht.leaf_dead hx)
  · exact linksData_dead (Bool.eq_false_iff.2 fun h => by have := ht.lt_of_live h; omega)

/-- Settles O29: the two cases of `freqData`; a live node of a tree has a frequency. -/
theorem rdnfReadsTheFrequency : Obligations.RdnfReadsTheFrequency := by
  refine ⟨packWord_nodeIdx 0x15#8, fun _ j hf hv => raises_rdnf hf hv j,
    fun s j hf hv => ⟨_, _, exec_rdnf hf hv j, ⟨rfl, rfl⟩, unchanged_respond ..,
      fun h => freqData_dead (TreeBuilder.dead_of_absent h), fun _ h => freqData_live h, fun ht hd => ?_⟩⟩
  by_contra hlive
  obtain ⟨-, hv'⟩ := not_or.1 hlive
  have hv' : (s.tree.nodeAt j).v = true := by simpa using hv'
  have hpos := ht.freq_pos 512 j.isLt hv'
  rw [freqData_live hv'] at hd
  have := congrArg BitVec.toNat hd
  rw [BitVec.toNat_setWidth_of_le (by decide), BitVec.toNat_ofNat] at this
  omega

end Sys2Proof.Machine
end

section
/-! `BUILD` ends normally exactly on a Frequency Table that is not empty, and then leaves a tree (R25, R123). One Symbol
gives a tree of one leaf, from which `GEN` makes the one-bit code (R128, R152). -/

namespace Sys2Proof.Machine

/-- The Frequency Table is empty when every count is 0 (R123). -/
theorem TreeBuilder.noSymbols_iff (t : TreeBuilder) : t.noSymbols = true ↔ ∀ x, t.freqAt x = 0#32 := by
  simp only [TreeBuilder.noSymbols, List.all_eq_true, beq_iff_eq, RegFile.mem_cells, forall_exists_index,
    forall_apply_eq_imp_iff]
  exact ⟨fun h x => h x.toFin, fun h j => h (BitVec.ofFin j)⟩

theorem TreeBuilder.noSymbols_eq_false {t : TreeBuilder} {x : Symbol} (hx : t.freqAt x ≠ 0#32) : t.noSymbols = false :=
  Bool.eq_false_iff.2 fun h => hx (t.noSymbols_iff.1 h x)

/-- `BUILD` with a count that is not 0 (R123). -/
theorem exec_build {s : State} {x : Symbol} (hf : s.flt.err = none) (hx : s.tree.freqAt x ≠ 0#32) :
    exec .build s = .next ({ s with tree := buildTree s.cfg s.tree }.respond .ok 0#64) := by
  refine exec_of_rule_ok (fun _ => rfl) hf ?_
  exact if_neg (Bool.eq_false_iff.1 (TreeBuilder.noSymbols_eq_false hx))

/-- `BUILD` without one (R123). -/
theorem raises_build {s : State} (hf : s.flt.err = none) (h : ∀ x, s.tree.freqAt x = 0#32) :
    Raises .build s .empty := by
  refine raises_of_rule (fun _ => rfl) hf ?_
  exact if_pos (s.tree.noSymbols_iff.2 h)

theorem bMerge_freq (c : Config) (next : NodeIdx) (t : TreeBuilder) : (bMerge c next t).freq = t.freq :=
  TreeBuilder.setNode_freq ..

theorem bMerges_freq (c : Config) (fuel : Nat) (next : NodeIdx) (t : TreeBuilder) :
    (bMerges c fuel next t).freq = t.freq := by
  induction fuel generalizing next t with
  | zero => rfl
  | succ fuel ih =>
    unfold bMerges
    split
    · exact (ih _ _).trans (bMerge_freq ..)
    · rfl

/-- `BUILD` leaves the counts as they are (R123). -/
theorem buildTree_freq (c : Config) (t : TreeBuilder) : (buildTree c t).freq = t.freq :=
  (bMerges_freq ..).trans (bInit_freq c t)

/-- Settles O21: `raises_build`, and `buildTree_isTree` for the tree. -/
theorem buildGivesATree : Obligations.BuildGivesATree :=
  ⟨rfl, fun _ hf h => raises_build hf h, fun s _ hf hx => ⟨_, exec_build hf hx, ⟨rfl, rfl⟩, rfl, buildTree_freq ..,
    buildTree_isTree s.cfg (TreeBuilder.noSymbols_eq_false hx), rfl, rfl, rfl, rfl, rfl, rfl⟩⟩

/-! ### One Symbol -/

/-- `x` is the one Symbol with a count. -/
def TreeBuilder.OnlySymbol (t : TreeBuilder) (x : Symbol) : Prop := ∀ y, t.freqAt y ≠ 0#32 ↔ y = x

section
variable {t : TreeBuilder} {x : Symbol}

theorem TreeBuilder.OnlySymbol.leafCount (h : t.OnlySymbol x) : t.leafCount = 1 := by
  have hfill : t.freq = (RegFile.fill 256 0#32).set x.toFin (t.freqAt x) := by
    refine RegFile.ext_get fun j => ?_
    rw [RegFile.get_set, RegFile.get_fill]
    split
    · rw [‹j = x.toFin›]; rfl
    · rename_i hj
      by_contra hne
      exact hj (congrArg BitVec.toFin ((h (BitVec.ofFin j)).1 hne))
  have hx := (h x).2 rfl
  rw [TreeBuilder.leafCount, hfill]
  show ((List.replicate 256 0#32).set x.toNat _).countP _ = 1
  rw [List.countP_set (x.isLt.trans_eq List.length_replicate.symm), List.countP_replicate, List.getElem_replicate]
  simp [hx]

/-- A tree of one Symbol is its leaf alone (R128). -/
theorem TreeBuilder.OnlySymbol.tree (h : t.OnlySymbol x) (ht : t.IsTree) :
    t.root = leafIdx x ∧ t.nleaf = 1#9 ∧ ∀ n, 256 ≤ n.toNat → (t.nodeAt n).v = false := by
  have hn : t.nleaf.toNat = 1 := ht.counted.symm.trans h.leafCount
  obtain ⟨hlive, -, -, -, hleaf⟩ := ht.rootAt
  have hroot := leafIdx_setWidth (hleaf hn)
  refine ⟨?_, BitVec.eq_of_toNat_eq hn, fun n h256 => Bool.eq_false_iff.2 fun hv => ?_⟩
  · rw [← hroot] at hlive ⊢
    rw [(h _).1 ((ht.leaves _).1.1 hlive)]
  · have := ht.lt_of_live hv
    omega

/-- Its table is the one entry `"0"` (R152). -/
theorem TreeBuilder.OnlySymbol.table (h : t.OnlySymbol x) (ht : t.IsTree) {g g' : CodeTable}
    (hg : genEntries t g = .ok g') (hdead : ∀ y, (g.entry y).v = false) :
    (∀ y, (g'.entry y).v = true ↔ y = x) ∧ (g'.entry x).code = [false] := by
  have hlive (y : Symbol) : (g'.entry y).v = true ↔ y = x := by
    rw [genEntries_live ht hdead hg, bne_iff_ne, h]
  obtain ⟨d, -, hcode⟩ := genEntries_code ht hdead hg ((hlive x).2 rfl)
  obtain ⟨hroot, -⟩ := h.tree ht
  refine ⟨hlive, hcode.trans (if_pos ?_)⟩
  rw [hroot, leafIdx_toNat]
  exact x.isLt

end

/-- `GEN` from a valid tree (R150). -/
theorem exec_gen {s : State} {g : CodeTable} (hf : s.flt.err = none) (hv : s.tree.treeValid = true)
    (hg : genEntries s.tree { s.table.clearEntries with topen := false } = .ok g) :
    exec .gen s = .next ({ s with table := { g with nent := s.tree.nleaf, ctValid := true } }.respond .ok 0#64) := by
  refine exec_of_rule_ok (fun _ => rfl) hf ?_
  simp only [if_pos hv, hg, ended]

/-- Settles O25: the tree that `BUILD` leaves is one leaf, so `GEN` gives it `LEAF1`. -/
theorem oneSymbolGetsTheOneBitCode : Obligations.OneSymbolGetsTheOneBitCode := by
  intro s x hf hx hothers
  have ht := buildTree_isTree s.cfg (TreeBuilder.noSymbols_eq_false hx)
  have honly : (buildTree s.cfg s.tree).OnlySymbol x := fun y => by
    rw [TreeBuilder.freqAt_congr (buildTree_freq s.cfg s.tree)]
    exact ⟨fun hy => by_contra fun hne => hy (hothers y hne), fun e => e ▸ hx⟩
  have hbuild := exec_build hf hx
  have hvalid := buildTree_treeValid s.cfg s.tree
  generalize buildTree s.cfg s.tree = t at ht honly hbuild hvalid
  obtain ⟨hroot, hnleaf, hnone⟩ := honly.tree ht
  obtain ⟨g, hg, -, htopen, -⟩ := genEntries_spec ht { s.table.clearEntries with topen := false }
  obtain ⟨hlive, hcode⟩ := honly.table ht hg s.table.clearEntries_dead
  exact ⟨_, hbuild, ⟨rfl, rfl⟩, hroot, hnleaf, hvalid, hnone, _, exec_gen hf hvalid hg, ⟨rfl, rfl⟩, hlive, hcode,
    hnleaf, rfl, htopen, rfl, rfl, rfl, rfl, rfl⟩

end Sys2Proof.Machine
end

section
/-! The heap of R130 under `BUILD`. It keeps its order through `B_INIT` and the merges, so the two nodes that a merge
takes out are the least of the pool and the least of the rest (R126). -/

namespace Sys2Proof.Machine

/-! ### Orders that agree on the pool -/

theorem HeapOrdered.congr {lt lt' : NodeIdx → NodeIdx → Bool} {h : List NodeIdx} (ho : HeapOrdered lt h)
    (e : ∀ x ∈ h, ∀ y ∈ h, lt' x y = lt x y) : HeapOrdered lt' h := by
  have mem {j : Nat} (hj : j < h.length) : heapAt h j ∈ h := heapAt_eq_getElem hj ▸ List.getElem_mem hj
  intro j h0 hj
  rw [e _ (mem hj) _ (mem (by omega))]
  exact ho j h0 hj

theorem StrictTotal.lt_of_le_of_ne {lt : NodeIdx → NodeIdx → Bool} (o : StrictTotal lt) {x y : NodeIdx}
    (h : lt y x = false) (hne : x ≠ y) : lt x y = true :=
  (o.total x y hne).resolve_right (Bool.eq_false_iff.1 h)

/-- `EXTRACT()` on a heap in order (R130): the node it returns comes before every node it leaves, and those are a heap
in order. -/
theorem heapExtract_spec {lt : NodeIdx → NodeIdx → Bool} (o : StrictTotal lt) {h : List NodeIdx}
    (ho : HeapOrdered lt h) (hnd : h.Nodup) (hne : h ≠ []) :
    (∀ y ∈ (heapExtract lt h).2, lt (heapExtract lt h).1 y = true) ∧ HeapOrdered lt (heapExtract lt h).2 ∧
      (heapExtract lt h).2.Nodup ∧ ((heapExtract lt h).1 :: (heapExtract lt h).2).Perm h := by
  have hp := heapExtract_perm lt hne
  obtain ⟨hnot, hnd'⟩ := List.nodup_cons.1 (hp.nodup_iff.2 hnd)
  refine ⟨fun y hy => o.lt_of_le_of_ne ?_ (ne_of_mem_of_not_mem hy hnot).symm, heapExtract_ordered o ho, hnd', hp⟩
  exact heapExtract_least o ho y (hp.subset (List.mem_cons_of_mem _ hy))

/-- `KEYLT` is a parameter of its own (R7): the capacities and `CHILD` have no part in it. -/
theorem keyLt_congr {c d : Config} (hc : d.ties = c.ties) : d.keyLt = c.keyLt := by
  have hr : d.rank = c.rank := by funext k; simp only [Config.rank, hc]
  funext x y
  simp only [Config.keyLt, hr]

/-- Keys alone decide which of two nodes comes first (R125). -/
theorem TreeBuilder.before_eq {t u : TreeBuilder} {c d : Config} (hc : d.ties = c.ties) {x y : NodeIdx}
    (hx : u.nodeAt x = t.nodeAt x) (hy : u.nodeAt y = t.nodeAt y) : u.before d x y = t.before c x y := by
  simp only [TreeBuilder.before, TreeBuilder.keyOf, hx, hy, keyLt_congr hc]

theorem TreeBuilder.nodeAt_setNode_of_ne (t : TreeBuilder) {i j : NodeIdx} (h : i ≠ j) (n : Node) :
    (t.setNode j n).nodeAt i = t.nodeAt i := by
  by_cases hj : j.toNat < 511
  · rw [t.nodeAt_setNode hj, if_neg h]
  · rw [TreeBuilder.setNode, dif_neg hj]

/-- A heap stays in order when a node that is not in it is written, and the node then enters it. -/
theorem HeapOrdered.insert_setNode {c : Config} {t : TreeBuilder} {h : List NodeIdx} (ho : HeapOrdered (t.before c) h)
    {j : NodeIdx} (hj : j ∉ h) (n : Node) :
    HeapOrdered ((t.setNode j n).before c) (heapInsert ((t.setNode j n).before c) h j) := by
  have off {x : NodeIdx} (hx : x ∈ h) : (t.setNode j n).nodeAt x = t.nodeAt x :=
    t.nodeAt_setNode_of_ne (ne_of_mem_of_not_mem hx hj) n
  exact heapInsert_ordered (TreeBuilder.before_strict ..)
    (ho.congr fun x hx y hy => TreeBuilder.before_eq rfl (off hx) (off hy)) j

/-! ### The merges -/

/-- The Tree Builder but for the heap, which R123 to R127 do not name. -/
def TreeBuilder.store (t : TreeBuilder) : TreeBuilder := { t with heap := [] }

theorem TreeBuilder.store_setNode (t : TreeBuilder) (j : NodeIdx) (n : Node) :
    (t.setNode j n).store = t.store.setNode j n := by
  simp only [TreeBuilder.store, TreeBuilder.setNode]
  split <;> rfl

/-- A merge of the two least nodes of the pool (R126), on a heap that is in order again. -/
structure MergesLeast (c : Config) (k : Nat) (t u : TreeBuilder) (x y : NodeIdx) (rest : List NodeIdx) : Prop
    extends Merges c k t u x y rest where
  store : u.store = (t.setNode (internalIdx k) (mergedNode c t x y)).store
  first : ∀ n ∈ y :: rest, t.before c x n = true
  second : ∀ n ∈ rest, t.before c y n = true
  ordered : HeapOrdered (u.before c) u.heap

theorem bMerge_store (c : Config) (next : NodeIdx) (t : TreeBuilder) : (bMerge c next t).store =
    (t.setNode next (mergedNode c t (poolTake c t).1 (poolTake c (poolTake c t).2).1)).store := by
  simp only [bMerge, poolTake, TreeBuilder.setNode, TreeBuilder.store]
  split <;> rfl

/-- `B_MERGE` on a heap in order. -/
theorem Forest.bMerge_mergesLeast {c : Config} {k : Nat} {t : TreeBuilder} (h : Forest k t)
    (ho : HeapOrdered (t.before c) t.heap) (hp : 1 < t.heap.length) :
    k < 255 ∧ ∃ x y rest, MergesLeast c k t (bMerge c (internalIdx k) t) x y rest := by
  have hk : k < 255 := by have := h.count; have := t.leafCount_le; omega
  have hidx := internalIdx_toNat (show k < 256 by omega)
  have o := t.before_strict c
  obtain ⟨x, y, rest, perm, hx, hy, hrest, hnode, hfreq, hheap, perm'⟩ := bMerge_spec c (next := internalIdx k) t hp
  have hstore := bMerge_store c (internalIdx k) t
  have joins : Joins c t (bMerge c (internalIdx k) t) (internalIdx k) x y :=
    { node := fun j => (TreeBuilder.nodeAt_congr hnode j).trans (t.nodeAt_setNode (by omega) _ j)
      internal := by omega
      free := by simpa using mt (h.internals k hk).1 (lt_irrefl k) }
  have m : Merges c k t (bMerge c (internalIdx k) t) x y rest := ⟨joins, perm, perm', hfreq⟩
  have hfree : internalIdx k ∉ rest := fun hn => joins.next_ne (m.rest_live h _ hn) rfl
  -- The two `EXTRACT`s, each on a heap in order; `INSERT` then adds a node that is in neither.
  obtain ⟨hfirst, ho1, hnd1, p1⟩ := heapExtract_spec o ho h.nodup (List.ne_nil_of_length_pos (by omega))
  have hlen := p1.length_eq
  rw [List.length_cons] at hlen
  obtain ⟨hsecond, ho2, -, p2⟩ := heapExtract_spec o ho1 hnd1 (List.ne_nil_of_length_pos (by omega))
  rw [← hx] at hfirst
  rw [hrest] at hsecond ho2 p2
  rw [← hy] at hsecond p2
  refine ⟨hk, x, y, rest, m, ?_, fun n hn => hfirst n (p2.subset hn), hsecond, ?_⟩
  · rw [hx, hy]; exact hstore
  · rw [hheap, TreeBuilder.before_congr hnode]
    exact ho2.insert_setNode hfree _

/-- An invariant that every merge keeps, while the heap is in order, holds when they end. -/
theorem Forest.merges_induct {c : Config} {P : TreeBuilder → Prop}
    (hstep : ∀ k t u x y rest, Forest k t → MergesLeast c k t u x y rest → P t → P u) (fuel : Nat) {k : Nat}
    {t : TreeBuilder} (h : Forest k t) (ho : HeapOrdered (t.before c) t.heap) (hP : P t) :
    P (bMerges c fuel (internalIdx k) t) := by
  induction fuel generalizing k t with
  | zero => exact hP
  | succ fuel ih =>
    unfold bMerges
    split
    · obtain ⟨hk, x, y, rest, m⟩ := h.bMerge_mergesLeast ho ‹_›
      rw [internalIdx_succ]
      exact ih (m.forest h hk) m.ordered (hstep k t _ x y rest h m hP)
    · exact hP

/-! ### `B_INIT` -/

theorem initLeaf_ordered {pre : List Count} {t : TreeBuilder} (h : Planted pre t) {c : Config}
    (ho : HeapOrdered (t.before c) t.heap) (a : Count) (hl : pre.length < 256) :
    HeapOrdered ((initLeaf c t pre.length a).before c) (initLeaf c t pre.length a).heap := by
  have hfree : BitVec.ofNat 9 pre.length ∉ t.heap := by
    rw [h.mem, BitVec.toNat_ofNat, Nat.mod_eq_of_lt (by omega)]
    simp
  unfold initLeaf
  split
  · exact ho
  · have := ho.insert_setNode hfree { v := true, f := a.setWidth 40, l := 0#9, r := 0#9 }
    simp only [TreeBuilder.setNode_heap]
    exact this

theorem initLeaves_ordered {pre : List Count} {t : TreeBuilder} (h : Planted pre t) {c : Config}
    (ho : HeapOrdered (t.before c) t.heap) (ns : List Count) (hl : pre.length + ns.length ≤ 256) :
    HeapOrdered ((initLeaves c ns pre.length t).before c) (initLeaves c ns pre.length t).heap := by
  induction ns generalizing pre t with
  | nil => exact ho
  | cons a ns ih =>
    rw [List.length_cons] at hl
    have := ih (h.initLeaf c a (by omega)) (initLeaf_ordered h ho a (by omega)) (by simp; omega)
    rwa [List.length_append] at this

/-- Before the first leaf (R124). -/
theorem planted_nil (t : TreeBuilder) :
    Planted [] { t with node := t.node.map (fun n => { n with v := false }), heap := [] } where
  mem := by simp
  live n := by rw [TreeBuilder.nodeAt_unlive]; simp
  value := by simp
  nodup := List.nodup_nil
  count := rfl
  total := rfl

/-- `B_INIT` leaves the heap in order. -/
theorem bInit_ordered (c : Config) (t : TreeBuilder) : HeapOrdered ((bInit c t).before c) (bInit c t).heap :=
  initLeaves_ordered (planted_nil t) (fun _ _ hj => absurd hj (Nat.not_lt_zero _)) t.freq.cells
    (by simp [t.freq.size])

/-! ### The children of a node (R126) -/

/-- At every live internal node the child that `CHILD` names as the one removed first comes first. -/
def ChildrenOrdered (c : Config) (t : TreeBuilder) : Prop :=
  ∀ n, 256 ≤ n.toNat → (t.nodeAt n).v = true →
    (c.child = .firstIsLeft → t.before c (t.nodeAt n).l (t.nodeAt n).r = true) ∧
    (c.child = .firstIsRight → t.before c (t.nodeAt n).r (t.nodeAt n).l = true)

theorem mergedNode_firstIsLeft {c : Config} (h : c.child = .firstIsLeft) (t : TreeBuilder) (x y : NodeIdx) :
    (mergedNode c t x y).l = x ∧ (mergedNode c t x y).r = y := by simp [mergedNode, h]

theorem mergedNode_firstIsRight {c : Config} (h : c.child = .firstIsRight) (t : TreeBuilder) (x y : NodeIdx) :
    (mergedNode c t x y).l = y ∧ (mergedNode c t x y).r = x := by simp [mergedNode, h]

/-- A merge keeps the order of the children: its two nodes come out in order, and no live node changes. -/
theorem MergesLeast.childrenOrdered {c : Config} {k : Nat} {t u : TreeBuilder} {x y : NodeIdx} {rest : List NodeIdx}
    (h : Forest k t) (m : MergesLeast c k t u x y rest) (hc : ChildrenOrdered c t) : ChildrenOrdered c u := by
  have keep {a b : NodeIdx} (ha : (t.nodeAt a).v = true) (hb : (t.nodeAt b).v = true) :
      u.before c a b = t.before c a b := TreeBuilder.before_eq rfl (m.joins.at_live ha) (m.joins.at_live hb)
  intro n h256 hn
  rcases (m.joins.live_iff n).1 hn with rfl | hn
  · have hxy : u.before c x y = true := (keep (m.x_live h) (m.y_live h)).trans (m.first y (by simp))
    rw [m.joins.at_next]
    refine ⟨fun hch => ?_, fun hch => ?_⟩
    · obtain ⟨hl, hr⟩ := mergedNode_firstIsLeft hch t x y
      rwa [hl, hr]
    · obtain ⟨hl, hr⟩ := mergedNode_firstIsRight hch t x y
      rwa [hl, hr]
  · obtain ⟨-, -, -, hlv, hrv, -⟩ := h.children n h256 hn
    rw [m.joins.at_live hn, keep hlv hrv, keep hrv hlv]
    exact hc n h256 hn

theorem buildTree_childrenOrdered (c : Config) (t : TreeBuilder) : ChildrenOrdered c (buildTree c t) := by
  have hf := bInit_forest c t
  have hleaves : ChildrenOrdered c (bInit c t) := fun n h256 hn => by have := hf.lt_of_live hn; omega
  exact hf.merges_induct (fun k t u x y rest h m hP => m.childrenOrdered h hP) (bInit c t).heap.length
    (bInit_ordered c t) hleaves

/-- Settles O24, by induction over the merges. -/
theorem buildOrdersTheChildren : Obligations.BuildOrdersTheChildren :=
  fun s _ hf hx => ⟨_, exec_build hf hx, buildTree_childrenOrdered s.cfg s.tree⟩

end Sys2Proof.Machine
end

section
/-! `BUILD` with the heap of R130 is the greedy merge of R123 to R127 over a plain set of nodes. -/

namespace Sys2Proof.Machine

/-- The heap of `t` holds the nodes of the pool of `p`, and everything else of the two is the same. -/
structure Refines (t : TreeBuilder) (p : List NodeIdx × TreeBuilder) : Prop where
  store : t.store = p.2.store
  perm : t.heap.Perm p.1

theorem TreeBuilder.before_of_store {t u : TreeBuilder} (h : t.store = u.store) (c : Config) :
    t.before c = u.before c :=
  TreeBuilder.before_congr (congrArg TreeBuilder.node h) c

theorem mergedNode_of_store {t u : TreeBuilder} (h : t.store = u.store) (c : Config) (x y : NodeIdx) :
    mergedNode c t x y = mergedNode c u x y := by
  have := congrArg (mergedNode c · x y) h
  exact this

theorem store_setNode_congr {t u : TreeBuilder} (h : t.store = u.store) (j : NodeIdx) (n : Node) :
    (t.setNode j n).store = (u.setNode j n).store := by
  rw [TreeBuilder.store_setNode, TreeBuilder.store_setNode, h]

/-! ### `B_INIT` (R124) -/

theorem Refines.initLeaf {t : TreeBuilder} {p : List NodeIdx × TreeBuilder} (r : Refines t p) (c : Config) (x : Nat)
    (a : Count) : Refines (initLeaf c t x a)
      (if a = 0#32 then p
       else (BitVec.ofNat 9 x :: p.1,
         p.2.setNode (BitVec.ofNat 9 x) { v := true, f := a.setWidth 40, l := 0#9, r := 0#9 })) := by
  unfold Machine.initLeaf
  split
  · exact r
  · refine ⟨store_setNode_congr r.store _ _, (heapInsert_perm ..).trans ?_⟩
    rw [TreeBuilder.setNode_heap]
    exact r.perm.cons _

theorem Refines.initLeaves {t : TreeBuilder} {p : List NodeIdx × TreeBuilder} (r : Refines t p) (c : Config)
    (ns : List Count) (x : Nat) : Refines (initLeaves c ns x t) (plantLeaves ns x p) := by
  induction ns generalizing x t p with
  | nil => exact r
  | cons a ns ih => exact ih (r.initLeaf c x a) (x + 1)

/-! ### The merges (R126) -/

theorem minPool_eq {lt : NodeIdx → NodeIdx → Bool} (o : StrictTotal lt) {pool rest : List NodeIdx} {x : NodeIdx}
    (hp : pool.Perm (x :: rest)) (hx : ∀ n ∈ rest, lt x n = true) : minPool lt pool = x := by
  obtain ⟨hmem, hleast⟩ := minPool_spec o (pool := pool) (by rintro rfl; simp at hp)
  rcases List.mem_cons.1 (hp.subset hmem) with h | h
  · exact h
  · have := hleast x (hp.symm.subset List.mem_cons_self)
    simp [hx _ h] at this

/-- One turn of the greedy merge, `x` and `y` being the two least of the pool. -/
theorem poolMerges_succ {c : Config} {v : TreeBuilder} {pool rest : List NodeIdx} {x y : NodeIdx}
    (hp : pool.Perm (x :: y :: rest)) (hx : ∀ n ∈ y :: rest, v.before c x n = true)
    (hy : ∀ n ∈ rest, v.before c y n = true) (fuel : Nat) (next : NodeIdx) :
    ∃ pool', pool'.Perm (next :: rest) ∧ poolMerges c (fuel + 1) next (pool, v) =
      poolMerges c fuel (next + 1#9) (pool', v.setNode next (mergedNode c v x y)) := by
  have o := v.before_strict c
  have hp1 : (pool.erase x).Perm (y :: rest) := by simpa using hp.erase x
  have hp2 : ((pool.erase x).erase y).Perm rest := by simpa using hp1.erase y
  have hlen : 1 < pool.length := by rw [hp.length_eq]; simp
  refine ⟨next :: (pool.erase x).erase y, hp2.cons next, ?_⟩
  simp only [poolMerges, if_pos hlen, minPool_eq o hp hx, minPool_eq o hp1 hy]

theorem Refines.merges {c : Config} (fuel : Nat) {k : Nat} {t : TreeBuilder} {p : List NodeIdx × TreeBuilder}
    (r : Refines t p) (h : Forest k t) (ho : HeapOrdered (t.before c) t.heap) :
    Refines (bMerges c fuel (internalIdx k) t) (poolMerges c fuel (internalIdx k) p) := by
  induction fuel generalizing k t p with
  | zero => exact r
  | succ fuel ih =>
    obtain ⟨pool, v⟩ := p
    obtain ⟨hs, hp⟩ := r
    by_cases h1 : 1 < t.heap.length
    · obtain ⟨hk, x, y, rest, m⟩ := h.bMerge_mergesLeast ho h1
      obtain ⟨pool', hp', he⟩ := poolMerges_succ (c := c) (hp.symm.trans m.before)
        (TreeBuilder.before_of_store hs c ▸ m.first) (TreeBuilder.before_of_store hs c ▸ m.second) fuel (internalIdx k)
      rw [he, bMerges, if_pos h1, internalIdx_succ]
      refine ih ⟨m.store.trans ?_, m.after.trans hp'.symm⟩ (m.forest h hk) m.ordered
      rw [mergedNode_of_store hs]
      exact store_setNode_congr hs _ _
    · rw [bMerges, if_neg h1, poolMerges, if_neg (hp.length_eq ▸ h1)]
      exact ⟨hs, hp⟩

/-! ### `BUILD` -/

/-- `B_FINISH` (R127) on a pool of one node. -/
theorem Refines.finish {t : TreeBuilder} {p : List NodeIdx × TreeBuilder} (r : Refines t p) (h1 : t.heap.length = 1)
    (c : Config) (nl : Nat) : bFinish nl t =
      { p.2 with root := minPool (p.2.before c) p.1, nleaf := BitVec.ofNat 9 nl, treeValid := true, heap := [] } := by
  obtain ⟨hs, hp⟩ := r
  obtain ⟨n, hn⟩ := List.length_eq_one_iff.1 h1
  rw [hn, List.singleton_perm] at hp
  have hroot : heapAt t.heap 0 = minPool (p.2.before c) p.1 := by rw [hn, ← hp]; rfl
  show ({ t.store with root := heapAt t.heap 0, nleaf := BitVec.ofNat 9 nl, treeValid := true } : TreeBuilder) = _
  rw [hs, hroot]
  rfl

theorem bInit_heap_pos (c : Config) {t : TreeBuilder} (h : t.noSymbols = false) : 0 < (bInit c t).heap.length := by
  have hc : (bInit c t).heap.length = (bInit c t).leafCount := (bInit_forest c t).count
  rw [hc, TreeBuilder.leafCount, bInit_freq, List.countP_pos_iff]
  simpa [TreeBuilder.noSymbols] using h

/-- The heap of R130 adds nothing to the greedy merge. -/
theorem buildTree_eq_poolBuild (c : Config) {t : TreeBuilder} (h : t.noSymbols = false) :
    buildTree c t = poolBuild c t := by
  have hf := bInit_forest c t
  have start : Refines { t with node := t.node.map (fun n => { n with v := false }), heap := [] }
      ([], { t with node := t.node.map (fun n => { n with v := false }) }) := ⟨rfl, .nil⟩
  have leaves : Refines (bInit c t) _ := start.initLeaves c t.freq.cells 0
  have merged := leaves.merges (bInit c t).heap.length hf (bInit_ordered c t)
  obtain ⟨-, -, hone, -⟩ := hf.merges c (bInit c t).heap.length (bInit_heap_pos c h) (Nat.le_succ _)
  have finished := merged.finish hone c (bInit c t).heap.length
  simp only [poolBuild, ← leaves.perm.length_eq]
  exact finished

/-- Settles O22, by `buildTree_eq_poolBuild`: the two runs keep the same pool and store merge by merge. -/
theorem buildIsTheGreedyMerge : Obligations.BuildIsTheGreedyMerge :=
  fun s _ hf hx => ⟨_, exec_build hf hx, ⟨rfl, rfl⟩,
    buildTree_eq_poolBuild s.cfg (TreeBuilder.noSymbols_eq_false hx), rfl, rfl, rfl, rfl, rfl⟩

end Sys2Proof.Machine
end

section
/-! `BUILD` is a function of the counts, `KEYLT` and `CHILD` alone (R123): two greedy merges that start from the same
counts keep the same pool and the same live nodes, whatever the dead ones hold. -/

namespace Sys2Proof.Machine

/-! ### The least of a pool, under orders that agree on it -/

theorem leastOf_congr {lt lt' : NodeIdx → NodeIdx → Bool} {m : NodeIdx} {ys : List NodeIdx}
    (h : ∀ x ∈ m :: ys, ∀ y ∈ m :: ys, lt' x y = lt x y) : leastOf lt' m ys = leastOf lt m ys := by
  induction ys generalizing m with
  | nil => rfl
  | cons z zs ih =>
    unfold leastOf
    rw [h z (by simp) m (by simp)]
    refine ih fun x hx y hy => h x ?_ y ?_ <;> grind

theorem minPool_congr {lt lt' : NodeIdx → NodeIdx → Bool} {pool : List NodeIdx}
    (h : ∀ x ∈ pool, ∀ y ∈ pool, lt' x y = lt x y) : minPool lt' pool = minPool lt pool := by
  cases pool with
  | nil => rfl
  | cons x xs => exact leastOf_congr h

/-! ### Two pools -/

/-- What a write to the same entry keeps: two nodes that were the same are, and the two entries written are. -/
theorem nodeAt_setNode_congr {t u : TreeBuilder} {i j : NodeIdx} (n : Node)
    (h : i = j ∨ u.nodeAt i = t.nodeAt i) : (u.setNode j n).nodeAt i = (t.setNode j n).nodeAt i := by
  by_cases hi : i = j
  · subst hi
    by_cases h511 : i.toNat < 511
    · rw [u.nodeAt_setNode h511, t.nodeAt_setNode h511, if_pos rfl, if_pos rfl]
    · simp [TreeBuilder.nodeAt, h511]
  · rw [u.nodeAt_setNode_of_ne hi, t.nodeAt_setNode_of_ne hi]
    exact h.resolve_left hi

/-- Two pools with the same nodes, each over a store with the same live nodes. -/
structure SamePool (p q : List NodeIdx × TreeBuilder) : Prop where
  pool : q.1 = p.1
  nodes : ∀ n ∈ p.1, q.2.nodeAt n = p.2.nodeAt n
  live : ∀ j, (q.2.nodeAt j).v = (p.2.nodeAt j).v ∧ ((p.2.nodeAt j).v = true → q.2.nodeAt j = p.2.nodeAt j)

section
variable {c d : Config} {p q : List NodeIdx × TreeBuilder}

/-- The same node is written, and it enters what is left of the two pools. -/
theorem SamePool.add (h : SamePool p q) {rest : List NodeIdx} (hr : rest ⊆ p.1) (j : NodeIdx) (n : Node) :
    SamePool (j :: rest, p.2.setNode j n) (j :: rest, q.2.setNode j n) where
  pool := rfl
  nodes i hi := nodeAt_setNode_congr n ((List.mem_cons.1 hi).imp_right fun hi => h.nodes i (hr hi))
  live i := by
    by_cases hi : i = j
    · have e := nodeAt_setNode_congr (t := p.2) (u := q.2) n (.inl hi)
      exact ⟨congrArg Node.v e, fun _ => e⟩
    · rw [q.2.nodeAt_setNode_of_ne hi, p.2.nodeAt_setNode_of_ne hi]
      exact h.live i

theorem SamePool.minPool_eq (h : SamePool p q) (hc : d.ties = c.ties) {rest : List NodeIdx} (hr : rest ⊆ p.1) :
    minPool (q.2.before d) rest = minPool (p.2.before c) rest :=
  minPool_congr fun x hx y hy => TreeBuilder.before_eq hc (h.nodes x (hr hx)) (h.nodes y (hr hy))

theorem mergedNode_congr (hd : d.child = c.child) {t u : TreeBuilder} {x y : NodeIdx} (hx : u.nodeAt x = t.nodeAt x)
    (hy : u.nodeAt y = t.nodeAt y) : mergedNode d u x y = mergedNode c t x y := by
  simp only [mergedNode, hd, hx, hy]

/-- Two unlive stores, before the first leaf (R124). -/
theorem SamePool.start (t u : TreeBuilder) :
    SamePool ([], { t with node := t.node.map (fun n => { n with v := false }) })
      ([], { u with node := u.node.map (fun n => { n with v := false }) }) where
  pool := rfl
  nodes := nofun
  live j := by
    have ht := congrArg Node.v (t.nodeAt_unlive t.heap j)
    have hu := congrArg Node.v (u.nodeAt_unlive u.heap j)
    exact ⟨hu.trans ht.symm, fun hv => nomatch ht.symm.trans hv⟩

theorem SamePool.leaves (h : SamePool p q) {ns ms : List Count} (e : ms = ns) (x : Nat) :
    SamePool (plantLeaves ns x p) (plantLeaves ms x q) := by
  subst e
  induction ms generalizing x p q with
  | nil => exact h
  | cons a ms ih =>
    unfold plantLeaves
    rw [h.pool]
    split
    · exact ih h (x + 1)
    · exact ih (h.add (List.Subset.refl _) _ _) (x + 1)

theorem SamePool.merges (h : SamePool p q) (hc : d.ties = c.ties) (hd : d.child = c.child) (fuel : Nat)
    (next : NodeIdx) : SamePool (poolMerges c fuel next p) (poolMerges d fuel next q) := by
  induction fuel generalizing next p q with
  | zero => exact h
  | succ fuel ih =>
    obtain ⟨pool, t⟩ := p
    obtain ⟨pool', u⟩ := q
    obtain rfl : pool' = pool := h.pool
    unfold poolMerges
    split
    · rename_i hp
      obtain ⟨hx, -⟩ := minPool_spec (t.before_strict c) (List.ne_nil_of_length_pos (Nat.zero_lt_of_lt hp))
      have hlen := List.length_erase_of_mem hx
      obtain ⟨hy, -⟩ := minPool_spec (t.before_strict c)
        (List.ne_nil_of_length_pos (show 0 < (pool'.erase (minPool (t.before c) pool')).length by omega))
      have hsub : pool'.erase (minPool (t.before c) pool') ⊆ pool' := List.erase_subset
      simp only [h.minPool_eq hc (List.Subset.refl pool'), h.minPool_eq hc hsub,
        mergedNode_congr hd (h.nodes _ hx) (h.nodes _ (hsub hy))]
      exact ih (h.add (List.Subset.trans List.erase_subset hsub) _ _) _
    · exact h

/-- Two trees with the same root, number of leaves and live nodes. -/
def SameTree (t u : TreeBuilder) : Prop :=
  u.root = t.root ∧ u.nleaf = t.nleaf ∧
    ∀ j, (u.nodeAt j).v = (t.nodeAt j).v ∧ ((t.nodeAt j).v = true → u.nodeAt j = t.nodeAt j)

/-- The merges and `B_FINISH` (R126, R127) on a pool. -/
def treeOfPool (c : Config) (p : List NodeIdx × TreeBuilder) : TreeBuilder :=
  let q := poolMerges c p.1.length 256#9 p
  { q.2 with root := minPool (q.2.before c) q.1, nleaf := BitVec.ofNat 9 p.1.length, treeValid := true, heap := [] }

theorem poolBuild_eq (c : Config) (t : TreeBuilder) : poolBuild c t = treeOfPool c
    (plantLeaves t.freq.cells 0 ([], { t with node := t.node.map (fun n => { n with v := false }) })) := rfl

theorem SamePool.treeOfPool (h : SamePool p q) (hc : d.ties = c.ties) (hd : d.child = c.child) :
    SameTree (treeOfPool c p) (treeOfPool d q) := by
  have m := h.merges hc hd p.1.length 256#9
  unfold Machine.treeOfPool
  rw [h.pool]
  refine ⟨?_, rfl, m.live⟩
  dsimp only
  rw [m.pool]
  exact m.minPool_eq hc (List.Subset.refl _)

/-- The greedy merge from the same counts, under the same `KEYLT` and `CHILD`. -/
theorem poolBuild_congr {t u : TreeBuilder} (hf : u.freq = t.freq) (hc : d.ties = c.ties) (hd : d.child = c.child) :
    SameTree (poolBuild c t) (poolBuild d u) := by
  rw [poolBuild_eq, poolBuild_eq]
  exact ((SamePool.start t u).leaves (congrArg RegFile.cells hf) 0).treeOfPool hc hd

end

/-- Settles O23, on the two greedy merges that the two runs are (`buildTree_eq_poolBuild`). -/
theorem buildDependsOnTheCountsAlone : Obligations.BuildDependsOnTheCountsAlone := by
  intro s u x hs hu hx hfreq hties hchild
  have hx' : u.tree.freqAt x ≠ 0#32 := by rwa [TreeBuilder.freqAt_congr hfreq]
  refine ⟨_, _, exec_build hs hx, exec_build hu hx', ?_⟩
  show SameTree (buildTree s.cfg s.tree) (buildTree u.cfg u.tree)
  rw [buildTree_eq_poolBuild _ (TreeBuilder.noSymbols_eq_false hx),
    buildTree_eq_poolBuild _ (TreeBuilder.noSymbols_eq_false hx')]
  exact poolBuild_congr hfreq hties hchild

end Sys2Proof.Machine
end

section
/-! The key orders that a configuration can hold (R7, R125). Keys are finitely many, so the number of keys before a key
is a rank, and the tie table that lists every key with its rank holds the order. -/

namespace Sys2Proof.Machine

/-- The number of keys that come before `k`. -/
noncomputable def keysBefore (lt : Key → Key → Bool) (k : Key) : Nat := {x | lt x k = true}.ncard

theorem finite_key : Finite Key :=
  Finite.of_injective (fun k => (k.f, k.i)) fun x y h => by cases x; cases y; simpa using h

section
variable {lt : Key → Key → Bool}

theorem AdmissibleOrder.keysBefore_lt (o : AdmissibleOrder lt) {x y : Key} (h : lt x y = true) :
    keysBefore lt x < keysBefore lt y := by
  have := finite_key
  refine Set.ncard_lt_ncard ((Set.ssubset_iff_of_subset fun z hz => o.trans z x y hz h).2 ⟨x, h, ?_⟩)
    (Set.toFinite _)
  exact Bool.eq_false_iff.1 (o.irrefl x)

theorem AdmissibleOrder.lt_iff_keysBefore (o : AdmissibleOrder lt) (x y : Key) :
    lt x y = true ↔ keysBefore lt x < keysBefore lt y := by
  refine ⟨o.keysBefore_lt, fun h => (o.total x y ?_).resolve_right fun hyx => ?_⟩
  · rintro rfl
    exact lt_irrefl _ h
  · exact lt_asymm h (o.keysBefore_lt hyx)

/-- No two keys have the same rank. -/
theorem AdmissibleOrder.eq_of_keysBefore (o : AdmissibleOrder lt) {x y : Key}
    (h : keysBefore lt x = keysBefore lt y) : x = y := by
  by_contra hne
  rcases o.total x y hne with hl | hl
  · exact (o.keysBefore_lt hl).ne h
  · exact (o.keysBefore_lt hl).ne' h

/-- A configuration whose ranks are those of an admissible order has that order as its `KEYLT`. -/
theorem AdmissibleOrder.keyLt_eq (o : AdmissibleOrder lt) {c : Config} (hr : ∀ k, c.rank k = keysBefore lt k)
    (x y : Key) : c.keyLt x y = lt x y := by
  rw [Bool.eq_iff_iff, o.lt_iff_keysBefore]
  simp only [Config.keyLt, Bool.or_eq_true, Bool.and_eq_true, decide_eq_true_eq, beq_iff_eq, hr]
  constructor
  · rintro (hf | ⟨-, hk | ⟨hk, hi⟩⟩)
    · exact o.keysBefore_lt (o.refines x y hf)
    · exact hk
    · rw [o.eq_of_keysBefore hk] at hi
      exact absurd hi (BitVec.lt_irrefl _)
  · intro hk
    rcases Nat.lt_trichotomy x.f.toNat y.f.toNat with hf | hf | hf
    · exact .inl hf
    · exact .inr ⟨BitVec.eq_of_toNat_eq hf, .inl hk⟩
    · exact absurd hk (o.keysBefore_lt (o.refines y x hf)).asymm

/-- Every admissible order has a tie table. -/
theorem AdmissibleOrder.exists_ties (o : AdmissibleOrder lt) :
    ∃ ties, ∀ c : Config, c.ties = ties → ∀ x y, c.keyLt x y = lt x y := by
  have := finite_key
  have := Fintype.ofFinite Key
  refine ⟨Finset.univ.toList.map (fun k => (k, keysBefore lt k)), fun c hc => o.keyLt_eq fun k => ?_⟩
  rw [Config.rank, hc, List.lookup_graph _ (Finset.mem_toList.2 (Finset.mem_univ k)), Option.getD_some]

end

/-- Settles O27: `exists_ties` in one direction, `Config.keyLt_admissible` in the other. -/
theorem everyAdmissibleKeyOrderIsHeld : Obligations.EveryAdmissibleKeyOrderIsHeld := by
  refine ⟨fun lt => ⟨AdmissibleOrder.exists_ties, fun ⟨ties, h⟩ => ?_⟩, fun x y => ?_⟩
  · have e : { Config.standard with ties := ties }.keyLt = lt := funext fun x => funext fun y => h _ rfl x y
    exact e ▸ Config.keyLt_admissible _
  · simp [Config.keyLt, Config.rank, Config.standard]

end Sys2Proof.Machine
end

section
/-! The paths of a tree (R128, R151). The last bit of a path is the choice between the two children of a node, a node
has one parent, and the root has none; so two paths to one node agree from their last bits backwards. -/

namespace Sys2Proof.Machine

variable {t : TreeBuilder}

/-- The last bit of a path leads from a parent to one of its children. -/
theorem TreeBuilder.IsTree.follow_concat (h : t.IsTree) {n : NodeIdx} {c : BitString} {b : Bool}
    (hc : t.follow t.root (c ++ [b]) = some n) :
    ∃ p, t.follow t.root c = some p ∧ t.IsChild p n ∧ (if b then (t.nodeAt p).r else (t.nodeAt p).l) = n := by
  rw [TreeBuilder.follow_append, Option.bind_eq_some_iff] at hc
  obtain ⟨p, hp, hb⟩ := hc
  obtain ⟨hv, -, -⟩ := h.descends.follow_live h.rootAt.1 hp
  obtain ⟨-, -, h256⟩ := h.descends.follow_live hv hb
  have h256 := h256 (by simp)
  rw [TreeBuilder.follow_cons h256, TreeBuilder.follow_nil, Option.some.injEq] at hb
  refine ⟨p, hp, ⟨h256, hv, ?_⟩, hb⟩
  cases b
  · exact .inl hb
  · exact .inr hb

/-- A node has at most one parent (R25 (d)). -/
theorem TreeBuilder.IsTree.parent_unique (h : t.IsTree) {p q n : NodeIdx} (hp : t.IsChild p n) (hq : t.IsChild q n) :
    p = q := by
  obtain ⟨b, hb⟩ := hp.follow
  obtain ⟨hv, -, -⟩ := h.descends.follow_live hp.2.1 hb
  have hroot : n ≠ t.root := fun e => h.rootless p (e ▸ hp)
  obtain ⟨r, -, hr⟩ := h.parents n hv hroot
  exact (hr p hp).trans (hr q hq).symm

/-- No bit leads back to the root. -/
theorem TreeBuilder.IsTree.path_to_root (h : t.IsTree) {c : BitString} (hc : t.follow t.root c = some t.root) :
    c = [] := by
  rcases List.eq_nil_or_concat' c with rfl | ⟨c, b, rfl⟩
  · rfl
  · obtain ⟨p, -, hp, -⟩ := h.follow_concat hc
    exact absurd hp (h.rootless p)

/-- A node is reached from the root along at most one bit-string. -/
theorem TreeBuilder.IsTree.path_unique (h : t.IsTree) {n : NodeIdx} {c d : BitString}
    (hc : t.follow t.root c = some n) (hd : t.follow t.root d = some n) : c = d := by
  induction c using List.reverseRecOn generalizing n d with
  | nil =>
    obtain rfl : t.root = n := by simpa using hc
    exact (h.path_to_root hd).symm
  | append_singleton c b ih =>
    rcases List.eq_nil_or_concat' d with rfl | ⟨d, b', rfl⟩
    · obtain rfl : t.root = n := by simpa using hd
      exact h.path_to_root hc
    · obtain ⟨p, hcp, hp, hb⟩ := h.follow_concat hc
      obtain ⟨q, hdq, hq, hb'⟩ := h.follow_concat hd
      obtain rfl := h.parent_unique hp hq
      obtain ⟨-, -, hne, -⟩ := h.children p hp.1 hp.2.1
      have hbit : b = b' := by
        cases b <;> cases b' <;> simp only [if_true, Bool.false_eq_true, if_false] at hb hb'
        · rfl
        · exact absurd (hb.trans hb'.symm) hne
        · exact absurd (hb'.trans hb.symm) hne
        · rfl
      rw [ih hcp hdq, hbit]

/-- A path has fewer bits than the tree has leaves: its nodes but the last are internal, and the root is the last node
that a merge wrote (R25 (e)). -/
theorem TreeBuilder.IsTree.path_length_lt (h : t.IsTree) {n : NodeIdx} {c : BitString}
    (hc : t.follow t.root c = some n) : c.length < t.nleaf.toNat := by
  obtain ⟨hlive, hpos, -, -, -⟩ := h.rootAt
  by_cases hnil : c = []
  · subst hnil
    exact hpos
  · have := h.descends.follow_length hlive hc hnil
    have := h.lt_of_live hlive
    omega

/-- Settles O26: the leaf is reached because it is live; the path is unique and bounded as for every node. -/
theorem everyLeafHasOneBoundedPath : Obligations.EveryLeafHasOneBoundedPath := by
  intro t x h hv
  obtain ⟨c, hc⟩ := h.reached 511 (by omega) hv
  exact ⟨c, hc, fun d hd => h.path_unique hd hc, h.path_length_lt hc⟩

end Sys2Proof.Machine
end

section
/-! The table that `GEN` leaves of a tree (R150 to R153). Its codes are the paths from the root to the live leaves;
every bit-string that is long enough runs from the root into a leaf, so the codes are complete. -/

namespace Sys2Proof.Machine

variable {t : TreeBuilder} {g g' : CodeTable}

/-- The entries that `GEN` writes (R151, R152): the code of a Symbol is the path to its leaf, or `LEAF1` in a tree of
one leaf. -/
theorem genEntries_iff (h : t.IsTree) (hdead : ∀ x, (g.entry x).v = false) (hg : genEntries t g = .ok g')
    (x : Symbol) (c : BitString) : ((g'.entry x).v = true ∧ (g'.entry x).code = c) ↔
      ∃ d, t.follow t.root d = some (leafIdx x) ∧ (if t.root.toNat < 256 then leaf1 else d) = c := by
  constructor
  · rintro ⟨hv, rfl⟩
    obtain ⟨d, hd, hcode⟩ := genEntries_code h hdead hg hv
    exact ⟨d, hd, hcode.symm⟩
  · rintro ⟨d, hd, rfl⟩
    have hv : (g'.entry x).v = true := by
      simpa [genEntries_live h hdead hg] using (h.reached_iff x).1 ⟨d, hd⟩
    obtain ⟨d', hd', hcode⟩ := genEntries_code h hdead hg hv
    obtain rfl := h.path_unique hd' hd
    exact ⟨hv, hcode⟩

/-- A tree of two or more leaves: the code of a Symbol is its path (R151). -/
theorem genEntries_tableOfTree (h : t.IsTree) (hdead : ∀ x, (g.entry x).v = false) (hg : genEntries t g = .ok g')
    (hr : 256 ≤ t.root.toNat) : TableOfTree g' t := fun x c => by
  rw [genEntries_iff h hdead hg]
  simp [Nat.not_lt.2 hr]

/-- A tree of one leaf: its Symbol alone has an entry, of the one bit 0 (R152). -/
theorem genEntries_oneLeaf (h : t.IsTree) (hdead : ∀ x, (g.entry x).v = false) (hg : genEntries t g = .ok g')
    (hr : t.root.toNat < 256) (x : Symbol) (c : BitString) :
    ((g'.entry x).v = true ∧ (g'.entry x).code = c) ↔ (leafIdx x = t.root ∧ c = [false]) := by
  simp only [genEntries_iff h hdead hg, if_pos hr]
  constructor
  · rintro ⟨d, hd, rfl⟩
    exact ⟨(TreeBuilder.follow_leaf hr hd).2, rfl⟩
  · rintro ⟨hx, rfl⟩
    exact ⟨[], by rw [TreeBuilder.follow_nil, hx], rfl⟩

/-- `GEN` without a valid tree (R150). -/
theorem raises_gen {s : State} (hf : s.flt.err = none) (hv : s.tree.treeValid = false) : Raises .gen s .seq := by
  refine raises_of_rule (fun _ => rfl) hf ?_
  exact if_neg (Bool.eq_false_iff.1 hv)

/-- `GEN` from a tree ends normally: it writes its entries into a cleared table (R150). -/
theorem exec_gen_of_isTree {s : State} (hf : s.flt.err = none) (hv : s.tree.treeValid = true) (h : s.tree.IsTree) :
    ∃ g g', (∀ x, (g.entry x).v = false) ∧ genEntries s.tree g = .ok g' ∧ g'.wstk = s.table.wstk ∧ g'.topen = false ∧
      exec .gen s =
        .next ({ s with table := { g' with nent := s.tree.nleaf, ctValid := true } }.respond .ok 0#64) := by
  obtain ⟨g', hg, hw, ho, -⟩ := genEntries_spec h { s.table.clearEntries with topen := false }
  exact ⟨{ s.table.clearEntries with topen := false }, g', s.table.clearEntries_dead, hg, hw, ho, exec_gen hf hv hg⟩

/-- Settles O30: the entries by `genEntries_tableOfTree` and `genEntries_oneLeaf`. -/
theorem genReadsTheTree : Obligations.GenReadsTheTree := by
  refine ⟨rfl, fun s hf hv => raises_gen hf hv, fun s hf hv hi => ?_⟩
  have h := hi.valid hv
  obtain ⟨g, g', hdead, hg, hw, ho, he⟩ := exec_gen_of_isTree hf hv h
  have hpaths := genEntries_tableOfTree h hdead hg
  have hone := genEntries_oneLeaf h hdead hg
  exact ⟨_, he, ⟨rfl, rfl⟩, rfl, ho, rfl, hw, ⟨rfl, rfl, rfl, rfl, rfl⟩, hpaths, hone⟩

/-! ### Completeness (R153) -/

/-- A bit-string with enough bits runs from a live node into a leaf: indices fall along it, and below 256 are leaves. -/
theorem TreeBuilder.Descends.exists_leaf_along (hd : t.Descends) {n : NodeIdx} (hv : (t.nodeAt n).v = true)
    (u : BitString) (hu : n.toNat ≤ 255 + u.length) : ∃ c x, c <+: u ∧ t.follow n c = some (leafIdx x) := by
  induction u generalizing n with
  | nil =>
    have hl : n.toNat < 256 := Nat.lt_succ_of_le hu
    exact ⟨[], n.setWidth 8, List.nil_prefix, by rw [TreeBuilder.follow_nil, leafIdx_setWidth hl]⟩
  | cons b u ih =>
    by_cases hl : n.toNat < 256
    · exact ⟨[], n.setWidth 8, List.nil_prefix, by rw [TreeBuilder.follow_nil, leafIdx_setWidth hl]⟩
    · have hn := Nat.not_lt.1 hl
      obtain ⟨-, ⟨ll, lv⟩, ⟨rl, rv⟩⟩ := hd n hn hv
      rw [BitVec.lt_def] at ll rl
      rw [List.length_cons] at hu
      have hchild : ∃ c x, c <+: u ∧
          t.follow (if b then (t.nodeAt n).r else (t.nodeAt n).l) c = some (leafIdx x) := by
        cases b
        · exact ih (n := (t.nodeAt n).l) lv (by omega)
        · exact ih (n := (t.nodeAt n).r) rv (by omega)
      obtain ⟨c, x, hc, hx⟩ := hchild
      exact ⟨b :: c, x, List.cons_prefix_cons.2 ⟨rfl, hc⟩, by rw [TreeBuilder.follow_cons hn, hx]⟩

/-- Where no live code begins another, two live codes that begin one bit-string are one Symbol's. -/
theorem PrefixFree.eq_of_prefix (hp : PrefixFree g) {x y : Symbol} {u : BitString} (vx : (g.entry x).v = true)
    (vy : (g.entry y).v = true) (hx : (g.entry x).code <+: u) (hy : (g.entry y).code <+: u) : x = y := by
  by_contra hne
  rcases List.prefix_or_prefix_of_prefix hx hy with h | h
  · exact hp x y hne vx vy h
  · exact hp y x (Ne.symm hne) vy vx h

/-- A tree of two or more leaves: every bit-string of 255 bits begins with a code. -/
theorem genEntries_complete (h : t.IsTree) (hdead : ∀ x, (g.entry x).v = false) (hg : genEntries t g = .ok g')
    (hn : 2 ≤ t.nleaf.toNat) {u : BitString} (hu : u.length = 255) :
    ∃ x, (g'.entry x).v = true ∧ (g'.entry x).code <+: u := by
  obtain ⟨hlive, -, -, hroot, -⟩ := h.rootAt
  have hroot := hroot hn
  have hlt := TreeBuilder.lt_of_live hlive
  obtain ⟨c, x, hc, hx⟩ := h.descends.exists_leaf_along hlive u (by omega)
  obtain ⟨hv, rfl⟩ := (genEntries_tableOfTree h hdead hg (by omega) x c).2 hx
  exact ⟨x, hv, hc⟩

theorem singleton_prefix_iff {α : Type} (a : α) (u : List α) : [a] <+: u ↔ u.head? = some a := by
  cases u with
  | nil => simp
  | cons b u => simp [List.cons_prefix_cons, eq_comm]

/-- A tree of one leaf: the bit-strings that begin with a code are those that begin with 0. -/
theorem genEntries_oneLeaf_prefix (h : t.IsTree) (hdead : ∀ x, (g.entry x).v = false) (hg : genEntries t g = .ok g')
    (hn : t.nleaf.toNat = 1) (u : BitString) :
    (∃ x, (g'.entry x).v = true ∧ (g'.entry x).code <+: u) ↔ u.head? = some false := by
  obtain ⟨-, -, -, -, hleaf⟩ := h.rootAt
  have hr := hleaf hn
  have hentry := genEntries_oneLeaf h hdead hg hr
  rw [← singleton_prefix_iff]
  constructor
  · rintro ⟨x, hv, hx⟩
    obtain ⟨-, hcode⟩ := (hentry x _).1 ⟨hv, rfl⟩
    exact hcode ▸ hx
  · intro hu
    obtain ⟨hv, hcode⟩ := (hentry (t.root.setWidth 8) [false]).2 ⟨leafIdx_setWidth hr, rfl⟩
    exact ⟨_, hv, hcode ▸ hu⟩

/-! ### The length of an encoded input (R153) -/

/-- The Symbols in increasing order. -/
def allSymbols : List Symbol := (List.range 256).map (BitVec.ofNat 8)

theorem mem_allSymbols (x : Symbol) : x ∈ allSymbols :=
  List.mem_map.2 ⟨x.toNat, List.mem_range.2 x.isLt, by simp⟩

theorem nodup_allSymbols : allSymbols.Nodup := by
  refine List.Nodup.map_on (fun j hj k hk e => ?_) List.nodup_range
  have := congrArg BitVec.toNat e
  rw [List.mem_range] at hj hk
  rwa [BitVec.toNat_ofNat, BitVec.toNat_ofNat, Nat.mod_eq_of_lt hj, Nat.mod_eq_of_lt hk] at this

/-- A sum over an input, Symbol by Symbol. -/
theorem sum_map_eq_sum_count (f : Symbol → Nat) (xs : List Symbol) :
    (xs.map f).sum = (allSymbols.map (fun x => xs.count x * f x)).sum := by
  calc (xs.map f).sum
    _ = ∑ x ∈ xs.toFinset, xs.count x * f x := Finset.sum_list_map_count xs f
    _ = ∑ x ∈ allSymbols.toFinset, xs.count x * f x := by
      refine Finset.sum_subset (fun x _ => List.mem_toFinset.2 (mem_allSymbols x)) fun x _ hx => ?_
      rw [List.count_eq_zero_of_not_mem (mt List.mem_toFinset.2 hx), Nat.zero_mul]
    _ = (allSymbols.map (fun x => xs.count x * f x)).sum := List.sum_toFinset _ nodup_allSymbols

theorem codesOf_length (g : CodeTable) (xs : List Symbol) :
    (codesOf g xs).length = (allSymbols.map (fun x => xs.count x * (g.entry x).code.length)).sum := by
  rw [codesOf, List.length_flatMap, sum_map_eq_sum_count]

/-- Settles O31: one lemma for each guarantee of the table, with the codes of `genEntries_iff`. -/
theorem generatedCodesAreCompleteAndPrefixFree : Obligations.GeneratedCodesAreCompleteAndPrefixFree := by
  intro s hf hv hi
  have h := hi.valid hv
  obtain ⟨g, g', hdead, hg, -, -, he⟩ := exec_gen_of_isTree hf hv h
  have hlive := genEntries_live h hdead hg
  have hpf := genEntries_prefixFree h hdead hg
  have hlen := genEntries_lengths h hdead hg
  have hone := genEntries_oneLeaf_prefix h hdead hg
  refine ⟨_, he, ⟨rfl, rfl⟩, fun x => ?_, hpf, hlen, fun hn u hu => ?_, hone, fun xs hxs => ?_⟩
  · exact (Bool.eq_iff_iff.1 (hlive x)).trans bne_iff_ne
  · obtain ⟨x, hxv, hx⟩ := genEntries_complete h hdead hg hn hu
    exact ⟨x, ⟨hxv, hx⟩, fun y hyv hy => hpf.eq_of_prefix hyv hxv hy hx⟩
  · rw [codesOf_length, allSymbols, List.map_map]
    simp only [hxs]
    rfl

end Sys2Proof.Machine
end

section
/-! The reads of the Code Table (R154, R155). -/

namespace Sys2Proof.Machine

/-! ### The layout of `RDCL`'s response (R154) -/

theorem codeLength_v (c : BitString) : (codeLength c).extractLsb' 63 1 = 1#1 :=
  (BitVec.extractLsb'_append_eq_of_le (by decide)).trans BitVec.extractLsb'_append_eq_left

theorem codeLength_gap (c : BitString) : (codeLength c).extractLsb' 8 55 = 0#55 :=
  (BitVec.extractLsb'_append_eq_of_le (by decide)).trans BitVec.extractLsb'_append_eq_right

theorem codeLength_len (c : BitString) : (codeLength c).extractLsb' 0 8 = BitVec.ofNat 8 c.length :=
  BitVec.extractLsb'_append_eq_right

/-- A length of at most 255 bits fits in `LEN` (R30). -/
theorem codeLength_toNat {c : BitString} (hc : c.length ≤ 255) :
    ((codeLength c).extractLsb' 0 8).toNat = c.length := by
  rw [codeLength_len, BitVec.toNat_ofNat, Nat.mod_eq_of_lt (Nat.lt_succ_of_le hc)]

/-- `RDCL s` on an engine that is not faulted (R154). -/
theorem exec_rdcl {s : State} (hf : s.flt.err = none) (x : Symbol) : exec (.rdcl x) s =
    .next (s.respond .ok (if (s.table.entry x).v then codeLength (s.table.entry x).code else 0#64)) := by
  refine exec_of_rule_ok (fun _ => rfl) hf ?_
  rfl

/-- Settles O32: by `exec_rdcl` and the layout of `codeLength`; the invariant bounds the length. -/
theorem rdclReadsTheLength : Obligations.RdclReadsTheLength := by
  refine ⟨fun _ => rfl, fun s x hf hi => ⟨_, _, exec_rdcl hf x, ⟨rfl, rfl⟩, unchanged_respond .., fun hv => ?_,
    fun hv => ?_⟩⟩
  · simp [hv]
  · obtain ⟨hpos, hle⟩ := hi.lengths x hv
    have hlen := codeLength_toNat hle
    rw [if_pos hv]
    refine ⟨codeLength_v _, codeLength_gap _, hlen, fun hz => ?_⟩
    rw [hz] at hlen
    exact absurd hlen (Nat.ne_of_lt hpos)

/-- A word of format `AB2` (R91). -/
theorem packWord_wordIdx (o x : BitVec 8) (w : BitVec 2) : packWord o x (w.setWidth 32) = o ++ x ++ 0#30 ++ w := by
  have hw : w.setWidth 32 = 0#30 ++ w := BitVec.setWidth_eq_append (by decide)
  rw [packWord, hw, BitVec.append_assoc']
  rfl

/-- `RDCW s, w` on an engine that is not faulted (R155). -/
theorem exec_rdcw {s : State} (hf : s.flt.err = none) (x : Symbol) (w : BitVec 2) : exec (.rdcw x w) s =
    .next (s.respond .ok (if (s.table.entry x).v then codeWord (s.table.entry x).code w else 0#64)) := by
  refine exec_of_rule_ok (fun _ => rfl) hf ?_
  rfl

/-- Settles O33: by `exec_rdcw` and `getLsbD_codeWord`; the invariant bounds the length. -/
theorem rdcwReadsTheCode : Obligations.RdcwReadsTheCode := by
  refine ⟨packWord_wordIdx 0x22#8, fun s x w hf hi => ⟨_, _, exec_rdcw hf x w, ⟨rfl, rfl⟩, unchanged_respond ..,
    fun hv => ?_, fun hv k hk => ?_⟩⟩
  · simp [hv]
  · obtain ⟨-, hle⟩ := hi.lengths x hv
    rw [if_pos hv]
    exact getLsbD_codeWord hle w hk

end Sys2Proof.Machine
end

section
/-! The entry commands of the Code Table (R156 to R161): for each, its faults in the order of its checks (R254) and its
effect on an engine that is not faulted. -/

namespace Sys2Proof.Machine

variable {s : State}

/-! ### `TCLR` -/

/-- `TCLR` (R156). -/
theorem exec_tclr (hf : s.flt.err = none) : exec .tclr s =
    .next ({ s with table := { s.table.clearEntries with nent := 0#9, ctValid := false, topen := false } }.respond .ok
      0#64) := by
  refine exec_of_rule_ok (fun _ => rfl) hf ?_
  rfl

/-- Settles O34: by `exec_tclr`. -/
theorem tclrEmptiesTheTable : Obligations.TclrEmptiesTheTable :=
  ⟨rfl, fun s hf => ⟨_, exec_tclr hf, ⟨rfl, rfl⟩, s.table.clearEntries_dead, rfl, rfl, rfl, rfl, rfl, rfl,
    rfl, rfl, rfl, rfl, rfl⟩⟩

/-! ### `TSYM` -/

/-- `TSYM s` while an entry is open (R157). -/
theorem raises_tsym_seq (hf : s.flt.err = none) (ho : s.table.topen = true) (x : Symbol) : Raises (.tsym x) s .seq := by
  refine raises_of_rule (fun _ => rfl) hf ?_
  exact if_pos ho

/-- `TSYM s` for a Symbol that has an entry (R157). -/
theorem raises_tsym_corrupt (hf : s.flt.err = none) (ho : s.table.topen = false) {x : Symbol}
    (hx : (s.table.entry x).v = true) : Raises (.tsym x) s .corrupt := by
  refine raises_of_rule (fun _ => rfl) hf ?_
  exact (if_neg (Bool.eq_false_iff.1 ho)).trans (if_pos hx)

/-- `TSYM s` with its checks passed (R157). -/
theorem exec_tsym (hf : s.flt.err = none) (ho : s.table.topen = false) {x : Symbol} (hx : (s.table.entry x).v = false) :
    exec (.tsym x) s =
      .next ({ s with table := { s.table with topen := true, ts := x, tc := [], ctValid := false } }.respond .ok
        0#64) := by
  refine exec_of_rule_ok (fun _ => rfl) hf ?_
  exact (if_neg (Bool.eq_false_iff.1 ho)).trans (if_neg (Bool.eq_false_iff.1 hx))

/-- Settles O35: the three ends of `TSYM`. -/
theorem tsymOpensAnEntry : Obligations.TsymOpensAnEntry :=
  ⟨fun _ => rfl, fun _ x hf ho => raises_tsym_seq hf ho x, fun _ _ hf ho hx => raises_tsym_corrupt hf ho hx,
    fun _ _ hf ho hx => ⟨_, exec_tsym hf ho hx, ⟨rfl, rfl⟩, rfl, rfl, rfl, rfl, rfl, rfl, rfl,
      rfl, rfl, rfl, rfl, rfl⟩⟩

/-! ### `TBIT` -/

/-- `TBIT b` with no open entry (R158). -/
theorem raises_tbit_seq (hf : s.flt.err = none) (ho : s.table.topen = false) (b : Bool) : Raises (.tbit b) s .seq := by
  refine raises_of_rule (fun _ => rfl) hf ?_
  exact if_pos (by rw [ho]; rfl)

/-- `TBIT b` on an entry that is full (R158). -/
theorem raises_tbit_corrupt (hf : s.flt.err = none) (ho : s.table.topen = true) (hl : 255 ≤ s.table.tc.length)
    (b : Bool) : Raises (.tbit b) s .corrupt := by
  refine raises_of_rule (fun _ => rfl) hf ?_
  exact (if_neg (by rw [ho]; decide)).trans (if_pos hl)

/-- `TBIT b` with its checks passed (R158). -/
theorem exec_tbit (hf : s.flt.err = none) (ho : s.table.topen = true) (hl : s.table.tc.length < 255) (b : Bool) :
    exec (.tbit b) s =
      .next ({ s with table := { s.table with tc := s.table.tc ++ [b] } }.respond .ok 0#64) := by
  refine exec_of_rule_ok (fun _ => rfl) hf ?_
  exact (if_neg (by rw [ho]; decide)).trans (if_neg (Nat.not_le.2 hl))

theorem encode_tbit (b : Bool) : encode (.tbit b) = 0x25#8 ++ 0#39 ++ BitVec.ofBool b := by
  cases b <;> rfl

/-- Settles O36: the three ends of `TBIT`. -/
theorem tbitAppendsOneBit : Obligations.TbitAppendsOneBit :=
  ⟨encode_tbit, fun _ b hf ho => raises_tbit_seq hf ho b, fun _ b hf ho hl => raises_tbit_corrupt hf ho hl.ge b,
    fun _ b hf ho hl => ⟨_, exec_tbit hf ho hl b, ⟨rfl, rfl⟩, rfl, List.length_append,
      rfl, rfl, rfl, rfl, rfl⟩⟩

/-! ### `TEND` -/

/-- `TEND` with no open entry (R159). -/
theorem raises_tend_seq (hf : s.flt.err = none) (ho : s.table.topen = false) : Raises .tend s .seq := by
  refine raises_of_rule (fun _ => rfl) hf ?_
  exact if_pos (by rw [ho]; rfl)

/-- `TEND` before the first bit (R159). -/
theorem raises_tend_corrupt (hf : s.flt.err = none) (ho : s.table.topen = true) (hc : s.table.tc = []) :
    Raises .tend s .corrupt := by
  refine raises_of_rule (fun _ => rfl) hf ?_
  exact (if_neg (by rw [ho]; decide)).trans (if_pos hc)

/-- `TEND` with its checks passed (R159). -/
theorem exec_tend (hf : s.flt.err = none) (ho : s.table.topen = true) (hc : s.table.tc ≠ []) : exec .tend s =
    .next ({ s with table :=
      { s.table.record s.table.ts s.table.tc with nent := s.table.nent + 1#9, topen := false } }.respond .ok
        0#64) := by
  refine exec_of_rule_ok (fun _ => rfl) hf ?_
  exact (if_neg (by rw [ho]; decide)).trans (if_neg hc)

/-- `NENT` counts live entries, so it does not exceed 256 (R31). -/
theorem TableInv.nent_le {g : CodeTable} (h : TableInv g) : g.nent.toNat ≤ 256 :=
  h.counted.trans_le g.liveCount_le

/-- Settles O37: the three ends of `TEND`; what the invariant says of the table before and after gives the last part. -/
theorem tendCommitsTheEntry : Obligations.TendCommitsTheEntry := by
  refine ⟨rfl, fun _ hf ho => raises_tend_seq hf ho, fun _ hf ho hc => raises_tend_corrupt hf ho hc,
    fun s hf ho hc => ⟨_, exec_tend hf ho hc, ⟨rfl, rfl⟩, ?_, fun y hy => ?_, rfl, rfl, rfl, rfl, rfl, rfl,
      ⟨rfl, rfl, rfl, rfl, rfl⟩, fun hi => ?_⟩⟩
  · exact (s.table.entry_record s.table.ts s.table.ts s.table.tc).trans (if_pos rfl)
  · exact (s.table.entry_record s.table.ts y s.table.tc).trans (if_neg hy)
  · obtain ⟨hv, -⟩ := hi.opened ho
    exact ⟨hv, (hi.tend ho hc).nent_le⟩

/-! ### `TCHK` -/

/-- `TCHK` while an entry is open (R160). -/
theorem raises_tchk_seq (hf : s.flt.err = none) (ho : s.table.topen = true) : Raises .tchk s .seq := by
  refine raises_of_rule (fun _ => rfl) hf ?_
  exact if_pos ho

/-- `TCHK` on an ambiguous table (R160, R161). -/
theorem raises_tchk_ambig (hf : s.flt.err = none) (ho : s.table.topen = false) (hp : ¬ PrefixFree s.table) :
    Raises .tchk s .ambig := by
  refine raises_of_rule (fun _ => rfl) hf ?_
  exact (if_neg (Bool.eq_false_iff.1 ho)).trans (if_pos ((ambig_iff s.table).2 hp))

/-- `TCHK` with its checks passed (R160). -/
theorem exec_tchk (hf : s.flt.err = none) (ho : s.table.topen = false) (hp : PrefixFree s.table) :
    exec .tchk s = .next ({ s with table := { s.table with ctValid := true } }.respond .ok 0#64) := by
  refine exec_of_rule_ok (fun _ => rfl) hf ?_
  exact (if_neg (Bool.eq_false_iff.1 ho)).trans (if_neg fun ha => (ambig_iff s.table).1 ha hp)

/-- Settles O38: the three ends of `TCHK`; its ambiguity check is `PrefixFree` by `ambig_iff`. -/
theorem tchkAcceptsPrefixFreeTables : Obligations.TchkAcceptsPrefixFreeTables :=
  ⟨rfl, fun _ hf ho => raises_tchk_seq hf ho, fun _ hf ho hp => raises_tchk_ambig hf ho hp,
    fun _ hf ho hp => ⟨_, exec_tchk hf ho hp, ⟨rfl, rfl⟩, rfl, rfl, rfl, rfl, rfl, rfl⟩⟩

end Sys2Proof.Machine
end

section
/-! The bytes of a bit-string (R63, R186): byte `k` is what shifting its bits into an empty `PACC` leaves, so that the
byte being assembled, a full byte and a padded byte are all `byteAt` of the bits taken so far. -/

namespace Sys2Proof.Machine

/-- Bits `8k` to `8k+7` of `u`, as many as it has, shifted in one after another (R182). -/
def byteAt (u : BitString) (k : Nat) : Byte := ((u.drop (8 * k)).take 8).foldl shiftIn 0#8

section
variable {u : BitString} {k : Nat}

/-- A byte that is full does not depend on the bits that follow. -/
theorem byteAt_append_of_le (h : 8 * (k + 1) ≤ u.length) (w : BitString) : byteAt (u ++ w) k = byteAt u k := by
  rw [byteAt, List.drop_append_of_le_length (by omega), List.take_append_of_le_length (by rw [List.length_drop]; omega)]
  rfl

/-- One bit more in a byte that is not full is shifted in. -/
theorem byteAt_concat (h1 : 8 * k ≤ u.length) (h2 : u.length < 8 * (k + 1)) (b : Bool) :
    byteAt (u ++ [b]) k = shiftIn (byteAt u k) b := by
  have hl : (u.drop (8 * k)).length < 8 := by rw [List.length_drop]; omega
  rw [byteAt, List.drop_append_of_le_length h1, List.take_of_length_le (by simpa using hl), List.foldl_concat, byteAt,
    List.take_of_length_le hl.le]

theorem byteAt_of_length_le (h : u.length ≤ 8 * k) : byteAt u k = 0#8 := by
  rw [byteAt, List.drop_of_length_le h]
  rfl

/-- Shifting in a zero bit is shifting up by one. -/
theorem shiftIn_false (a : Byte) : shiftIn a false = a <<< 1 := by
  apply BitVec.eq_of_toNat_eq
  rw [shiftIn_toNat, BitVec.toNat_shiftLeft, Nat.shiftLeft_eq, Nat.mul_comm]
  rfl

/-- Padding with zero bits shifts the last byte up (R184). -/
theorem byteAt_append_zeros {n : Nat} (h1 : 8 * k ≤ u.length) (h2 : u.length + n ≤ 8 * (k + 1)) :
    byteAt (u ++ List.replicate n false) k = byteAt u k <<< n := by
  induction n with
  | zero => simp
  | succ n ih =>
    have hl : (u ++ List.replicate n false).length = u.length + n := by simp
    rw [List.replicate_succ', ← List.append_assoc, byteAt_concat (by omega) (by omega), ih (by omega), shiftIn_false,
      ← BitVec.shiftLeft_add]

/-- Eight bits shifted in are the byte they make, most significant bit first (R182). -/
theorem foldl_shiftIn_eq_byteOf (b0 b1 b2 b3 b4 b5 b6 b7 : Bool) :
    [b0, b1, b2, b3, b4, b5, b6, b7].foldl shiftIn 0#8 = byteOf b0 b1 b2 b3 b4 b5 b6 b7 := by
  decide +revert

/-- The chunks of a bit-string are its full bytes. -/
theorem chunks_eq_map_byteAt (u : BitString) : chunks u = (List.range (u.length / 8)).map (byteAt u) := by
  induction u using chunks.induct with
  | case1 b0 b1 b2 b3 b4 b5 b6 b7 u ih =>
    have hl : (b0 :: b1 :: b2 :: b3 :: b4 :: b5 :: b6 :: b7 :: u).length / 8 = u.length / 8 + 1 := by
      simp only [List.length_cons]; omega
    rw [chunks, ih, hl, List.range_succ_eq_map, List.map_cons, List.map_map]
    congr 1
    exact (foldl_shiftIn_eq_byteOf b0 b1 b2 b3 b4 b5 b6 b7).symm
  | case2 u hu =>
    have hl : u.length < 8 := by
      match u, hu with
      | [], _ | [_], _ | [_, _], _ | [_, _, _], _ | [_, _, _, _], _ | [_, _, _, _, _], _ | [_, _, _, _, _, _], _
      | [_, _, _, _, _, _, _], _ => simp
      | _ :: _ :: _ :: _ :: _ :: _ :: _ :: _ :: _, hu => exact absurd rfl (hu _ _ _ _ _ _ _ _ _)
    rw [chunks, Nat.div_eq_of_lt hl]
    · rfl
    · exact hu

/-! ### The payload (R186) -/

/-- The bits of a payload with its padding fill whole bytes. -/
theorem length_add_padOf_div (n : Nat) : (n + padOf n) / 8 = (n + 7) / 8 := by
  unfold padOf; omega

theorem payloadOf_eq (u : BitString) : payloadOf u = BitVec.ofNat 8 (padOf u.length) ::
    (List.range ((u.length + 7) / 8)).map (byteAt (u ++ List.replicate (padOf u.length) false)) := by
  rw [payloadOf, chunks_eq_map_byteAt, List.length_append, List.length_replicate, length_add_padOf_div]

theorem payloadOf_length (u : BitString) : (payloadOf u).length = 1 + (u.length + 7) / 8 := by
  rw [payloadOf_eq, List.length_cons, List.length_map, List.length_range, Nat.add_comm]

/-- A byte of the payload is the padding count, a full byte, or the last byte shifted up. -/
theorem payloadOf_getElem?_cases {v : Byte} (h : (payloadOf u)[k]? = some v) :
    (k = 0 ∧ v = BitVec.ofNat 8 (padOf u.length)) ∨
    (∃ j, k = j + 1 ∧ j < u.length / 8 ∧ v = byteAt u j) ∨
    (k = u.length / 8 + 1 ∧ u.length % 8 ≠ 0 ∧ v = byteAt u (u.length / 8) <<< padOf u.length) := by
  rw [payloadOf_eq] at h
  cases k with
  | zero => exact .inl ⟨rfl, (Option.some.inj h).symm⟩
  | succ j =>
    simp only [List.getElem?_cons_succ, List.getElem?_map, Option.map_eq_some_iff, List.getElem?_eq_some_iff,
      List.length_range, List.getElem_range] at h
    obtain ⟨_, ⟨hj, rfl⟩, rfl⟩ := h
    rcases Nat.lt_or_ge j (u.length / 8) with hlt | hge
    · exact .inr (.inl ⟨j, rfl, hlt, byteAt_append_of_le (by omega) _⟩)
    · obtain rfl : j = u.length / 8 := by omega
      exact .inr (.inr ⟨rfl, by omega, byteAt_append_zeros (by omega) (by unfold padOf; omega)⟩)

end
end Sys2Proof.Machine
end

section
/-! The micro-steps of the Bit Packer (R182 to R184), each end under its condition; when the bits of a code have room,
and what pushing them leaves unchanged. -/

namespace Sys2Proof.Machine

section
variable {c : Config} {p q : Packer}

/-! ### One bit -/

theorem pPush_full (h7 : p.pnb = 7#3) (hw : p.pwp.toNat = c.pmemBytes) (b : Bool) :
    pPush c p b = .error (.raise .ovf) := by
  simp [pPush, h7, hw, raise]

theorem pPush_completes (h7 : p.pnb = 7#3) (hw : p.pwp.toNat < c.pmemBytes) (b : Bool) :
    pPush c p b = .ok { p with pacc := 0#8, pnb := 0#3, pwp := p.pwp + 1#33, pbitcnt := p.pbitcnt + 1#64,
                               pmem := p.pmem.write p.pwp.toNat (shiftIn p.pacc b) } := by
  simp [pPush, h7, hw.ne, storeByte_ok hw]

theorem pPush_waits (h7 : p.pnb ≠ 7#3) (b : Bool) :
    pPush c p b = .ok { p with pacc := shiftIn p.pacc b, pnb := p.pnb + 1#3, pbitcnt := p.pbitcnt + 1#64 } := by
  simp [pPush, h7]

/-- `q` is `p` after `n` bits: how far `PNB` and `PWP` have gone, and what stays as it was (R182). -/
structure Pushed (p : Packer) (n : Nat) (q : Packer) : Prop where
  pnb : q.pnb.toNat = (p.pnb.toNat + n) % 8
  pwp : q.pwp.toNat = p.pwp.toNat + (p.pnb.toNat + n) / 8
  pmem : ∀ a, a < p.pwp.toNat ∨ q.pwp.toNat ≤ a → q.pmem.read a = p.pmem.read a
  ppad : q.ppad = p.ppad
  pstate : q.pstate = p.pstate

theorem Pushed.zero (p : Packer) : Pushed p 0 p where
  pnb := (Nat.mod_eq_of_lt p.pnb.isLt).symm
  pwp := by have := p.pnb.isLt; omega
  pmem _ _ := rfl
  ppad := rfl
  pstate := rfl

theorem Pushed.trans {r : Packer} {m n : Nat} (h : Pushed p m q) (h' : Pushed q n r) : Pushed p (m + n) r where
  pnb := by have := h.pnb; have := h'.pnb; omega
  pwp := by have := h.pnb; have := h.pwp; have := h'.pwp; omega
  pmem a ha := by
    have := h.pwp
    have := h'.pwp
    exact (h'.pmem a (by omega)).trans (h.pmem a (by omega))
  ppad := h'.ppad.trans h.ppad
  pstate := h'.pstate.trans h.pstate

theorem pnb_succ (h7 : p.pnb ≠ 7#3) : p.pnb.toNat < 7 ∧ (p.pnb + 1#3).toNat = p.pnb.toNat + 1 := by
  have hne : p.pnb.toNat ≠ 7 := fun e => h7 (BitVec.eq_of_toNat_eq e)
  have hlt := p.pnb.isLt
  rw [BitVec.toNat_add, BitVec.toNat_ofNat]
  omega

theorem pPush_pushed {b : Bool} (h : pPush c p b = .ok q) : Pushed p 1 q := by
  rcases pPush_cases c p b with ⟨-, -, e⟩ | ⟨h7, hw, e⟩ | ⟨-, -, e⟩ | ⟨h7, e⟩ <;> cases e.symm.trans h
  · have hsucc := pwp_succ hw
    exact
      { pnb := by rw [h7]; rfl
        pwp := by rw [h7]; exact hsucc
        pmem := fun a ha => (Memory.read_write ..).trans (if_neg (by simp only [hsucc] at ha; omega))
        ppad := rfl
        pstate := rfl }
  · obtain ⟨hlt, hsucc⟩ := pnb_succ h7
    exact
      { pnb := by simp only [hsucc]; omega
        pwp := by simp only; omega
        pmem := fun _ _ => rfl
        ppad := rfl
        pstate := rfl }

/-- A bit that has room is taken. -/
theorem pPush_fits (h : p.pwp.toNat + (p.pnb.toNat + 1) / 8 ≤ c.pmemBytes) (b : Bool) : ∃ q, pPush c p b = .ok q := by
  by_cases h7 : p.pnb = 7#3
  · rw [h7] at h
    exact ⟨_, pPush_completes h7 (Nat.lt_of_succ_le h) b⟩
  · exact ⟨_, pPush_waits h7 b⟩

/-! ### The bits of a code -/

theorem pPushAll_pushed {bs : BitString} (h : pPushAll c p bs = .ok q) : Pushed p bs.length q := by
  induction bs generalizing p with
  | nil => cases h; exact .zero _
  | cons b bs ih =>
    rcases hb : pPush c p b with e | r
    · rw [pPushAll_cons_error hb] at h; cases h
    · rw [pPushAll_cons_ok hb] at h
      rw [List.length_cons, Nat.add_comm]
      exact (pPush_pushed hb).trans (ih h)

/-- Bits that have room are all taken (R183). -/
theorem pPushAll_fits {bs : BitString} (h : p.pwp.toNat + (p.pnb.toNat + bs.length) / 8 ≤ c.pmemBytes) :
    ∃ q, pPushAll c p bs = .ok q := by
  induction bs generalizing p with
  | nil => exact ⟨p, rfl⟩
  | cons b bs ih =>
    rw [List.length_cons] at h
    obtain ⟨q, hq⟩ := pPush_fits (show p.pwp.toNat + (p.pnb.toNat + 1) / 8 ≤ c.pmemBytes by omega) b
    have hp := pPush_pushed hq
    have := hp.pnb
    have := hp.pwp
    rw [pPushAll_cons_ok hq]
    exact ih (by omega)

/-- Bits of which some has no room raise `E_OVF` (R183). -/
theorem pPushAll_overflows {bs : BitString} (hw : p.pwp.toNat ≤ c.pmemBytes)
    (h : c.pmemBytes < p.pwp.toNat + (p.pnb.toNat + bs.length) / 8) : pPushAll c p bs = .error (.raise .ovf) := by
  induction bs generalizing p with
  | nil => have := p.pnb.isLt; simp only [List.length_nil] at h; omega
  | cons b bs ih =>
    rw [List.length_cons] at h
    by_cases hf : p.pwp.toNat + (p.pnb.toNat + 1) / 8 ≤ c.pmemBytes
    · obtain ⟨q, hq⟩ := pPush_fits hf b
      have hp := pPush_pushed hq
      have := hp.pnb
      have := hp.pwp
      rw [pPushAll_cons_ok hq]
      exact ih (by omega) (by omega)
    · have := p.pnb.isLt
      have h7 : p.pnb = 7#3 := BitVec.eq_of_toNat_eq (by rw [BitVec.toNat_ofNat]; omega)
      exact pPushAll_cons_error (pPush_full h7 (by omega) b) bs

/-! ### `PFLUSH` -/

theorem flush_aligned (hn : p.pnb = 0#3) :
    flush c p = .ok { p with pacc := 0#8, pnb := 0#3, ppad := 0#3, pmem := p.pmem.write 0 0#8, pstate := .done } := by
  simp [flush, writePartial, hn, storeByte_ok c.pmemBytes_pos, padCount]

theorem flush_full (hn : p.pnb ≠ 0#3) (hw : p.pwp.toNat = c.pmemBytes) : flush c p = .error (.raise .ovf) := by
  simp [flush, writePartial, hn, hw, raise]

theorem flush_partial (hn : p.pnb ≠ 0#3) (hw : p.pwp.toNat < c.pmemBytes) :
    flush c p = .ok { p with pacc := 0#8, pnb := 0#3, ppad := BitVec.ofNat 3 (padCount p), pwp := p.pwp + 1#33,
                             pmem := (p.pmem.write p.pwp.toNat (p.pacc <<< padCount p)).write 0
                               (BitVec.ofNat 8 (padCount p)),
                             pstate := .done } := by
  simp [flush, writePartial, hn, hw.ne, storeByte_ok hw, storeByte_ok c.pmemBytes_pos]

end
end Sys2Proof.Machine
end

section
/-! The Bit Packer commands (R180 to R185): for each, its faults in the order of its checks (R254) and its effect on an
engine that is not faulted. -/

namespace Sys2Proof.Machine

section
variable {s : State} {p : Packer} {e : ErrCode}

/-! ### `PINIT` -/

/-- The packer that `PINIT` leaves when `PMEM` is then `m` (R180). -/
def Packer.start (m : Memory) : Packer :=
  { pstate := .active, pacc := 0#8, pnb := 0#3, pwp := 1#33, ppad := 0#3, pbitcnt := 0#64, pmem := m }

/-- `PINIT`, in every packer state (R180). -/
theorem exec_pinit (hf : s.flt.err = none) : exec .pinit s =
    .next ({ s with pack := .start (s.pack.pmem.write 0 0#8) }.respond .ok 0#64) := by
  refine exec_of_rule_ok (fun _ => rfl) hf ?_
  simp [storeByte_ok s.cfg.pmemBytes_pos, ended, Packer.start]

/-- Settles O39: by `exec_pinit`. -/
theorem pinitStartsAPayload : Obligations.PinitStartsAPayload :=
  ⟨rfl, fun s hf => ⟨_, exec_pinit hf, ⟨rfl, rfl⟩, rfl, rfl, rfl, rfl, rfl, rfl, s.pack.pmem.read_write_self 0 0#8,
    fun _ ha => (s.pack.pmem.read_write ..).trans (if_neg ha), rfl, rfl, rfl, rfl, rfl⟩⟩

/-! ### `PBIT` -/

theorem encode_pbit (b : Bool) : encode (.pbit b) = 0x31#8 ++ 0#39 ++ BitVec.ofBool b := by
  cases b <;> rfl

/-- `PBIT b` on a packer that is not active (R181). -/
theorem raises_pbit_seq (hf : s.flt.err = none) (ha : s.pack.pstate ≠ .active) (b : Bool) : Raises (.pbit b) s .seq := by
  refine raises_of_rule (fun _ => rfl) hf ?_
  exact if_neg ha

/-- `PBIT b` when `P_PUSH` raises (R181). -/
theorem raises_pbit {b : Bool} (hf : s.flt.err = none) (ha : s.pack.pstate = .active)
    (hp : pPush s.cfg s.pack b = .error (.raise e)) : Raises (.pbit b) s e := by
  refine raises_of_rule (fun _ => rfl) hf ?_
  simp [ha, hp, raise]

/-- `PBIT b` when `P_PUSH` takes the bit (R181). -/
theorem exec_pbit {b : Bool} (hf : s.flt.err = none) (ha : s.pack.pstate = .active)
    (hp : pPush s.cfg s.pack b = .ok p) : exec (.pbit b) s = .next ({ s with pack := p }.respond .ok 0#64) := by
  refine exec_of_rule_ok (fun _ => rfl) hf ?_
  simp [ha, hp, ended]

/-- Settles O40: the three ends of `P_PUSH` on an active packer. -/
theorem pbitShiftsOneBitIn : Obligations.PbitShiftsOneBitIn := by
  refine ⟨encode_pbit, fun s b hf ha => raises_pbit_seq hf ha b,
    fun s b hf ha h7 hw => raises_pbit hf ha (pPush_full h7 hw b), fun s b hf ha h7 => ?_, fun s b hf ha h7 hw => ?_⟩
  · exact ⟨_, exec_pbit hf ha (pPush_waits h7 b), ⟨rfl, rfl⟩, shiftIn_toNat s.pack.pacc b, rfl, rfl, rfl, rfl, ha,
      fun _ => rfl, rfl, rfl, rfl, rfl, rfl⟩
  · exact ⟨_, _, exec_pbit hf ha (pPush_completes h7 hw b), ⟨rfl, rfl⟩, s.pack.pmem.read_write_self ..,
      shiftIn_toNat s.pack.pacc b, fun _ hne => (s.pack.pmem.read_write ..).trans (if_neg hne), pwp_succ hw, rfl, rfl,
      rfl, rfl, ha, rfl, rfl, rfl, rfl, rfl⟩

/-! ### `ENC` -/

section
variable {x : Symbol}

/-- `ENC s` without an active packer or a valid table (R183). -/
theorem raises_enc_seq (hf : s.flt.err = none) (h : s.pack.pstate ≠ .active ∨ s.table.ctValid = false) :
    Raises (.enc x) s .seq := by
  refine raises_of_rule (fun _ => rfl) hf ?_
  exact if_neg fun ⟨ha, hv⟩ => h.elim (· ha) (Bool.eq_false_iff.1 · hv)

/-- `ENC s` of a Symbol with no code (R183). -/
theorem raises_enc_nocode (hf : s.flt.err = none) (ha : s.pack.pstate = .active) (hv : s.table.ctValid = true)
    (hx : (s.table.entry x).v = false) : Raises (.enc x) s .nocode := by
  refine raises_of_rule (fun _ => rfl) hf ?_
  exact (if_pos ⟨ha, hv⟩).trans (if_neg (Bool.eq_false_iff.1 hx))

/-- `ENC s` when some `P_PUSH` raises (R183). -/
theorem raises_enc (hf : s.flt.err = none) (ha : s.pack.pstate = .active) (hv : s.table.ctValid = true)
    (hx : (s.table.entry x).v = true) (hp : pPushAll s.cfg s.pack (s.table.entry x).code = .error (.raise e)) :
    Raises (.enc x) s e := by
  refine raises_of_rule (fun _ => rfl) hf ?_
  simp [ha, hv, hx, hp, raise]

/-- `ENC s` when every `P_PUSH` takes its bit (R183). -/
theorem exec_enc (hf : s.flt.err = none) (ha : s.pack.pstate = .active) (hv : s.table.ctValid = true)
    (hx : (s.table.entry x).v = true) (hp : pPushAll s.cfg s.pack (s.table.entry x).code = .ok p) :
    exec (.enc x) s = .next ({ s with pack := p }.respond .ok 0#64) := by
  refine exec_of_rule_ok (fun _ => rfl) hf ?_
  simp [ha, hv, hx, hp, ended]

end

/-! ### Runs of `PBIT` and `ENC` -/

theorem runCommands_cons {i : Instr} {t : State} (h : exec i s = .next t) (is : List Instr) :
    runCommands (i :: is) s = runCommands is t := by
  rw [runCommands, h]

theorem runCommands_append {is : List Instr} {t : State} (h : runCommands is s = .next t) (js : List Instr) :
    runCommands (is ++ js) s = runCommands js t := by
  induction is generalizing s with
  | nil => cases h; rfl
  | cons i is ih =>
    rcases hi : exec i s with u | f | r
    · rw [runCommands_cons hi] at h
      rw [List.cons_append, runCommands_cons hi, ih h]
    all_goals rw [runCommands, hi] at h; cases h

/-- One `PBIT` or `ENC` pushes the bits of its feed (R181, R183). -/
theorem exec_feed {f : Feed} (hf : s.flt.err = none) (ha : s.pack.pstate = .active)
    (hx : ∀ x, f = .inr x → s.table.ctValid = true ∧ (s.table.entry x).v = true)
    (hp : pPushAll s.cfg s.pack (f.bits s.table) = .ok p) :
    exec f.command s = .next ({ s with pack := p }.respond .ok 0#64) := by
  cases f with
  | inl b =>
    rcases hb : pPush s.cfg s.pack b with e | q
    · cases (pPushAll_cons_error hb []).symm.trans hp
    · cases (pPushAll_cons_ok hb []).symm.trans hp
      exact exec_pbit hf ha hb
  | inr x => exact exec_enc hf ha (hx x rfl).1 (hx x rfl).2 hp

/-- `PBIT` and `ENC` commands push the bits of their feeds in order, and change nothing else but the responses sent. -/
theorem runCommands_feeds {fs : List Feed} (hf : s.flt.err = none) (ha : s.pack.pstate = .active)
    (hx : ∀ x, .inr x ∈ fs → s.table.ctValid = true ∧ (s.table.entry x).v = true)
    (hp : pPushAll s.cfg s.pack (fs.flatMap (Feed.bits s.table)) = .ok p) :
    ∃ o, runCommands (fs.map Feed.command) s = .next { s with pack := p, port := o } := by
  induction fs generalizing s with
  | nil => cases hp; exact ⟨s.port, rfl⟩
  | cons f fs ih =>
    rw [List.flatMap_cons, pPushAll_append] at hp
    rcases hq : pPushAll s.cfg s.pack (f.bits s.table) with e | q <;> rw [hq] at hp
    · cases hp
    · have h1 := exec_feed hf ha (fun x e => hx x (e ▸ List.mem_cons_self)) hq
      rw [List.map_cons, runCommands_cons h1]
      change pPushAll s.cfg q (fs.flatMap (Feed.bits s.table)) = .ok p at hp
      exact ih hf ((pPushAll_pstate hq).trans ha) (fun x h => hx x (List.mem_cons_of_mem _ h)) hp

/-- As many `PBIT` as there are bits push those bits. -/
theorem runCommands_pbits {bs : BitString} (hf : s.flt.err = none) (ha : s.pack.pstate = .active)
    (hp : pPushAll s.cfg s.pack bs = .ok p) :
    ∃ o, runCommands (bs.map Instr.pbit) s = .next { s with pack := p, port := o } := by
  have hb : (bs.map Sum.inl).flatMap (Feed.bits s.table) = bs := by
    rw [List.flatMap_map]
    exact List.flatMap_singleton' bs
  have h := runCommands_feeds (fs := bs.map Sum.inl) hf ha (by simp) (by rwa [hb])
  rwa [List.map_map] at h

/-- Settles O41: a code that has room is pushed, as by its `PBIT` commands; a code that has none raises `E_OVF`. -/
theorem encPushesTheCode : Obligations.EncPushesTheCode := by
  refine ⟨fun _ => rfl, fun s x hf h => raises_enc_seq hf h, fun s x hf ha hv hx => raises_enc_nocode hf ha hv hx,
    fun s x hf ha hv hx hw ho => raises_enc hf ha hv hx (pPushAll_overflows hw ho), fun s x hf ha hv hx hr => ?_⟩
  obtain ⟨p, hp⟩ := pPushAll_fits hr
  obtain ⟨o, ho⟩ := runCommands_pbits hf ha hp
  have h := pPushAll_pushed hp
  exact ⟨_, _, exec_enc hf ha hv hx hp, ⟨rfl, rfl⟩, ho, hf, rfl, h.pwp, h.pmem, h.ppad, h.pstate.trans ha,
    rfl, rfl, rfl, rfl, rfl⟩

/-! ### `PFLUSH` -/

/-- `PFLUSH` on a packer that is not active (R184). -/
theorem raises_pflush_seq (hf : s.flt.err = none) (ha : s.pack.pstate ≠ .active) : Raises .pflush s .seq := by
  refine raises_of_rule (fun _ => rfl) hf ?_
  exact if_neg ha

/-- `PFLUSH` when the last byte has no room (R184). -/
theorem raises_pflush (hf : s.flt.err = none) (ha : s.pack.pstate = .active)
    (hp : flush s.cfg s.pack = .error (.raise e)) : Raises .pflush s e := by
  refine raises_of_rule (fun _ => rfl) hf ?_
  simp [ha, hp, raise]

/-- `PFLUSH` with its checks passed (R184). -/
theorem exec_pflush (hf : s.flt.err = none) (ha : s.pack.pstate = .active) (hp : flush s.cfg s.pack = .ok p) :
    exec .pflush s = .next ({ s with pack := p }.respond .ok (BitVec.ofNat 64 (padCount s.pack))) := by
  refine exec_of_rule_ok (fun _ => rfl) hf ?_
  simp [ha, hp]

/-- Settles O42: the three ends of `PFLUSH` on an active packer; the counts are those of `PackInv.flush`. -/
theorem pflushPadsAndPublishes : Obligations.PflushPadsAndPublishes := by
  refine ⟨rfl, fun s hf ha => raises_pflush_seq hf ha, fun s hf ha hn hw => raises_pflush hf ha (flush_full hn hw),
    fun s hf ha hn => ?_, fun s hf ha hn h1 hw => ?_⟩
  · have hpad : padCount s.pack = 0 := by rw [padCount, hn]; rfl
    have hq := flush_aligned (c := s.cfg) hn
    have ht := exec_pflush hf ha hq
    rw [hpad] at ht
    refine ⟨_, ht, ⟨rfl, rfl⟩, rfl, s.pack.pmem.read_write_self 0 0#8,
      fun _ hne => (s.pack.pmem.read_write ..).trans (if_neg hne), rfl, rfl, rfl, rfl, rfl, fun hi => ?_, rfl, rfl, rfl,
      rfl, rfl⟩
    obtain ⟨-, -, hwp, -, -⟩ := (PackInv.flush hq hi ha).done rfl
    obtain ⟨hnb, -, -⟩ := hi.active ha
    exact ⟨hwp, hnb.symm.trans (congrArg BitVec.toNat hn)⟩
  · obtain ⟨hpad, hpos⟩ := padCount_of_ne hn
    have hq := flush_partial hn hw
    have ht := exec_pflush hf ha hq
    rw [hpad] at hq ht
    refine ⟨_, s.pack.pacc <<< (8 - s.pack.pnb.toNat), ht, ⟨rfl, rfl⟩, ?_, Memory.read_write_self .., ?_, ?_,
      fun a h0 hne => ?_, pwp_succ hw, rfl, rfl, rfl, rfl, fun hi => ?_, rfl, rfl, rfl, rfl, rfl⟩
    · exact Nat.mod_eq_of_lt (show 8 - s.pack.pnb.toNat < 8 by omega)
    · exact (Memory.read_write ..).trans ((if_neg (by omega)).trans (Memory.read_write_self ..))
    · rw [BitVec.toNat_shiftLeft, Nat.shiftLeft_eq]
    · exact (Memory.read_write ..).trans ((if_neg h0).trans ((Memory.read_write ..).trans (if_neg hne)))
    · obtain ⟨-, -, hwp, hpp, -⟩ := (PackInv.flush hq hi ha).done rfl
      exact ⟨hwp, hpp⟩

/-! ### `RDP` -/

/-- `RDP a` before `PFLUSH` (R185). -/
theorem raises_rdp_seq (hf : s.flt.err = none) (hd : s.pack.pstate ≠ .done) (a : BitVec 32) : Raises (.rdp a) s .seq := by
  refine raises_of_rule (fun _ => rfl) hf ?_
  exact if_neg hd

/-- `RDP a` beyond the payload (R185). -/
theorem raises_rdp_range {a : BitVec 32} (hf : s.flt.err = none) (hd : s.pack.pstate = .done)
    (ha : s.pack.pwp.toNat ≤ a.toNat) : Raises (.rdp a) s .range := by
  refine raises_of_rule (fun _ => rfl) hf ?_
  exact (if_pos hd).trans (if_pos ha)

/-- `RDP a` of a byte of the payload (R185). -/
theorem exec_rdp {a : BitVec 32} {v : Byte} (hf : s.flt.err = none) (hd : s.pack.pstate = .done)
    (ha : a.toNat < s.pack.pwp.toNat) (hv : s.pack.pmem.read a.toNat = some v) :
    exec (.rdp a) s = .next (s.respond .ok (v.setWidth 64)) := by
  refine exec_of_rule_ok (fun _ => rfl) hf ?_
  simp [hd, Nat.not_le.2 ha, loadByte_ok hv]

/-- A published payload stays until `PINIT` or `CLR` (R185). -/
theorem Effect.pack_of_done {i : Instr} {u : State} (he : Effect i s u) (hd : s.pack.pstate = .done) (hi : i ≠ .pinit)
    (hc : i ≠ .clr) : u.pack = s.pack := by
  cases he with
  | pinit => exact absurd rfl hi
  | clr => exact absurd rfl hc
  | pbit ha | enc ha | pflush ha => cases ha.symm.trans hd
  | _ => rfl

/-- Settles O43: the ends of `RDP`, whose byte is written by `PackInv`; the frame is `Effect.pack_of_done`. -/
theorem rdpReadsThePayload : Obligations.RdpReadsThePayload := by
  refine ⟨fun _ => rfl, fun s a hf hd => raises_rdp_seq hf hd a, fun s a hf hd ha => raises_rdp_range hf hd ha,
    fun s a hf hd ha hi => ?_, fun s i t h hd hi hc => ?_⟩
  · obtain ⟨v, hv⟩ := Option.isSome_iff_exists.1 (hi.written a.toNat ha)
    exact ⟨_, v, hv, exec_rdp hf hd ha hv, ⟨rfl, rfl⟩, unchanged_respond ..⟩
  · rcases exec_cases h with ⟨-, rfl⟩ | ⟨-, e, rfl⟩ | ⟨u, d, hu, rfl⟩
    · rfl
    · rfl
    · exact hu.pack_of_done hd hi hc

end
end Sys2Proof.Machine
end

section
/-! The packer computes `Pack` (R186): the bits taken since `PINIT` stand, eight to a byte, in `PMEM` and `PACC`; `PFLUSH`
pads the last of these bytes and publishes them. -/

namespace Sys2Proof.Machine

/-- The active packer `p` has taken exactly the bits `u` since `PINIT`: the full bytes of `u` are in `PMEM`, the byte
being assembled is in `PACC`. -/
structure Taken (u : BitString) (p : Packer) : Prop where
  pstate : p.pstate = .active
  pbitcnt : p.pbitcnt = BitVec.ofNat 64 u.length
  pnb : p.pnb = BitVec.ofNat 3 u.length
  pwp : p.pwp.toNat = 1 + u.length / 8
  pacc : p.pacc = byteAt u (u.length / 8)
  pmem : ∀ k, k < u.length / 8 → p.pmem.read (k + 1) = some (byteAt u k)

section
variable {c : Config} {u : BitString} {p q : Packer}

theorem Taken.start (m : Memory) : Taken [] (.start m) where
  pstate := rfl
  pbitcnt := rfl
  pnb := rfl
  pwp := rfl
  pacc := rfl
  pmem _ h := absurd h (Nat.not_lt_zero _)

theorem Taken.pnb_toNat (h : Taken u p) : p.pnb.toNat = u.length % 8 := by
  rw [h.pnb, BitVec.toNat_ofNat]

theorem Taken.pPush {b : Bool} (h : Taken u p) (hp : pPush c p b = .ok q) : Taken (u ++ [b]) q := by
  have hnb := h.pnb_toNat
  have hl : (u ++ [b]).length = u.length + 1 := List.length_append
  have hacc : byteAt (u ++ [b]) (u.length / 8) = shiftIn p.pacc b := by
    rw [byteAt_concat (by omega) (by omega), h.pacc]
  have hcnt : p.pbitcnt + 1#64 = BitVec.ofNat 64 (u ++ [b]).length := by rw [hl, BitVec.ofNat_add, h.pbitcnt]
  have hpnb : p.pnb + 1#3 = BitVec.ofNat 3 (u ++ [b]).length := by rw [hl, BitVec.ofNat_add, h.pnb]
  have hold (k) (hk : k < u.length / 8) : byteAt (u ++ [b]) k = byteAt u k := byteAt_append_of_le (by omega) [b]
  rcases pPush_cases c p b with ⟨-, -, e⟩ | ⟨h7, hw, e⟩ | ⟨-, -, e⟩ | ⟨h7, e⟩ <;> cases e.symm.trans hp
  · rw [h7, BitVec.toNat_ofNat] at hnb
    have hdiv : (u ++ [b]).length / 8 = u.length / 8 + 1 := by omega
    rw [h7] at hpnb
    refine ⟨h.pstate, hcnt, hpnb, ?_, ?_, fun k hk => ?_⟩
    · rw [hdiv, ← Nat.add_assoc, ← h.pwp]
      exact pwp_succ hw
    · exact (byteAt_of_length_le (by omega)).symm
    · rw [Memory.read_write, h.pwp]
      rcases Nat.lt_succ_iff_lt_or_eq.1 (hdiv ▸ hk) with hlt | rfl
      · rw [if_neg (by omega), hold k hlt, h.pmem k hlt]
      · rw [if_pos (Nat.add_comm ..), hacc]
  · obtain ⟨hlt, -⟩ := pnb_succ h7
    have hdiv : (u ++ [b]).length / 8 = u.length / 8 := by omega
    refine ⟨h.pstate, hcnt, hpnb, ?_, ?_, fun k hk => ?_⟩
    · rw [hdiv]; exact h.pwp
    · rw [hdiv, hacc]
    · rw [hdiv] at hk
      rw [hold k hk, h.pmem k hk]

theorem Taken.pPushAll {bs : BitString} (h : Taken u p) (hp : pPushAll c p bs = .ok q) : Taken (u ++ bs) q := by
  induction bs generalizing u p with
  | nil => cases hp; rwa [List.append_nil]
  | cons b bs ih =>
    rcases hb : Machine.pPush c p b with e | r
    · rw [pPushAll_cons_error hb] at hp; cases hp
    · rw [pPushAll_cons_ok hb] at hp
      rw [List.append_cons]
      exact ih (h.pPush hb) hp

theorem Taken.padCount (h : Taken u p) : padCount p = padOf u.length := by
  rw [Machine.padCount, h.pnb_toNat, padOf]

/-- `p` has published the payload of `u` (R184). -/
structure Published (u : BitString) (p : Packer) : Prop where
  pstate : p.pstate = .done
  pwp : p.pwp.toNat = (payloadOf u).length
  pmem : ∀ k v, (payloadOf u)[k]? = some v → p.pmem.read k = some v
  ppad : p.ppad = BitVec.ofNat 3 (padOf u.length)
  pbitcnt : p.pbitcnt = BitVec.ofNat 64 u.length

/-- `PFLUSH` publishes the payload of the bits taken, if it has room (R184). -/
theorem Taken.flush (h : Taken u p) (hr : (payloadOf u).length ≤ c.pmemBytes) :
    ∃ q, flush c p = .ok q ∧ Published u q := by
  have hnb := h.pnb_toNat
  have hpad := h.padCount
  rw [payloadOf_length] at hr
  by_cases hn : p.pnb = 0#3
  · have h0 : u.length % 8 = 0 := by rw [← hnb, hn]; rfl
    have hp0 : padOf u.length = 0 := by rw [padOf, h0]
    refine ⟨_, flush_aligned hn, rfl, ?_, fun k v hk => ?_, by rw [hp0], h.pbitcnt⟩
    · rw [payloadOf_length, h.pwp]; omega
    · rcases payloadOf_getElem?_cases hk with ⟨rfl, rfl⟩ | ⟨j, rfl, hj, rfl⟩ | ⟨-, hne, -⟩
      · rw [Memory.read_write_self, hp0]
      · rw [Memory.read_write, if_neg j.succ_ne_zero, h.pmem j hj]
      · exact absurd h0 hne
  · have h0 : u.length % 8 ≠ 0 := fun e => hn (BitVec.eq_of_toNat_eq (hnb.trans e))
    have hw : p.pwp.toNat < c.pmemBytes := by rw [h.pwp]; omega
    refine ⟨_, flush_partial hn hw, rfl, ?_, fun k v hk => ?_, by rw [hpad], h.pbitcnt⟩
    · rw [payloadOf_length]
      refine (pwp_succ hw).trans ?_
      rw [h.pwp]; omega
    · rcases payloadOf_getElem?_cases hk with ⟨rfl, rfl⟩ | ⟨j, rfl, hj, rfl⟩ | ⟨rfl, -, rfl⟩
      · rw [Memory.read_write_self, hpad]
      · rw [Memory.read_write, if_neg j.succ_ne_zero, Memory.read_write, if_neg (by rw [h.pwp]; omega), h.pmem j hj]
      · rw [Memory.read_write, if_neg (Nat.succ_ne_zero _), h.pwp, Nat.add_comm, Memory.read_write_self, h.pacc, hpad]

end

/-- `PINIT`, feeds and `PFLUSH` publish the payload of the bits pushed, and change nothing but the packer and the
responses sent. -/
theorem runCommands_pack {s : State} {fs : List Feed} (hf : s.flt.err = none)
    (hx : ∀ x, .inr x ∈ fs → s.table.ctValid = true ∧ (s.table.entry x).v = true)
    (hr : (payloadOf (fs.flatMap (Feed.bits s.table))).length ≤ s.cfg.pmemBytes) :
    ∃ p o, Published (fs.flatMap (Feed.bits s.table)) p ∧
      runCommands (.pinit :: (fs.map Feed.command ++ [.pflush])) s = .next { s with pack := p, port := o } := by
  have started := exec_pinit hf
  generalize s.pack.pmem.write 0 0#8 = m at started
  have hfit : 1 + (0 + (fs.flatMap (Feed.bits s.table)).length) / 8 ≤ s.cfg.pmemBytes := by
    rw [payloadOf_length] at hr
    omega
  obtain ⟨p, hp⟩ := pPushAll_fits (p := .start m) hfit
  have taken := (Taken.start m).pPushAll hp
  obtain ⟨o, fed⟩ := runCommands_feeds (s := { s with pack := .start m }.respond .ok 0#64) hf rfl hx hp
  obtain ⟨q, hq, hpub⟩ := taken.flush hr
  have flushed := exec_pflush (s := { s with pack := p, port := o }) hf taken.pstate hq
  rw [runCommands_cons started, runCommands_append fed]
  exact ⟨q, _, hpub, runCommands_cons flushed []⟩

/-- Settles O44: `runCommands_pack`; the counts fit their registers because the payload fits `PMEM`. -/
theorem packerComputesPack : Obligations.PackerComputesPack := by
  intro s fs hf hx hr
  obtain ⟨p, o, h, hrun⟩ := runCommands_pack hf hx ((payloadOf_length _).trans_le hr)
  have hpad : p.ppad.toNat = padOf (fs.flatMap (Feed.bits s.table)).length := by
    rw [h.ppad, BitVec.toNat_ofNat]
    exact Nat.mod_eq_of_lt (Nat.mod_lt _ (by decide))
  have hcnt : p.pbitcnt.toNat = (fs.flatMap (Feed.bits s.table)).length := by
    have := s.cfg.pmemBytes_le
    rw [h.pbitcnt, BitVec.toNat_ofNat]
    omega
  exact ⟨_, hrun, hf, h.pstate, h.pwp, h.pmem, hpad, Nat.le_of_lt_succ p.ppad.isLt, hcnt, rfl, rfl, rfl, rfl, rfl⟩

end Sys2Proof.Machine
end

section
/-! The Bit Unpacker commands (R200 to R203): the checks that `UBYTE` and `UEND` share, then for each command its faults
and its effect on an engine that is not faulted, in the order of its checks (R254). -/

namespace Sys2Proof.Machine

section
variable {s t : State} {v : Byte} {e : ErrCode} {bs : BitString} {d : Decoder}

/-! ### `UINIT` -/

theorem encode_uinit (m : Bool) : encode (.uinit m) = 0x40#8 ++ 0#39 ++ BitVec.ofBool m := by
  cases m <;> rfl

/-- `UINIT 1` without a valid table (R200). -/
theorem raises_uinit (hf : s.flt.err = none) (hv : s.table.ctValid = false) : Raises (.uinit true) s .seq := by
  refine raises_of_rule (fun _ => rfl) hf ?_
  exact if_pos (by rw [hv]; rfl)

/-- `s` with a payload begun in mode `m` (R200). -/
def State.unpacking (s : State) (m : Bool) : State :=
  { s with
    unpack := { s.unpack with umode := m, ustate := .pad, upad := 0#3, uholdv := false, ubitcnt := 0#64 },
    dec := if m then s.dec.start else s.dec }

/-- `UINIT m`, in every unpacker state (R200). -/
theorem exec_uinit {m : Bool} (hf : s.flt.err = none) (h : m = false ∨ s.table.ctValid = true) :
    exec (.uinit m) s = .next ((s.unpacking m).respond .ok 0#64) := by
  refine exec_of_rule_ok (fun _ => rfl) hf ?_
  refine if_neg ?_
  rcases h with rfl | hv
  · exact Bool.false_ne_true
  · simp [hv]

/-- Settles O45: by `exec_uinit`, in each mode. -/
theorem uinitStartsUnpacking : Obligations.UinitStartsUnpacking := by
  refine ⟨encode_uinit, fun s hf hv => raises_uinit hf hv, fun s m hf h => ⟨_, exec_uinit hf h, ⟨rfl, rfl⟩, rfl,
    fun hm => ?_, fun hm => ?_, rfl, rfl, rfl, rfl⟩⟩
  · subst hm; rfl
  · subst hm; exact ⟨rfl, rfl, rfl, fun _ => rfl⟩

/-! ### The checks of `UBYTE` and `UEND` -/

theorem legal_ubyte (s : State) (v : Byte) : legal s (.ubyte v) = (s.unpack.taking && s.linked) := rfl

theorem legal_uend (s : State) : legal s .uend = (s.unpack.taking && s.linked) := rfl

/-- A check that fails raises `E_SEQ`, whichever it is (R202, R203). -/
theorem payload_checks_fail {α : Type} (h : (s.unpack.taking && s.linked) = false) (r : Except Stop α) :
    (if !s.unpack.taking then raise .seq else if !s.linked then raise .seq else r) = raise .seq := by
  rcases Bool.and_eq_false_iff.1 h with ht | hl
  · simp [ht]
  · simp [hl]

theorem payload_checks_pass {α : Type} (h : (s.unpack.taking && s.linked) = true) (r : Except Stop α) :
    (if !s.unpack.taking then raise .seq else if !s.linked then raise .seq else r) = r := by
  obtain ⟨ht, hl⟩ := Bool.and_eq_true_iff.1 h
  simp [ht, hl]

/-- Outside `U_PAD` and `U_DATA` no payload is taken. -/
theorem checks_of_not_taking (hp : s.unpack.ustate ≠ .pad) (hd : s.unpack.ustate ≠ .data) :
    (s.unpack.taking && s.linked) = false := by
  simp [Unpacker.taking, hp, hd]

/-- In mode 1 the link is broken when the decoder cannot take a bit. -/
theorem checks_of_broken_link (hm : s.unpack.umode = true) (h : s.dec.dstate ≠ .run ∨ s.table.ctValid = false) :
    (s.unpack.taking && s.linked) = false := by
  rcases h with h | h
  · simp [State.linked, State.decoding, hm, h]
  · simp [State.linked, State.decoding, hm, h]

/-- In mode 0 there is no link to break. -/
theorem checks_of_mode0 (hm : s.unpack.umode = false) (h : s.unpack.ustate = .pad ∨ s.unpack.ustate = .data) :
    (s.unpack.taking && s.linked) = true := by
  rcases h with h | h
  · simp [Unpacker.taking, State.linked, hm, h]
  · simp [Unpacker.taking, State.linked, hm, h]

/-- In mode 1 the link holds exactly while the decoder can take a bit. -/
theorem decoding_of_checks (hm : s.unpack.umode = true) (h : (s.unpack.taking && s.linked) = true) :
    s.decoding = true := by
  have hl := Bool.and_elim_right h
  rwa [State.linked, hm] at hl

/-! ### `UBYTE` -/

/-- `UBYTE v` with a check failed (R202). -/
theorem raises_ubyte_seq (hf : s.flt.err = none) (h : (s.unpack.taking && s.linked) = false) (v : Byte) :
    Raises (.ubyte v) s .seq := by
  refine raises_of_rule (fun _ => rfl) hf ?_
  exact payload_checks_fail h _

/-- The padding count is above 7 (R202). -/
theorem raises_ubyte_pad (hf : s.flt.err = none) (hl : (s.unpack.taking && s.linked) = true)
    (hp : s.unpack.ustate = .pad) (hv : 7 < v.toNat) : Raises (.ubyte v) s .pad := by
  refine raises_of_rule (fun _ => rfl) hf ((payload_checks_pass hl _).trans ?_)
  simp [hp, takePadding, hv, raise]

/-- `s` with the padding count `v` taken (R202). -/
def State.padded (s : State) (v : Byte) : State :=
  { s with unpack := { s.unpack with upad := v.setWidth 3, ustate := .data } }

/-- The padding count is taken (R202). -/
theorem exec_ubyte_pad (hf : s.flt.err = none) (hl : (s.unpack.taking && s.linked) = true)
    (hp : s.unpack.ustate = .pad) (hv : v.toNat ≤ 7) :
    exec (.ubyte v) s = .next ((s.padded v).respond .ok 0#64) := by
  refine exec_of_rule_ok (fun _ => rfl) hf ((payload_checks_pass hl _).trans ?_)
  simp [hp, takePadding, Nat.not_lt.2 hv, ended, State.padded]

/-- The release of the byte held raises (R202). -/
theorem raises_ubyte_data (hf : s.flt.err = none) (hl : (s.unpack.taking && s.linked) = true)
    (hd : s.unpack.ustate = .data) (hv : s.unpack.uholdv = true)
    (h : uEmitAll s (byteBits s.unpack.uhold) = .error (.raise e)) : Raises (.ubyte v) s e := by
  refine raises_of_rule (fun _ => rfl) hf ((payload_checks_pass hl _).trans ?_)
  simp [hd, takeData_eq, hv, h, raise, Except.map]

/-- The byte held is released and `v` is held (R202). -/
theorem exec_ubyte_data (hf : s.flt.err = none) (hl : (s.unpack.taking && s.linked) = true)
    (hd : s.unpack.ustate = .data) (hv : s.unpack.uholdv = true)
    (h : uEmitAll s (byteBits s.unpack.uhold) = .ok t) :
    exec (.ubyte v) s = .next ((t.hold v).respond .ok 0#64) := by
  refine exec_of_rule_ok (fun _ => rfl) hf ((payload_checks_pass hl _).trans ?_)
  simp [hd, takeData_eq, hv, h, ended, Except.map]

/-- The first data byte is held (R202). -/
theorem exec_ubyte_first (hf : s.flt.err = none) (hl : (s.unpack.taking && s.linked) = true)
    (hd : s.unpack.ustate = .data) (hv : s.unpack.uholdv = false) (v : Byte) :
    exec (.ubyte v) s = .next ((s.hold v).respond .ok 0#64) := by
  refine exec_of_rule_ok (fun _ => rfl) hf ((payload_checks_pass hl _).trans ?_)
  simp [hd, takeData_eq, hv, uEmitAll, ended, Except.map]

/-- Three bits hold a padding count. -/
theorem upad_toNat (hv : v.toNat ≤ 7) : (v.setWidth 3).toNat = v.toNat := by
  rw [BitVec.toNat_setWidth]
  exact Nat.mod_eq_of_lt (Nat.lt_succ_of_le hv)

/-- Settles O46: the ends of `UBYTE`, one by one; in mode 0 a release only emits. -/
theorem ubyteTakesAPayloadByte : Obligations.UbyteTakesAPayloadByte := by
  refine ⟨fun _ => rfl, fun s v hf hp hd => raises_ubyte_seq hf (checks_of_not_taking hp hd) v,
    fun s v hf hm h => raises_ubyte_seq hf (checks_of_broken_link hm h) v,
    fun s v hf hl hp hv => raises_ubyte_pad hf hl hp hv, fun s v hf hl hp hv => ?_, fun s v hf hl hd hv => ?_,
    fun s v hf hm hd hv => ?_⟩
  · exact ⟨_, exec_ubyte_pad hf hl hp hv, ⟨rfl, rfl⟩, upad_toNat hv, rfl, rfl, rfl, rfl, rfl, rfl⟩
  · exact ⟨_, exec_ubyte_first hf hl hd hv v, ⟨rfl, rfl⟩, rfl, rfl, rfl, rfl, rfl, rfl⟩
  · have released := uEmitAll_mode0 hm (byteBits s.unpack.uhold)
    refine ⟨_, exec_ubyte_data hf (checks_of_mode0 hm (.inr hd)) hd hv released, ⟨rfl, rfl⟩, ?_,
      rfl, rfl, rfl, rfl, rfl⟩
    simp [State.emitted, hv]

/-! ### `UEND` -/

/-- The bits that the end of a payload releases (R203): the leading `8 - UPAD` bits of the byte held, or none. -/
def Unpacker.lastBits (u : Unpacker) : BitString :=
  if u.uholdv then (byteBits u.uhold).take (8 - u.upad.toNat) else []

theorem Unpacker.lastBits_of_held {u : Unpacker} (h : u.uholdv = true) :
    u.lastBits = (List.range (8 - u.upad.toNat)).map (fun j => u.uhold.getLsbD (7 - j)) := by
  rw [lastBits, if_pos h, take_byteBits _ (Nat.sub_le ..)]

theorem Unpacker.lastBits_of_not_held {u : Unpacker} (h : u.uholdv = false) : u.lastBits = [] :=
  if_neg (Bool.eq_false_iff.1 h)

/-- `s` after its payload has ended with the bits `bs`, the decoder having become `d` (R203). -/
def State.finished (s : State) (bs : BitString) (d : Decoder) : State :=
  { s.emitted bs with
    unpack := { s.unpack with ustate := .done, uholdv := false,
                              ubitcnt := s.unpack.ubitcnt + BitVec.ofNat 64 bs.length },
    dec := d }

theorem State.finished_unpack (d : Decoder) {n : Nat} (h : bs.length = n) : (s.finished bs d).unpack =
    { s.unpack with ustate := .done, uholdv := false, ubitcnt := s.unpack.ubitcnt + BitVec.ofNat 64 n } := by
  subst h; rfl

/-- A payload that may end releases its last bits, none when no byte is held. -/
theorem releaseLast_eq (hi : UnpackInv s.unpack) (h0 : s.unpack.uholdv = false → s.unpack.upad = 0#3) :
    releaseLast s = (uEmitAll s s.unpack.lastBits).map
      (fun t => { t with unpack := { t.unpack with uholdv := false } }) := by
  cases hv : s.unpack.uholdv
  · have hr : releaseLast s = .ok s := by
      rcases releaseLast_cases s with ⟨-, h⟩ | ⟨-, -, -, h⟩ | ⟨-, -, hn, -⟩ | ⟨-, ht, -⟩
      · exact h
      · exact h
      · exact absurd (h0 hv) hn
      · cases hv.symm.trans ht
    rw [hr, s.unpack.lastBits_of_not_held hv]
    simp [uEmitAll, Except.map, ← hv]
  · rw [Unpacker.lastBits, if_pos hv]
    rcases releaseLast_cases s with ⟨hn, -⟩ | ⟨-, hn, -⟩ | ⟨-, hn, -⟩ | ⟨-, -, h⟩
    · exact absurd (hi hv) hn
    · cases hv.symm.trans hn
    · cases hv.symm.trans hn
    · exact h

theorem endPayload_mode0 (hm : s.unpack.umode = false) :
    endPayload s = .ok { s with unpack := { s.unpack with ustate := .done } } := by
  rcases endPayload_cases s with ⟨-, h⟩ | ⟨ht, -⟩ | ⟨ht, -⟩
  · exact h
  · cases hm.symm.trans ht
  · cases hm.symm.trans ht

/-- In mode 0 the end of a payload only emits its last bits. -/
theorem closePayload_mode0 (hm : s.unpack.umode = false) (hi : UnpackInv s.unpack)
    (h0 : s.unpack.uholdv = false → s.unpack.upad = 0#3) :
    (releaseLast s).bind endPayload = .ok (s.finished s.unpack.lastBits s.dec) := by
  rw [releaseLast_eq hi h0, uEmitAll_mode0 hm]
  exact endPayload_mode0 hm

/-- `UEND` with a check failed (R203). -/
theorem raises_uend_seq (hf : s.flt.err = none) (h : (s.unpack.taking && s.linked) = false) : Raises .uend s .seq := by
  refine raises_of_rule (fun _ => rfl) hf ?_
  exact payload_checks_fail h _

/-- The release or the end of the decode raises (R203). -/
theorem raises_uend (hf : s.flt.err = none) (hl : (s.unpack.taking && s.linked) = true)
    (h : (releaseLast s).bind endPayload = .error (.raise e)) : Raises .uend s e := by
  refine raises_of_rule (fun _ => rfl) hf ((payload_checks_pass hl _).trans ?_)
  rcases hr : releaseLast s with r | t <;> rw [hr] at h
  · cases h; rfl
  · change endPayload t = _ at h
    simp [h, raise]

/-- The payload ends (R203). -/
theorem exec_uend (hf : s.flt.err = none) (hl : (s.unpack.taking && s.linked) = true)
    (h : (releaseLast s).bind endPayload = .ok t) : exec .uend s = .next (t.respond .ok 0#64) := by
  refine exec_of_rule_ok (fun _ => rfl) hf ((payload_checks_pass hl _).trans ?_)
  rcases hr : releaseLast s with r | u <;> rw [hr] at h
  · cases h
  · change endPayload u = _ at h
    simp [h, ended]

/-- A padding count other than 0 comes with no data byte (R203). -/
theorem raises_uend_pad (hf : s.flt.err = none) (hl : (s.unpack.taking && s.linked) = true)
    (hd : s.unpack.ustate = .data) (hv : s.unpack.uholdv = false) (hp : s.unpack.upad ≠ 0#3) : Raises .uend s .pad := by
  refine raises_uend hf hl ?_
  simp [releaseLast, hd, hv, hp, raise, Except.bind]

/-- In mode 0 with nothing to release (R203, R205). -/
theorem exec_uend_nothing (hf : s.flt.err = none) (hm : s.unpack.umode = false)
    (h : s.unpack.ustate = .pad ∨ s.unpack.ustate = .data ∧ s.unpack.uholdv = false ∧ s.unpack.upad = 0#3) :
    exec .uend s = .next ({ s with unpack := { s.unpack with ustate := .done } }.respond .ok 0#64) := by
  refine exec_uend hf (checks_of_mode0 hm (h.imp_right And.left)) ?_
  have hr : releaseLast s = .ok s := by
    rcases h with h | ⟨hd, hv, hp⟩
    · simp [releaseLast, h]
    · simp [releaseLast, hd, hv, hp]
  rw [hr]
  exact endPayload_mode0 hm

/-- In mode 0 with a byte held (R203). -/
theorem exec_uend_held (hf : s.flt.err = none) (hm : s.unpack.umode = false) (hd : s.unpack.ustate = .data)
    (hv : s.unpack.uholdv = true) :
    exec .uend s = .next ((s.finished s.unpack.lastBits s.dec).respond .ok 0#64) :=
  exec_uend hf (checks_of_mode0 hm (.inr hd))
    (closePayload_mode0 hm (fun _ => hd) fun hn => by cases hv.symm.trans hn)

/-- Settles O47: the ends of `UEND`, one by one; in mode 0 a release only emits. -/
theorem uendReleasesTheLastByte : Obligations.UendReleasesTheLastByte := by
  refine ⟨rfl, fun s hf hp hd => raises_uend_seq hf (checks_of_not_taking hp hd),
    fun s hf hm h => raises_uend_seq hf (checks_of_broken_link hm h),
    fun s hf hl hd hv hp => raises_uend_pad hf hl hd hv hp, fun s hf hm hd hv => ?_, fun s hf hm h => ?_⟩
  · rw [← s.unpack.lastBits_of_held hv]
    refine ⟨_, exec_uend_held hf hm hd hv, ⟨rfl, rfl⟩, State.finished_unpack s.dec ?_, rfl, rfl, rfl, rfl, rfl⟩
    simp [s.unpack.lastBits_of_held hv]
  · exact ⟨_, exec_uend_nothing hf hm h, ⟨rfl, rfl⟩, rfl, rfl, rfl, rfl, rfl, rfl⟩

end
end Sys2Proof.Machine
end

section
/-! In mode 1 a release and the same bits brought by `DBIT` do one thing to the decoder (R201, R222). -/

namespace Sys2Proof.Machine

section
variable {s : State} {c : Config} {g : CodeTable} {d : Decoder} {e : ErrCode}

/-! ### Bits one after another -/

theorem dStepAll_cons (b : Bool) (bs : BitString) :
    dStepAll c g d (b :: bs) = (dStep c g d b).bind (fun d => dStepAll c g d bs) := by
  rw [dStepAll]
  rcases dStep c g d b with r | d'
  · rfl
  · rfl

/-- The bits of a payload's end, and the end of the decode (R203, R224). -/
def dStepLast (c : Config) (g : CodeTable) (d : Decoder) (bs : BitString) : Except Stop Decoder :=
  (dStepAll c g d bs).bind dFinish

/-- `D_STEP` keeps `OCNT` within `OMEM` (R66). -/
theorem dStep_capacity {d' : Decoder} {b : Bool} (h : dStep c g d b = .ok d') (hc : d.ocnt.toNat ≤ c.omemBytes.val) :
    d'.ocnt.toNat ≤ c.omemBytes.val := by
  rcases dStep_cases c g d b with ⟨x, -, ⟨-, r⟩ | ⟨hlt, r⟩ | ⟨-, r⟩⟩ | ⟨-, -, r⟩ | ⟨-, -, r⟩ <;> cases r.symm.trans h
  · exact (ocnt_succ hlt).trans_le hlt
  · exact hc

/-- `D_STEP` stops only by a fault of the engine while `OCNT` is within `OMEM`. -/
theorem dStep_not_broken {b : Bool} (hc : d.ocnt.toNat ≤ c.omemBytes.val) (f : Fault) :
    dStep c g d b ≠ .error (.broken f) := by
  intro h
  rcases dStep_cases c g d b with ⟨x, -, ⟨-, r⟩ | ⟨-, r⟩ | ⟨hgt, -⟩⟩ | ⟨-, -, r⟩ | ⟨-, -, r⟩
  · cases r.symm.trans h
  · cases r.symm.trans h
  · exact absurd hc (Nat.not_le.2 hgt)
  · cases r.symm.trans h
  · cases r.symm.trans h

/-! ### Commands -/

/-- `DBIT b` when `D_STEP` takes the bit (R221). -/
theorem exec_dbit {b : Bool} (hf : s.flt.err = none) (hd : s.decoding = true)
    (h : dStep s.cfg s.table s.dec b = .ok d) : exec (.dbit b) s = .next ({ s with dec := d }.respond .ok 0#64) := by
  refine exec_of_rule_ok (fun _ => rfl) hf ?_
  simp [hd, h, ended]

/-- `DBIT b` when `D_STEP` raises (R221). -/
theorem raises_dbit {b : Bool} (hf : s.flt.err = none) (hd : s.decoding = true)
    (h : dStep s.cfg s.table s.dec b = .error (.raise e)) : Raises (.dbit b) s e := by
  refine raises_of_rule (fun _ => rfl) hf ?_
  simp [hd, h, raise]

/-- `DEND` when `D_FINISH` ends the decode (R223). -/
theorem exec_dend (hf : s.flt.err = none) (hr : s.dec.dstate = .run) (h : dFinish s.dec = .ok d) :
    exec .dend s = .next ({ s with dec := d }.respond .ok 0#64) := by
  refine exec_of_rule_ok (fun _ => rfl) hf ?_
  simp [hr, h, ended]

/-- `DEND` when `D_FINISH` raises (R223). -/
theorem raises_dend (hf : s.flt.err = none) (hr : s.dec.dstate = .run) (h : dFinish s.dec = .error (.raise e)) :
    Raises .dend s e := by
  refine raises_of_rule (fun _ => rfl) hf ?_
  simp [hr, h, raise]

/-- A faulted engine refuses every command but the three of R253, so its fault stays. -/
theorem runCommands_faulted {is : List Instr} (hf : s.flt.err = some e)
    (hi : ∀ i ∈ is, runsWhileFaulted i = false) : ∃ u, runCommands is s = .next u ∧ u.flt.err = some e := by
  induction is generalizing s with
  | nil => exact ⟨s, rfl, hf⟩
  | cons i is ih =>
    obtain ⟨body, hb⟩ := exec_command (hi i List.mem_cons_self)
    have refused : exec i s = .next s.refuseFaulted :=
      (hb s).trans (command_faulted (s.faulted_iff.2 (by simp [hf])))
    rw [runCommands_cons refused]
    exact ih hf fun j hj => hi j (List.mem_cons_of_mem _ hj)

/-- Once one command has raised, the rest of a run is refused. -/
theorem Raises.runCommands {i : Instr} {is : List Instr} (h : Raises i s e)
    (hi : ∀ i ∈ is, runsWhileFaulted i = false) : ∃ u, runCommands (i :: is) s = .next u ∧ u.flt.err = some e := by
  obtain ⟨t, ht, -, -, hflt, -⟩ := h
  rw [runCommands_cons ht]
  exact runCommands_faulted (congrArg FaultRegs.err hflt) hi

/-! ### Runs of `DBIT` and `DEND` -/

/-- What a run of commands does to the decoder, and it changes nothing else but the responses sent: it ends with the
decoder that `r` gives, or with the fault that `r` raises. -/
def RunsDecoder (s : State) (is : List Instr) : Except Stop Decoder → Prop
  | .ok d => ∃ o, runCommands is s = .next { s with dec := d, port := o }
  | .error (.raise e) => ∃ u, runCommands is s = .next u ∧ u.flt.err = some e
  | .error (.broken _) => False

/-- One run after another. -/
theorem RunsDecoder.append {is js : List Instr} {r : Except Stop Decoder} {f : Decoder → Except Stop Decoder}
    (h : RunsDecoder s is r) (hj : ∀ i ∈ js, runsWhileFaulted i = false)
    (hf : ∀ d o, r = .ok d → RunsDecoder { s with dec := d, port := o } js (f d)) :
    RunsDecoder s (is ++ js) (r.bind f) := by
  rcases r with (e | f') | d
  · obtain ⟨u, hu, he⟩ := h
    obtain ⟨w, hw, he⟩ := runCommands_faulted he hj
    exact ⟨w, (runCommands_append hu js).trans hw, he⟩
  · exact h.elim
  · obtain ⟨o, ho⟩ := h
    have h2 := hf d o rfl
    change RunsDecoder s (is ++ js) (f d)
    generalize f d = q at h2
    rcases q with (e | f') | d'
    · obtain ⟨u, hu, he⟩ := h2
      exact ⟨u, (runCommands_append ho js).trans hu, he⟩
    · exact h2.elim
    · obtain ⟨o', ho'⟩ := h2
      exact ⟨o', (runCommands_append ho js).trans ho'⟩

/-- The two ends of a run, told apart by `ERR`. -/
theorem RunsDecoder.ends {is : List Instr} {r : Except Stop Decoder} (h : RunsDecoder s is r) (hf : s.flt.err = none) :
    ∃ u, runCommands is s = .next u ∧
      ((u.flt.err = none ∧ r = .ok u.dec) ∨ ∃ e, u.flt.err = some e ∧ r = .error (.raise e)) := by
  rcases r with (e | f) | d
  · obtain ⟨u, hu, he⟩ := h
    exact ⟨u, hu, .inr ⟨e, he, rfl⟩⟩
  · exact h.elim
  · obtain ⟨o, ho⟩ := h
    exact ⟨_, ho, .inl ⟨hf, rfl⟩⟩

theorem runsDecoder_dbit (hf : s.flt.err = none) (hd : s.decoding = true) (hc : s.dec.ocnt.toNat ≤ s.cfg.omemBytes.val)
    (b : Bool) : RunsDecoder s [.dbit b] (dStep s.cfg s.table s.dec b) := by
  rcases h : dStep s.cfg s.table s.dec b with (e | f) | d
  · exact (raises_dbit hf hd h).runCommands (by simp)
  · exact absurd h (dStep_not_broken hc f)
  · exact ⟨_, runCommands_cons (exec_dbit hf hd h) []⟩

theorem runsDecoder_dend (hf : s.flt.err = none) (hr : s.dec.dstate = .run) :
    RunsDecoder s [.dend] (dFinish s.dec) := by
  rcases dFinish_cases s.dec with ⟨-, h⟩ | ⟨-, h⟩ <;> rw [h]
  · exact ⟨_, runCommands_cons (exec_dend hf hr h) []⟩
  · exact (raises_dend hf hr h).runCommands (by simp)

theorem dbits_refused (bs : BitString) : ∀ i ∈ bs.map Instr.dbit, runsWhileFaulted i = false := by
  intro i hi
  obtain ⟨b, -, rfl⟩ := List.mem_map.1 hi
  rfl

/-- As many `DBIT` as there are bits step the decoder by those bits. -/
theorem runsDecoder_dbits (hf : s.flt.err = none) (hd : s.decoding = true)
    (hc : s.dec.ocnt.toNat ≤ s.cfg.omemBytes.val) (bs : BitString) :
    RunsDecoder s (bs.map Instr.dbit) (dStepAll s.cfg s.table s.dec bs) := by
  induction bs generalizing s with
  | nil => exact ⟨s.port, rfl⟩
  | cons b bs ih =>
    rw [dStepAll_cons]
    refine (runsDecoder_dbit hf hd hc b).append (dbits_refused bs) fun d o h => ?_
    refine ih (s := { s with dec := d, port := o }) hf ?_ (dStep_capacity h hc)
    simpa [State.decoding, dStep_dstate h] using hd

/-- `DEND` after them ends the decode. -/
theorem runsDecoder_dbits_dend (hf : s.flt.err = none) (hd : s.decoding = true)
    (hc : s.dec.ocnt.toNat ≤ s.cfg.omemBytes.val) (bs : BitString) :
    RunsDecoder s (bs.map Instr.dbit ++ [.dend]) (dStepLast s.cfg s.table s.dec bs) := by
  have hrun : s.dec.dstate = .run := by
    simp only [State.decoding, Bool.and_eq_true, beq_iff_eq] at hd
    exact hd.1
  refine (runsDecoder_dbits hf hd hc bs).append (by simp [runsWhileFaulted]) fun d o h => ?_
  exact runsDecoder_dend (s := { s with dec := d, port := o }) hf
    (dStepAll_induct (P := fun d => d.dstate = .run) (fun _ _ _ h hr => (dStep_dstate h).trans hr) h hrun)

/-! ### The release in mode 1 -/

theorem endPayload_mode1 (hm : s.unpack.umode = true) : endPayload s =
    (dFinish s.dec).map (fun d => { s with unpack := { s.unpack with ustate := .done }, dec := d }) := by
  rcases endPayload_cases s with ⟨hn, -⟩ | ⟨-, hc, h⟩ | ⟨-, hc, h⟩
  · cases hm.symm.trans hn
  · rw [h, dFinish, if_pos hc]; rfl
  · rw [h, dFinish, if_neg hc]; rfl

/-- In mode 1 the end of a payload emits its last bits and ends the decode, unless the decoder stops it. -/
theorem closePayload_mode1 (hm : s.unpack.umode = true) (hi : UnpackInv s.unpack)
    (h0 : s.unpack.uholdv = false → s.unpack.upad = 0#3) :
    (releaseLast s).bind endPayload =
      (dStepLast s.cfg s.table s.dec s.unpack.lastBits).map (s.finished s.unpack.lastBits) := by
  rw [releaseLast_eq hi h0, uEmitAll_mode1 hm, dStepLast]
  rcases dStepAll s.cfg s.table s.dec s.unpack.lastBits with r | d
  · rfl
  · change endPayload _ = (dFinish d).map _
    rw [endPayload_mode1]
    · rfl
    · exact hm

/-- Settles O48: `DBIT` runs step the decoder as the release does, so the two complete or raise together. -/
theorem modeOneFeedsTheDecoder : Obligations.ModeOneFeedsTheDecoder := by
  refine ⟨fun s v hf hl hm hd hv hdec => ?_, fun s n hf hl hm hi hdec h0 h1 => ?_⟩
  · have released := uEmitAll_mode1 hm (byteBits s.unpack.uhold)
    obtain ⟨u, hu, ⟨he, hr⟩ | ⟨e, he, hr⟩⟩ :=
      (runsDecoder_dbits hf (decoding_of_checks hm hl) hdec.capacity (byteBits s.unpack.uhold)).ends hf
    · rw [hr] at released
      refine ⟨u, hu, fun _ => ⟨_, exec_ubyte_data hf hl hd hv released, ⟨rfl, rfl⟩, ?_, rfl, rfl, rfl, rfl, rfl⟩,
        fun e h => nomatch he.symm.trans h⟩
      simp [State.emitted, hv]
    · rw [hr] at released
      refine ⟨u, hu, fun h => (nomatch he.symm.trans h), fun e' h => ?_⟩
      obtain rfl := Option.some.inj (he.symm.trans h)
      exact raises_ubyte_data hf hl hd hv released
  · have hbits : (List.range n).map (fun j => s.unpack.uhold.getLsbD (7 - j)) = s.unpack.lastBits := by
      cases hv : s.unpack.uholdv
      · rw [(h0 hv).1, s.unpack.lastBits_of_not_held hv]; rfl
      · rw [h1 hv, s.unpack.lastBits_of_held hv]
    have hlen : s.unpack.lastBits.length = n := by simp [← hbits]
    rw [hbits]
    have closed := closePayload_mode1 hm hi fun hv => (h0 hv).2
    obtain ⟨u, hu, ⟨he, hr⟩ | ⟨e, he, hr⟩⟩ :=
      (runsDecoder_dbits_dend hf (decoding_of_checks hm hl) hdec.capacity s.unpack.lastBits).ends hf
    · rw [hr] at closed
      exact ⟨u, hu, fun _ => ⟨_, exec_uend hf hl closed, ⟨rfl, rfl⟩, State.finished_unpack u.dec hlen,
        rfl, rfl, rfl, rfl, rfl⟩, fun e h => nomatch he.symm.trans h⟩
    · rw [hr] at closed
      refine ⟨u, hu, fun h => (nomatch he.symm.trans h), fun e' h => ?_⟩
      obtain rfl := Option.some.inj (he.symm.trans h)
      exact raises_uend hf hl closed

end
end Sys2Proof.Machine
end

section
/-! The unpacker computes `Unpack` (R204): from a byte held on, what the commands still to come emit is `Unpack` of the
padding count, that byte and the bytes still to come. `Unpack` undoes `Pack` (R186). -/

namespace Sys2Proof.Machine

/-! ### `Unpack` -/

/-- A byte that is not the last is unpacked whole. -/
theorem unpackOf_cons_cons {pad : Byte} (hp : pad.toNat ≤ 7) (w v : Byte) (ps : List Byte) :
    unpackOf (pad :: w :: v :: ps) = byteBits w ++ unpackOf (pad :: v :: ps) := by
  have hn : 8 * (w :: v :: ps).length - pad.toNat = (byteBits w).length + (8 * (v :: ps).length - pad.toNat) := by
    simp only [List.length_cons, byteBits_length]
    omega
  rw [unpackOf, hn, List.flatMap_cons, List.take_length_add_append, unpackOf]

/-- Of the last byte the leading `8 - pad` bits are unpacked. -/
theorem unpackOf_last (pad w : Byte) : unpackOf [pad, w] = (byteBits w).take (8 - pad.toNat) := by
  simp [unpackOf]

/-! ### `Unpack` undoes `Pack` -/

theorem byteBits_byteOf (b0 b1 b2 b3 b4 b5 b6 b7 : Bool) :
    byteBits (byteOf b0 b1 b2 b3 b4 b5 b6 b7) = [b0, b1, b2, b3, b4, b5, b6, b7] := by
  decide +revert

theorem length_flatMap_byteBits (ps : List Byte) : (ps.flatMap byteBits).length = 8 * ps.length := by
  simp [List.length_flatMap, Nat.mul_comm]

/-- Chunking loses nothing but what fills no byte. -/
theorem flatMap_byteBits_chunks_prefix (u : BitString) : (chunks u).flatMap byteBits <+: u := by
  induction u using chunks.induct with
  | case1 b0 b1 b2 b3 b4 b5 b6 b7 u ih =>
    rw [chunks, List.flatMap_cons, byteBits_byteOf]
    exact (List.prefix_append_right_inj [b0, b1, b2, b3, b4, b5, b6, b7]).2 ih
  | case2 u hu =>
    rw [chunks]
    · exact List.nil_prefix
    · exact hu

theorem flatMap_byteBits_chunks {u : BitString} (h : 8 ∣ u.length) : (chunks u).flatMap byteBits = u := by
  refine (flatMap_byteBits_chunks_prefix u).eq_of_length ?_
  rw [length_flatMap_byteBits, chunks_eq_map_byteAt, List.length_map, List.length_range, Nat.mul_div_cancel' h]

theorem padOf_le (n : Nat) : padOf n ≤ 7 :=
  Nat.le_of_lt_succ (Nat.mod_lt _ (by decide))

/-- The invariant of the source that R204 quotes. -/
theorem unpackOf_payloadOf (u : BitString) : unpackOf (payloadOf u) = u := by
  have hpad : (BitVec.ofNat 8 (padOf u.length)).toNat = padOf u.length :=
    (BitVec.toNat_ofNat ..).trans (Nat.mod_eq_of_lt ((Nat.lt_succ_of_le (padOf_le _)).trans (by decide)))
  have hfull := flatMap_byteBits_chunks (u := u ++ List.replicate (padOf u.length) false) (by
    rw [List.length_append, List.length_replicate, padOf]
    omega)
  rw [payloadOf, unpackOf, hpad, ← length_flatMap_byteBits, hfull, List.length_append, List.length_replicate,
    Nat.add_sub_cancel]
  exact List.take_left

/-! ### Runs of `UBYTE` and `UEND` in mode 0 -/

/-- Between `s` and `t` the unpacker has emitted `bs` and ended its payload, and no other unit has changed. -/
structure Unpacked (s : State) (bs : BitString) (t : State) : Prop where
  ub : t.port.ub = s.port.ub ++ bs
  ustate : t.unpack.ustate = .done
  uholdv : t.unpack.uholdv = false
  ubitcnt : t.unpack.ubitcnt = s.unpack.ubitcnt + BitVec.ofNat 64 bs.length
  frame : OnlyUnpack s t

/-- Bits emitted before. -/
theorem Unpacked.after_emitted {s t : State} {as bs : BitString} {v : Byte}
    (h : Unpacked (((s.emitted as).hold v).respond .ok 0#64) bs t) : Unpacked s (as ++ bs) t where
  ub := h.ub.trans (List.append_assoc ..)
  ustate := h.ustate
  uholdv := h.uholdv
  ubitcnt := by
    rw [h.ubitcnt, List.length_append, BitVec.ofNat_add, ← BitVec.add_assoc]
    rfl
  frame := h.frame

/-- From a held byte to the end of the payload. -/
theorem runCommands_held {s : State} {pad : Byte} (hf : s.flt.err = none) (hm : s.unpack.umode = false)
    (hd : s.unpack.ustate = .data) (hv : s.unpack.uholdv = true) (hp : pad.toNat ≤ 7)
    (hpad : s.unpack.upad = pad.setWidth 3) (ps : List Byte) :
    ∃ t, runCommands (ps.map Instr.ubyte ++ [.uend]) s = .next t ∧
      Unpacked s (unpackOf (pad :: s.unpack.uhold :: ps)) t := by
  induction ps generalizing s with
  | nil =>
    have hbits : unpackOf [pad, s.unpack.uhold] = s.unpack.lastBits := by
      rw [unpackOf_last, Unpacker.lastBits, if_pos hv, hpad, upad_toNat hp]
    rw [hbits]
    exact ⟨_, runCommands_cons (exec_uend_held hf hm hd hv) [], rfl, rfl, rfl, rfl, rfl, rfl, rfl, rfl, rfl⟩
  | cons v ps ih =>
    have taken := exec_ubyte_data (v := v) hf (checks_of_mode0 hm (.inr hd)) hd hv (uEmitAll_mode0 hm _)
    rw [List.map_cons, List.cons_append, runCommands_cons taken, unpackOf_cons_cons hp]
    obtain ⟨t, ht, h⟩ :=
      ih (s := ((s.emitted (byteBits s.unpack.uhold)).hold v).respond .ok 0#64) hf hm hd rfl hpad
    exact ⟨t, ht, h.after_emitted⟩

theorem ubytes_refused (ps : List Byte) : ∀ i ∈ ps.map Instr.ubyte ++ [.uend], runsWhileFaulted i = false := by
  intro i hi
  rcases List.mem_append.1 hi with hi | hi
  · obtain ⟨v, -, rfl⟩ := List.mem_map.1 hi
    rfl
  · rw [List.mem_singleton.1 hi]
    rfl

section
variable {s : State}

/-- From the padding count to the end of the payload. -/
theorem runCommands_data {pad : Byte} {ps : List Byte} (hf : s.flt.err = none) (hm : s.unpack.umode = false)
    (hd : s.unpack.ustate = .data) (hv : s.unpack.uholdv = false) (hp : pad.toNat ≤ 7)
    (hpad : s.unpack.upad = pad.setWidth 3) (h0 : ps = [] → pad = 0#8) :
    ∃ t, runCommands (ps.map Instr.ubyte ++ [.uend]) s = .next t ∧ Unpacked s (unpackOf (pad :: ps)) t := by
  cases ps with
  | nil =>
    obtain rfl := h0 rfl
    refine ⟨_, runCommands_cons (exec_uend_nothing hf hm (.inr ⟨hd, hv, hpad⟩)) [], ?_⟩
    exact ⟨(List.append_nil _).symm, rfl, hv, (BitVec.add_zero _).symm, rfl, rfl, rfl, rfl, rfl⟩
  | cons w ps =>
    have first := exec_ubyte_first hf (checks_of_mode0 hm (.inr hd)) hd hv w
    obtain ⟨t, ht, h⟩ := runCommands_held (s := (s.hold w).respond .ok 0#64) hf hm hd rfl hp hpad ps
    exact ⟨t, (runCommands_cons first _).trans ht, h.ub, h.ustate, h.uholdv, h.ubitcnt, h.frame⟩

/-- A payload whose padding count its bytes allow is unpacked. -/
theorem runCommands_unpack {p : List Byte} (hf : s.flt.err = none) (hm : s.unpack.umode = false)
    (hu : s.unpack.ustate = .pad) (hv : s.unpack.uholdv = false)
    (hp : ∀ v, p.head? = some v → v.toNat ≤ 7 ∧ (p.length = 1 → v = 0#8)) :
    ∃ t, runCommands (p.map Instr.ubyte ++ [.uend]) s = .next t ∧ Unpacked s (unpackOf p) t := by
  cases p with
  | nil =>
    refine ⟨_, runCommands_cons (exec_uend_nothing hf hm (.inl hu)) [], ?_⟩
    exact ⟨(List.append_nil _).symm, rfl, hv, (BitVec.add_zero _).symm, rfl, rfl, rfl, rfl, rfl⟩
  | cons v ps =>
    obtain ⟨h7, h1⟩ := hp v rfl
    have taken := exec_ubyte_pad hf (checks_of_mode0 hm (.inl hu)) hu h7
    obtain ⟨t, ht, h⟩ := runCommands_data (ps := ps) (s := (s.padded v).respond .ok 0#64) hf hm rfl hv h7
      rfl (fun hn => h1 (by rw [hn]; rfl))
    exact ⟨t, (runCommands_cons taken _).trans ht, h.ub, h.ustate, h.uholdv, h.ubitcnt, h.frame⟩

/-- A padding count above 7, or one other than 0 with no data byte, ends in `E_PAD`. -/
theorem runCommands_bad_padding {v : Byte} {ps : List Byte} (hf : s.flt.err = none) (hm : s.unpack.umode = false)
    (hu : s.unpack.ustate = .pad) (hv : s.unpack.uholdv = false) (hp : 7 < v.toNat ∨ (ps = [] ∧ v ≠ 0#8)) :
    ∃ t, runCommands ((v :: ps).map Instr.ubyte ++ [.uend]) s = .next t ∧ t.flt.err = some .pad := by
  have hl := checks_of_mode0 hm (.inl hu)
  rcases Nat.lt_or_ge 7 v.toNat with h7 | h7
  · exact (raises_ubyte_pad hf hl hu h7).runCommands (ubytes_refused ps)
  · obtain ⟨rfl, h0⟩ := hp.resolve_left (Nat.not_lt.2 h7)
    have hpad : v.setWidth 3 ≠ 0#3 := fun h =>
      h0 (BitVec.eq_of_toNat_eq ((upad_toNat h7).symm.trans (by rw [h]; rfl)))
    have raised := raises_uend_pad (s := (s.padded v).respond .ok 0#64) hf
      (checks_of_mode0 hm (.inr rfl)) rfl hv hpad
    obtain ⟨t, ht, he⟩ := raised.runCommands (is := []) nofun
    exact ⟨t, (runCommands_cons (exec_ubyte_pad hf hl hu h7) _).trans ht, he⟩

end

/-- Settles O49: after `UINIT 0` a payload is unpacked or its padding count is refused; `Unpack` undoes `Pack` by
`unpackOf_payloadOf`. -/
theorem unpackerComputesUnpack : Obligations.UnpackerComputesUnpack := by
  refine ⟨fun s p hf => ?_, fun u => ⟨unpackOf_payloadOf u, padOf_le _⟩⟩
  have started := exec_uinit (m := false) hf (.inl rfl)
  rw [runCommands_cons started]
  by_cases hbad : ∃ v, p.head? = some v ∧ (7 < v.toNat ∨ (p.length = 1 ∧ v ≠ 0#8))
  · obtain ⟨v, hh, hv⟩ := hbad
    obtain ⟨ps, rfl⟩ := List.head?_eq_some_iff.1 hh
    have hbad : 7 < v.toNat ∨ (ps = [] ∧ v ≠ 0#8) := by simpa using hv
    obtain ⟨t, ht, he⟩ := runCommands_bad_padding (s := (s.unpacking false).respond .ok 0#64) hf rfl rfl rfl hbad
    refine ⟨t, ht, fun _ => he, fun hgood => ?_⟩
    obtain ⟨h7, h0⟩ := hgood v rfl
    exact absurd hv (not_or.2 ⟨Nat.not_lt.2 h7, fun ⟨h1, hne⟩ => hne (h0 h1)⟩)
  · have hgood : ∀ v, p.head? = some v → v.toNat ≤ 7 ∧ (p.length = 1 → v = 0#8) := by
      intro v hh
      exact ⟨Nat.le_of_not_lt fun h => hbad ⟨v, hh, .inl h⟩,
        fun h1 => by_contra fun h0 => hbad ⟨v, hh, .inr ⟨h1, h0⟩⟩⟩
    obtain ⟨t, ht, h⟩ := runCommands_unpack (s := (s.unpacking false).respond .ok 0#64) hf rfl rfl rfl hgood
    exact ⟨t, ht, fun h => absurd h hbad, fun _ => ⟨h.ub, h.ustate, h.uholdv, h.ubitcnt.trans (BitVec.zero_add _),
      h.frame⟩⟩

end Sys2Proof.Machine
end

section
/-! The Decoder commands (R220 to R226): for each, its faults in the order of its checks (R254) and its effect on an
engine that is not faulted. What `D_STEP` does is told by the candidate it forms: a code, the beginning of one, or
neither. -/

namespace Sys2Proof.Machine

section
variable {s : State} {c : Config} {g : CodeTable} {d : Decoder} {b : Bool} {x : Symbol}

/-! ### `DINIT` -/

/-- `DINIT` without a valid table (R220). -/
theorem raises_dinit (hf : s.flt.err = none) (hv : s.table.ctValid = false) : Raises .dinit s .seq := by
  refine raises_of_rule (fun _ => rfl) hf ?_
  exact if_neg (Bool.eq_false_iff.1 hv)

/-- `DINIT` with a valid table, in every decoder state (R220). -/
theorem exec_dinit (hf : s.flt.err = none) (hv : s.table.ctValid = true) :
    exec .dinit s = .next ({ s with dec := s.dec.start }.respond .ok 0#64) := by
  refine exec_of_rule_ok (fun _ => rfl) hf ?_
  exact if_pos hv

/-- Settles O50: the two ends of `DINIT`. -/
theorem dinitStartsADecode : Obligations.DinitStartsADecode :=
  ⟨rfl, fun _ hf hv => raises_dinit hf hv, fun _ hf hv => ⟨_, exec_dinit hf hv, ⟨rfl, rfl⟩, rfl, rfl, rfl,
    fun _ => rfl, rfl, rfl, rfl, rfl, rfl⟩⟩

/-! ### `D_STEP`, by the candidate it forms -/

theorem dStep_full (hx : g.symbolOf (d.dcand ++ [b]) = some x) (hc : d.ocnt.toNat = c.omemBytes.val) :
    dStep c g d b = .error (.raise .ovf) := by
  simp [dStep, hx, hc, raise]

theorem dStep_emits (hx : g.symbolOf (d.dcand ++ [b]) = some x) (hc : d.ocnt.toNat < c.omemBytes.val) :
    dStep c g d b = .ok { d with omem := d.omem.write d.ocnt.toNat x, ocnt := d.ocnt + 1#33, dcand := [] } := by
  simp [dStep, hx, hc.ne, storeByte_ok hc]

theorem dStep_extends (hn : g.symbolOf (d.dcand ++ [b]) = none) (he : g.extendable (d.dcand ++ [b]) = true) :
    dStep c g d b = .ok { d with dcand := d.dcand ++ [b] } := by
  simp [dStep, hn, he]

theorem dStep_fails (hn : g.symbolOf (d.dcand ++ [b]) = none) (he : g.extendable (d.dcand ++ [b]) = false) :
    dStep c g d b = .error (.raise .trunc) := by
  simp [dStep, hn, he, raise]

/-- Where no live code begins another, a bit-string that goes on to a code is not itself a code. -/
theorem PrefixFree.symbolOf_eq_none (hp : PrefixFree g) {u : BitString} (hv : (g.entry x).v = true)
    (hu : u <+: (g.entry x).code) (hne : (g.entry x).code ≠ u) : g.symbolOf u = none := by
  refine symbolOf_none.2 fun y vy hy => hne ?_
  rw [← hp.eq_of_prefix vy hv (hy ▸ hu) List.prefix_rfl]
  exact hy

/-- No search finds anything exactly where no live code begins with the bit-string. -/
theorem searches_fail_iff {u : BitString} : (g.symbolOf u = none ∧ g.extendable u = false) ↔
    ∀ x, (g.entry x).v = true → ¬ u <+: (g.entry x).code := by
  rw [symbolOf_none, ← Bool.not_eq_true, extendable_iff]
  constructor
  · rintro ⟨hn, he⟩ x hv hu
    exact he ⟨x, hv, hu, fun e => hn x hv e.symm⟩
  · intro h
    exact ⟨fun x hv e => h x hv (e ▸ List.prefix_rfl), fun ⟨x, hv, hu, _⟩ => h x hv hu⟩

/-! ### `DBIT` -/

theorem encode_dbit (b : Bool) : encode (.dbit b) = 0x44#8 ++ 0#39 ++ BitVec.ofBool b := by
  cases b <;> rfl

theorem State.decoding_iff (s : State) : s.decoding = true ↔ s.dec.dstate = .run ∧ s.table.ctValid = true := by
  simp [State.decoding]

/-- `DBIT b` while the decoder cannot take a bit (R221). -/
theorem raises_dbit_seq (hf : s.flt.err = none) (h : s.dec.dstate ≠ .run ∨ s.table.ctValid = false) (b : Bool) :
    Raises (.dbit b) s .seq := by
  refine raises_of_rule (fun _ => rfl) hf ?_
  exact if_neg fun hd => h.elim (· (s.decoding_iff.1 hd).1) (Bool.eq_false_iff.1 · (s.decoding_iff.1 hd).2)

/-- Settles O51: the ends of `D_STEP` on a decoder that can take a bit. -/
theorem dbitStepsTheDecoder : Obligations.DbitStepsTheDecoder := by
  refine ⟨encode_dbit, fun s b hf h => raises_dbit_seq hf h b, fun s b x hf hr hv hp vx hx hc => ?_,
    fun s b x hf hr hv hp vx hx hc => ?_, fun s b x hf hr hv hp vx hx hne => ?_, fun s b hf hr hv h => ?_⟩
  · exact raises_dbit hf (s.decoding_iff.2 ⟨hr, hv⟩) (dStep_full (hx ▸ symbolOf_eq hp vx) hc)
  · exact ⟨_, exec_dbit hf (s.decoding_iff.2 ⟨hr, hv⟩) (dStep_emits (hx ▸ symbolOf_eq hp vx) hc), ⟨rfl, rfl⟩,
      s.dec.omem.read_write_self .., fun _ ha => (s.dec.omem.read_write ..).trans (if_neg ha), ocnt_succ hc, rfl, hr,
      rfl, rfl, rfl, rfl, rfl⟩
  · have he := extendable_iff.2 ⟨x, vx, hx, hne.symm⟩
    refine ⟨_, exec_dbit hf (s.decoding_iff.2 ⟨hr, hv⟩) (dStep_extends (hp.symbolOf_eq_none vx hx hne) he),
      ⟨rfl, rfl⟩, rfl, fun hi => ?_, rfl, rfl, rfl, rfl, rfl⟩
    have hlt := Nat.lt_of_le_of_ne hx.length_le fun e => hne (hx.eq_of_length e).symm
    exact Nat.le_of_lt_succ (hlt.trans_le (hi.lengths x vx).2)
  · obtain ⟨hn, he⟩ := searches_fail_iff.2 h
    exact raises_dbit hf (s.decoding_iff.2 ⟨hr, hv⟩) (dStep_fails hn he)

/-! ### `DEND` -/

/-- `DEND` while no decode runs (R223). -/
theorem raises_dend_seq (hf : s.flt.err = none) (hr : s.dec.dstate ≠ .run) : Raises .dend s .seq := by
  refine raises_of_rule (fun _ => rfl) hf ?_
  exact if_neg hr

theorem dFinish_empty (h : d.dcand = []) : dFinish d = .ok { d with dstate := .done } := if_pos h

theorem dFinish_residual (h : d.dcand ≠ []) : dFinish d = .error (.raise .trunc) := if_neg h

/-- Settles O52: the two ends of `D_FINISH` on a decoder that runs. -/
theorem dendFinishesTheDecode : Obligations.DendFinishesTheDecode :=
  ⟨rfl, fun _ hf hr => raises_dend_seq hf hr, fun _ hf hr hc => raises_dend hf hr (dFinish_residual hc),
    fun _ hf hr hc => ⟨_, exec_dend hf hr (dFinish_empty hc), ⟨rfl, rfl⟩, rfl, rfl, rfl, rfl, rfl, rfl⟩⟩

/-! ### `RDO` -/

/-- `RDO a` before the end of a decode (R225). -/
theorem raises_rdo_seq (hf : s.flt.err = none) (hd : s.dec.dstate ≠ .done) (a : BitVec 32) :
    Raises (.rdo a) s .seq := by
  refine raises_of_rule (fun _ => rfl) hf ?_
  exact if_neg hd

/-- `RDO a` beyond the output (R225). -/
theorem raises_rdo_range {a : BitVec 32} (hf : s.flt.err = none) (hd : s.dec.dstate = .done)
    (ha : s.dec.ocnt.toNat ≤ a.toNat) : Raises (.rdo a) s .range := by
  refine raises_of_rule (fun _ => rfl) hf ?_
  exact (if_pos hd).trans (if_pos ha)

/-- `RDO a` of a byte of the output (R225). -/
theorem exec_rdo {a : BitVec 32} {v : Byte} (hf : s.flt.err = none) (hd : s.dec.dstate = .done)
    (ha : a.toNat < s.dec.ocnt.toNat) (hv : s.dec.omem.read a.toNat = some v) :
    exec (.rdo a) s = .next (s.respond .ok (v.setWidth 64)) := by
  refine exec_of_rule_ok (fun _ => rfl) hf ?_
  simp [hd, Nat.not_le.2 ha, loadByte_ok hv]

/-- A decoder that does not run is fed nothing: in mode 1 a link holds only while it runs (R202, R203). -/
theorem Feeds.of_not_running {bs : BitString} (hd : Feeds s bs d) (hl : s.linked = true) (hr : s.dec.dstate ≠ .run) :
    s.unpack.umode = false ∧ d = s.dec := by
  rcases hd with h | ⟨hm, -⟩
  · exact h
  · rw [State.linked, hm] at hl
    exact absurd (s.decoding_iff.1 hl).1 hr

/-- The output stays until `DINIT`, `UINIT 1` or `CLR` (R225, R66). -/
theorem Effect.dec_of_done {i : Instr} {u : State} (he : Effect i s u) (hd : s.dec.dstate = .done) (hi : i ≠ .dinit)
    (hm : i ≠ .uinit true) (hc : i ≠ .clr) : u.dec = s.dec := by
  have hr : s.dec.dstate ≠ .run := by simp [hd]
  cases he with
  | dinit => exact absurd rfl hi
  | clr => exact absurd rfl hc
  | uinit m =>
    cases m
    · rfl
    · exact absurd rfl hm
  | ubyteData _ hl _ hfeed => exact (hfeed.of_not_running hl hr).2
  | uend _ hl hfeed _ hend =>
    obtain ⟨h0, rfl⟩ := hfeed.of_not_running hl hr
    rcases hend with ⟨-, rfl⟩ | ⟨h1, -⟩
    · rfl
    · cases h0.symm.trans h1
  | dbit hrun => exact absurd (s.decoding_iff.1 hrun).1 hr
  | dend hrun => exact absurd hrun hr
  | _ => rfl

/-- Settles O53: the ends of `RDO`, whose byte is written by `DecInv`; the frame is `Effect.dec_of_done`. -/
theorem rdoReadsTheOutput : Obligations.RdoReadsTheOutput := by
  refine ⟨fun _ => rfl, fun s a hf hd => raises_rdo_seq hf hd a, fun s a hf hd ha => raises_rdo_range hf hd ha,
    fun s a hf hd ha hi => ?_, fun s i t h hd hi hm hc => ?_⟩
  · obtain ⟨v, hv⟩ := Option.isSome_iff_exists.1 (hi.written a.toNat ha)
    exact ⟨_, v, hv, exec_rdo hf hd ha hv, ⟨rfl, rfl⟩, unchanged_respond ..⟩
  · rcases exec_cases h with ⟨-, rfl⟩ | ⟨-, e, rfl⟩ | ⟨u, d, hu, rfl⟩
    · rfl
    · rfl
    · exact hu.dec_of_done hd hi hm hc

/-! ### `DBIT` on the table of a tree -/

/-- The codes of a tree are paths to leaves, and no path goes on below a leaf. -/
theorem TableOfTree.prefixFree {t : TreeBuilder} (h : TableOfTree g t) : PrefixFree g := fun x y hxy vx vy hp =>
  hxy (TreeBuilder.eq_of_path_prefix ((h x _).1 ⟨vx, rfl⟩) ((h y _).1 ⟨vy, rfl⟩) hp)

/-- A path that reaches a leaf is the code of that leaf's Symbol. -/
theorem TableOfTree.symbolOf_path {t : TreeBuilder} (h : TableOfTree g t) {m : NodeIdx} (hm : m.toNat < 256)
    {u : BitString} (hu : t.follow t.root u = some m) : g.symbolOf u = some (m.setWidth 8) := by
  obtain ⟨hv, rfl⟩ := (h (m.setWidth 8) u).2 (by rw [hu, leafIdx_setWidth hm])
  exact symbolOf_eq h.prefixFree hv

/-- A path that reaches an internal node goes on to a leaf, so it begins that leaf's code and is none itself. -/
theorem TableOfTree.path_extends {t : TreeBuilder} (h : TableOfTree g t) (ht : t.IsTree) {m : NodeIdx}
    (hm : 256 ≤ m.toNat) {u : BitString} (hu : t.follow t.root u = some m) :
    g.symbolOf u = none ∧ g.extendable u = true := by
  obtain ⟨hlive, -, -⟩ := ht.descends.follow_live ht.rootAt.1 hu
  obtain ⟨e, x, hx, he⟩ := ht.descends.leaf_below 512 m.isLt hlive
  obtain ⟨hv, hcode⟩ := (h x (u ++ e)).2 (by rw [TreeBuilder.follow_append, hu, Option.bind_some, hx])
  have hpre : u <+: (g.entry x).code := hcode ▸ List.prefix_append u e
  have hne : (g.entry x).code ≠ u := by rw [hcode]; simpa using he hm
  exact ⟨h.prefixFree.symbolOf_eq_none hv hpre hne, extendable_iff.2 ⟨x, hv, hpre, hne.symm⟩⟩

/-- Settles O55: the candidate with the new bit is the path to the child; a leaf completes it, an internal node extends
it. -/
theorem decoderWalksTheTree : Obligations.DecoderWalksTheTree := by
  intro s b n hf hv hr ht _ htab hn h256 hroom
  have hpath : s.tree.follow s.tree.root (s.dec.dcand ++ [b]) =
      some (if b then (s.tree.nodeAt n).r else (s.tree.nodeAt n).l) := by
    rw [TreeBuilder.follow_append, hn, Option.bind_some, TreeBuilder.follow_cons h256, TreeBuilder.follow_nil]
  generalize (if b then (s.tree.nodeAt n).r else (s.tree.nodeAt n).l) = m at hpath
  have hd := s.decoding_iff.2 ⟨hr, hv⟩
  rcases Nat.lt_or_ge m.toNat 256 with hl | hi
  · exact ⟨_, m, rfl, exec_dbit hf hd (dStep_emits (htab.symbolOf_path hl hpath) hroom), ⟨rfl, rfl⟩,
      ⟨rfl, rfl, rfl, rfl, rfl⟩, fun _ => ⟨rfl, ocnt_succ hroom, s.dec.omem.read_write_self ..⟩,
      fun h => absurd hl (Nat.not_lt.2 h)⟩
  · obtain ⟨hnone, hext⟩ := htab.path_extends ht hi hpath
    exact ⟨_, m, rfl, exec_dbit hf hd (dStep_extends hnone hext), ⟨rfl, rfl⟩,
      ⟨rfl, rfl, rfl, rfl, rfl⟩, fun h => absurd h (Nat.not_lt.2 hi), fun _ => ⟨rfl, hpath⟩⟩

end
end Sys2Proof.Machine
end

section
/-! The decoder factors a bit-string into codes (R227). The bits it has taken since its start are the codes of the
Symbols it has emitted, followed by its candidate; where no live code begins another this can be done in one way only,
so a bit after which the candidate begins no code leaves the bits without any factorisation. -/

namespace Sys2Proof.Machine

section
variable {g : CodeTable} {u v : BitString} {xs ys : List Symbol}

/-! ### Concatenations of codes -/

/-- Every Symbol of an input has a code. -/
def CodeTable.Encodes (g : CodeTable) (xs : List Symbol) : Prop := ∀ x ∈ xs, (g.entry x).v = true

/-- What makes the live codes decodable: none begins another, and none is empty (R30, R31). -/
structure PrefixCode (g : CodeTable) : Prop where
  prefixFree : PrefixFree g
  nonempty : ∀ x, (g.entry x).v = true → (g.entry x).code ≠ []

theorem TableInv.prefixCode (h : TableInv g) (hv : g.ctValid = true) : PrefixCode g where
  prefixFree := h.prefixFree hv
  nonempty x hx := List.length_pos_iff.1 (h.lengths x hx).1

theorem codesOf_cons (g : CodeTable) (x : Symbol) (xs : List Symbol) :
    codesOf g (x :: xs) = (g.entry x).code ++ codesOf g xs := List.flatMap_cons

theorem codesOf_concat (g : CodeTable) (xs : List Symbol) (x : Symbol) :
    codesOf g (xs ++ [x]) = codesOf g xs ++ (g.entry x).code := by
  rw [codesOf, List.flatMap_append, List.flatMap_singleton, codesOf]

theorem CodeTable.Encodes.concat (h : g.Encodes xs) {x : Symbol} (hx : (g.entry x).v = true) :
    g.Encodes (xs ++ [x]) := by
  intro y hy
  rcases List.mem_append.1 hy with hy | hy
  · exact h y hy
  · exact List.mem_singleton.1 hy ▸ hx

/-- A concatenation of codes that begins another is one of its first Symbols: the codes are read off one by one. -/
theorem PrefixCode.codesOf_prefix (hp : PrefixCode g) (hx : g.Encodes xs) (hy : g.Encodes ys)
    (h : codesOf g xs ++ v = codesOf g ys) : ∃ zs, ys = xs ++ zs ∧ codesOf g zs = v := by
  induction xs generalizing ys with
  | nil => exact ⟨ys, rfl, h.symm⟩
  | cons x xs ih =>
    obtain ⟨vx, hxs⟩ := List.forall_mem_cons.1 hx
    rw [codesOf_cons, List.append_assoc] at h
    cases ys with
    | nil => exact absurd (List.append_eq_nil_iff.1 h).1 (hp.nonempty x vx)
    | cons y ys =>
      obtain ⟨vy, hys⟩ := List.forall_mem_cons.1 hy
      rw [codesOf_cons] at h
      obtain rfl := hp.prefixFree.eq_of_prefix vx vy ⟨_, h⟩ (List.prefix_append ..)
      obtain ⟨zs, rfl, hz⟩ := ih hxs hys (List.append_cancel_left h)
      exact ⟨zs, rfl, hz⟩

/-- Only the empty input has no code bits. -/
theorem PrefixCode.eq_nil_of_codesOf (hp : PrefixCode g) (hx : g.Encodes xs) (h : codesOf g xs = []) : xs = [] := by
  cases xs with
  | nil => rfl
  | cons x xs => exact absurd (List.append_eq_nil_iff.1 h).1 (hp.nonempty x (hx x List.mem_cons_self))

/-- A bit-string factors into codes in at most one way (R227). -/
theorem PrefixCode.codesOf_injective (hp : PrefixCode g) (hx : g.Encodes xs) (hy : g.Encodes ys)
    (h : codesOf g xs = codesOf g ys) : xs = ys := by
  obtain ⟨zs, rfl, hz⟩ := hp.codesOf_prefix hx hy ((List.append_nil _).trans h)
  rw [hp.eq_nil_of_codesOf (fun z hz => hy z (List.mem_append_right xs hz)) hz, List.append_nil]

theorem PrefixCode.length_le (hp : PrefixCode g) (hx : g.Encodes xs) : xs.length ≤ (codesOf g xs).length := by
  induction xs with
  | nil => exact Nat.zero_le _
  | cons x xs ih =>
    obtain ⟨vx, hxs⟩ := List.forall_mem_cons.1 hx
    have := List.length_pos_iff.2 (hp.nonempty x vx)
    have := ih hxs
    rw [codesOf_cons, List.length_append, List.length_cons]
    omega

/-! ### What the decoder has read -/

/-- Some extension of `u` factors into codes. -/
def BeginsCodes (g : CodeTable) (u : BitString) : Prop := ∃ w xs, g.Encodes xs ∧ u ++ w = codesOf g xs

/-- `OMEM` has room for the Symbols of all codes that `u` completes. -/
def Fits (c : Config) (g : CodeTable) (u : BitString) : Prop :=
  ∀ ys, g.Encodes ys → codesOf g ys <+: u → ys.length ≤ c.omemBytes.val

/-- The output of `d` is `xs`. -/
structure Outputs (d : Decoder) (xs : List Symbol) : Prop where
  ocnt : d.ocnt.toNat = xs.length
  omem : ∀ k x, xs[k]? = some x → d.omem.read k = some x

/-- The decoder `d`, running, has taken exactly the bits `u` since its start: the codes of its output `xs`, and after
them its candidate, which begins a code. -/
structure Decoded (g : CodeTable) (u : BitString) (xs : List Symbol) (d : Decoder) : Prop where
  dstate : d.dstate = .run
  encodes : g.Encodes xs
  bits : u = codesOf g xs ++ d.dcand
  pending : d.dcand = [] ∨ g.extendable d.dcand = true
  output : Outputs d xs

variable {c : Config} {d : Decoder} {b : Bool}

theorem Decoded.start (g : CodeTable) (d : Decoder) : Decoded g [] [] d.start where
  dstate := rfl
  encodes := nofun
  bits := rfl
  pending := .inl rfl
  output := ⟨rfl, nofun⟩

/-- One more byte stored at `OMEM[OCNT]` (R222). -/
theorem Outputs.emit (h : Outputs d xs) (hr : d.ocnt.toNat < c.omemBytes.val) (x : Symbol) :
    Outputs { d with omem := d.omem.write d.ocnt.toNat x, ocnt := d.ocnt + 1#33, dcand := [] } (xs ++ [x]) where
  ocnt := by rw [List.length_append, ← h.ocnt]; exact ocnt_succ hr
  omem k y hk := by
    rw [Memory.read_write, h.ocnt]
    rcases Nat.lt_trichotomy k xs.length with hlt | rfl | hgt
    · rw [if_neg hlt.ne]
      exact h.omem k y (by rwa [List.getElem?_append_left hlt] at hk)
    · simpa using hk
    · rw [List.getElem?_append_right hgt.le, List.getElem?_eq_none (by simp; omega)] at hk
      cases hk

/-- No code is contained in the candidate: it would have been emitted. -/
theorem Decoded.not_code_prefix (hp : PrefixCode g) (h : Decoded g u xs d) {z : Symbol} (vz : (g.entry z).v = true) :
    ¬ (g.entry z).code <+: d.dcand := by
  intro hz
  rcases h.pending with hc | he
  · exact hp.nonempty z vz (List.prefix_nil.1 (hc ▸ hz))
  · obtain ⟨x, vx, hx, hne⟩ := extendable_iff.1 he
    obtain rfl := hp.prefixFree.eq_of_prefix vz vx (hz.trans hx) List.prefix_rfl
    exact hne (hx.eq_of_length_le hz.length_le)

/-- A candidate that begins a code can be completed. -/
theorem Decoded.beginsCodes (h : Decoded g u xs d) : BeginsCodes g u := by
  rcases h.pending with hc | he
  · exact ⟨[], xs, h.encodes, by rw [h.bits, hc, List.append_nil, List.append_nil]⟩
  · obtain ⟨x, vx, ⟨w, hw⟩, -⟩ := extendable_iff.1 he
    exact ⟨w, xs ++ [x], h.encodes.concat vx, by rw [h.bits, List.append_assoc, hw, codesOf_concat]⟩

/-- Where the new candidate begins no code, no extension of the bits factors: the codes emitted are forced, and after
them every code either is contained in the candidate or begins with the new one. -/
theorem Decoded.not_beginsCodes (hp : PrefixCode g) (h : Decoded g u xs d)
    (hb : ∀ x, (g.entry x).v = true → ¬ d.dcand ++ [b] <+: (g.entry x).code) : ¬ BeginsCodes g (u ++ [b]) := by
  rintro ⟨w, ys, hy, hw⟩
  rw [h.bits, List.append_assoc, List.append_assoc] at hw
  obtain ⟨zs, rfl, hz⟩ := hp.codesOf_prefix h.encodes hy hw
  cases zs with
  | nil => simp [codesOf] at hz
  | cons z zs =>
    have vz := hy z (List.mem_append_right xs List.mem_cons_self)
    rw [codesOf_cons, ← List.append_assoc] at hz
    rcases List.prefix_or_prefix_of_prefix ⟨_, hz⟩ (List.prefix_append (d.dcand ++ [b]) w) with hpre | hpre
    · rcases List.prefix_concat_iff.1 hpre with heq | hpre
      · exact hb z vz (heq ▸ List.prefix_rfl)
      · exact h.not_code_prefix hp vz hpre
    · exact hb z vz hpre

/-- One bit (R222): the decoder has then read it as well, or it faults and the bits have no factorisation. -/
theorem Decoded.dStep (hp : PrefixCode g) (h : Decoded g u xs d) (hr : Fits c g (u ++ [b])) :
    (∃ ys e, dStep c g d b = .ok e ∧ Decoded g (u ++ [b]) ys e) ∨
    (dStep c g d b = .error (.raise .trunc) ∧ ¬ BeginsCodes g (u ++ [b])) := by
  have hbits : u ++ [b] = codesOf g xs ++ (d.dcand ++ [b]) := by rw [h.bits, List.append_assoc]
  rcases hs : g.symbolOf (d.dcand ++ [b]) with _ | x
  · cases he : g.extendable (d.dcand ++ [b])
    · exact .inr ⟨dStep_fails hs he, h.not_beginsCodes hp (searches_fail_iff.1 ⟨hs, he⟩)⟩
    · exact .inl ⟨xs, _, dStep_extends hs he, h.dstate, h.encodes, hbits, .inr he, ⟨h.output.ocnt, h.output.omem⟩⟩
  · obtain ⟨vx, hx⟩ := symbolOf_some hs
    have hcodes : u ++ [b] = codesOf g (xs ++ [x]) := by rw [hbits, codesOf_concat, hx]
    have hroom : d.ocnt.toNat < c.omemBytes.val := by
      have := hr _ (h.encodes.concat vx) (hcodes ▸ List.prefix_rfl)
      rw [List.length_append] at this
      rw [h.output.ocnt]
      exact this
    exact .inl ⟨xs ++ [x], _, dStep_emits hs hroom, h.dstate, h.encodes.concat vx,
      hcodes.trans (List.append_nil _).symm, .inl rfl, h.output.emit hroom x⟩

/-- Bits one after another. -/
theorem Decoded.dStepAll (hp : PrefixCode g) {bs : BitString} (h : Decoded g u xs d) (hr : Fits c g (u ++ bs)) :
    (∃ ys e, dStepAll c g d bs = .ok e ∧ Decoded g (u ++ bs) ys e) ∨
    (dStepAll c g d bs = .error (.raise .trunc) ∧ ¬ BeginsCodes g (u ++ bs)) := by
  induction bs generalizing u xs d with
  | nil => exact .inl ⟨xs, d, rfl, by rwa [List.append_nil]⟩
  | cons b bs ih =>
    rw [List.append_cons] at hr ⊢
    rw [dStepAll_cons]
    rcases h.dStep hp (fun ys hy hpre => hr ys hy (hpre.trans (List.prefix_append ..))) with
      ⟨ys, e, he, h'⟩ | ⟨he, hno⟩ <;> rw [he]
    · exact ih h' hr
    · refine .inr ⟨rfl, fun ⟨w, ys, hy, hw⟩ => hno ⟨bs ++ w, ys, hy, ?_⟩⟩
      rwa [← List.append_assoc]

/-- A decode from its start: the bits are read, or they begin no concatenation of codes. -/
theorem PrefixCode.dStepAll_start (hp : PrefixCode g) (hr : Fits c g u) (d : Decoder) :
    (∃ ys e, dStepAll c g d.start u = .ok e ∧ Decoded g u ys e) ∨
    (dStepAll c g d.start u = .error (.raise .trunc) ∧ ¬ BeginsCodes g u) :=
  (Decoded.start g d).dStepAll hp hr

/-! ### Room in `OMEM` -/

theorem PrefixCode.fits_of_length (hp : PrefixCode g) (h : u.length ≤ c.omemBytes.val) : Fits c g u :=
  fun _ hy hpre => (hp.length_le hy).trans (hpre.length_le.trans h)

theorem PrefixCode.fits_codesOf (hp : PrefixCode g) (hx : g.Encodes xs) (h : xs.length ≤ c.omemBytes.val) :
    Fits c g (codesOf g xs) := by
  rintro ys hy ⟨w, hw⟩
  obtain ⟨zs, rfl, -⟩ := hp.codesOf_prefix hy hx hw
  rw [List.length_append] at h
  omega

/-! ### The end of a decode -/

/-- A concatenation of codes has been read whole: its Symbols are the output, and no candidate is left. -/
theorem Decoded.of_codesOf (hp : PrefixCode g) (hx : g.Encodes xs) (h : Decoded g (codesOf g xs) ys d) :
    ys = xs ∧ d.dcand = [] := by
  obtain ⟨zs, rfl, hz⟩ := hp.codesOf_prefix h.encodes hx h.bits.symm
  cases zs with
  | nil => exact ⟨(List.append_nil _).symm, hz.symm⟩
  | cons z zs =>
    rw [codesOf_cons] at hz
    exact absurd ⟨_, hz⟩ (h.not_code_prefix hp (hx z (List.mem_append_right ys List.mem_cons_self)))

/-- A concatenation of codes decodes to its Symbols (R227). -/
theorem PrefixCode.dStepLast_codesOf (hp : PrefixCode g) (hx : g.Encodes xs) (hr : xs.length ≤ c.omemBytes.val)
    (d : Decoder) : ∃ e, dStepLast c g d.start (codesOf g xs) = .ok e ∧ e.dstate = .done ∧ Outputs e xs := by
  rcases hp.dStepAll_start (hp.fits_codesOf hx hr) d with ⟨ys, e, he, h⟩ | ⟨-, hno⟩
  · obtain ⟨rfl, hc⟩ := h.of_codesOf hp hx
    refine ⟨{ e with dstate := .done }, ?_, rfl, h.output.ocnt, h.output.omem⟩
    rw [dStepLast, he]
    exact dFinish_empty hc
  · exact absurd ⟨[], xs, hx, List.append_nil _⟩ hno

/-- A bit-string that is no concatenation of codes faults with `E_TRUNC`, at the latest at its end (R227). -/
theorem PrefixCode.dStepLast_trunc (hp : PrefixCode g) (hr : Fits c g u) (hu : ¬ ∃ xs, g.Encodes xs ∧ u = codesOf g xs)
    (d : Decoder) : dStepLast c g d.start u = .error (.raise .trunc) := by
  rw [dStepLast]
  rcases hp.dStepAll_start hr d with ⟨ys, e, he, h⟩ | ⟨he, -⟩ <;> rw [he]
  · refine dFinish_residual fun hc => hu ⟨ys, h.encodes, ?_⟩
    rw [h.bits, hc, List.append_nil]
  · rfl

end

/-- Settles O54: `DINIT`, `DBIT` and `DEND` step the decoder (`runsDecoder_dbits_dend`), and it reads the codes
(`Decoded.dStepAll`). -/
theorem decoderFactorsIntoCodes : Obligations.DecoderFactorsIntoCodes := by
  intro s hf hv hi
  have hp := hi.prefixCode hv
  have started := runCommands_cons (exec_dinit hf hv)
  have dbits := runsDecoder_dbits (s := { s with dec := s.dec.start }.respond .ok 0#64) hf
    ((State.decoding_iff _).2 ⟨rfl, hv⟩) (Nat.zero_le _)
  have last := runsDecoder_dbits_dend (s := { s with dec := s.dec.start }.respond .ok 0#64) hf
    ((State.decoding_iff _).2 ⟨rfl, hv⟩) (Nat.zero_le _)
  refine ⟨fun xs hx hr => ?_, fun xs ys hx hy => hp.codesOf_injective hx hy, fun u hu => ⟨?_, fun hno => ?_⟩⟩
  · obtain ⟨e, he, hdone, hout⟩ := hp.dStepLast_codesOf hx hr s.dec
    obtain ⟨o, ho⟩ := he ▸ last (codesOf s.table xs)
    exact ⟨_, (started _).trans ho, hf, hdone, hout.ocnt, hout.omem, rfl, rfl, rfl, rfl, rfl⟩
  · obtain ⟨t, ht, hend⟩ := (dbits u).ends hf
    refine ⟨t, (started _).trans ht, ?_⟩
    rcases hp.dStepAll_start (hp.fits_of_length hu) s.dec with ⟨ys, e, he, h⟩ | ⟨he, hno⟩
    · obtain ⟨hnone, -⟩ | ⟨e', -, hraise⟩ := hend
      · exact ⟨iff_of_true hnone h.beginsCodes, fun hne => absurd hnone hne⟩
      · cases he.symm.trans hraise
    · obtain ⟨-, hok⟩ | ⟨e', hsome, hraise⟩ := hend
      · cases he.symm.trans hok
      · cases he.symm.trans hraise
        exact ⟨iff_of_false (by simp [hsome]) hno, fun _ => hsome⟩
  · obtain ⟨t, ht, htrunc⟩ := hp.dStepLast_trunc (hp.fits_of_length hu) hno s.dec ▸ last u
    exact ⟨t, (started _).trans ht, htrunc⟩

end Sys2Proof.Machine
end

section
/-! The round trip (R228). `FREQS`, `BUILD` and `GEN` leave a table in which every Symbol of the input has a code and no
code begins another; the packer publishes the payload of the concatenated codes (`runCommands_pack`); in mode 1 the
unpacker gives the decoder the bits of the payload, and the decoder reads the codes (`Decoded.dStepAll`). -/

namespace Sys2Proof.Machine

/-! ### Runs of `UBYTE` and `UEND` in mode 1 -/

section
variable {s : State} {c : Config} {g : CodeTable} {d e : Decoder}

/-- While the decoder can take a bit the link holds, in either mode (R202, R203). -/
theorem checks_of_decoding (hd : s.decoding = true) (h : s.unpack.ustate = .pad ∨ s.unpack.ustate = .data) :
    (s.unpack.taking && s.linked) = true := by
  rcases h with h | h
  · simp [Unpacker.taking, State.linked, hd, h]
  · simp [Unpacker.taking, State.linked, hd, h]

theorem dStepAll_append (as bs : BitString) :
    dStepAll c g d (as ++ bs) = (dStepAll c g d as).bind (fun d => dStepAll c g d bs) := by
  induction as generalizing d with
  | nil => rfl
  | cons a as ih =>
    rw [List.cons_append, dStepAll_cons, dStepAll_cons]
    rcases dStep c g d a with r | d'
    · rfl
    · exact ih

/-- A decode that ends has taken its first bits. -/
theorem dStepLast_append {as bs : BitString} (h : dStepLast c g d (as ++ bs) = .ok e) :
    ∃ d', dStepAll c g d as = .ok d' ∧ dStepLast c g d' bs = .ok e := by
  rw [dStepLast, dStepAll_append] at h
  rcases ha : dStepAll c g d as with r | d' <;> rw [ha] at h
  · cases h
  · exact ⟨d', rfl, h⟩

theorem dStepAll_dstate {bs : BitString} (h : dStepAll c g d bs = .ok e) : e.dstate = d.dstate :=
  dStepAll_induct (P := fun e => e.dstate = d.dstate) (fun _ _ _ he hd => (dStep_dstate he).trans hd) h rfl

/-- In mode 1 the end of a payload gives the decoder its last bits (R203). -/
theorem exec_uend_mode1 (hf : s.flt.err = none) (hm : s.unpack.umode = true) (hd : s.decoding = true)
    (hu : s.unpack.ustate = .pad ∨ s.unpack.ustate = .data) (hi : UnpackInv s.unpack)
    (h0 : s.unpack.uholdv = false → s.unpack.upad = 0#3)
    (h : dStepLast s.cfg s.table s.dec s.unpack.lastBits = .ok e) :
    exec .uend s = .next ((s.finished s.unpack.lastBits e).respond .ok 0#64) := by
  refine exec_uend hf (checks_of_decoding hd hu) ?_
  rw [closePayload_mode1 hm hi h0, h]
  rfl

/-- In `s` the data bytes of a payload with padding count `pad` are being decoded (mode 1): the decoder `d` runs on the
table `g` with the parameters `c`. -/
structure Receiving (pad : Byte) (c : Config) (g : CodeTable) (d : Decoder) (s : State) : Prop where
  flt : s.flt.err = none
  umode : s.unpack.umode = true
  ustate : s.unpack.ustate = .data
  upad : s.unpack.upad = pad.setWidth 3
  decoding : s.decoding = true
  cfg : s.cfg = c
  table : s.table = g
  dec : s.dec = d

section
variable {pad v w : Byte} {ps : List Byte}

/-- The payload ends, and with it the decode. -/
theorem Receiving.uend (h : Receiving pad c g d s) (h0 : s.unpack.uholdv = false → pad = 0#8)
    (hl : dStepLast c g d s.unpack.lastBits = .ok e) :
    ∃ z, runCommands [.uend] s = .next z ∧ z.dec = e ∧ z.flt.err = none := by
  obtain ⟨hf, hm, hu, hpad, hd, rfl, rfl, rfl⟩ := h
  have hzero : s.unpack.uholdv = false → s.unpack.upad = 0#3 := fun hv => by rw [hpad, h0 hv]; rfl
  exact ⟨_, runCommands_cons (exec_uend_mode1 hf hm hd (.inr hu) (fun _ => hu) hzero hl) [], rfl, hf⟩

/-- A data byte after another: the decoder takes the byte held (R202). -/
theorem Receiving.ubyte (h : Receiving pad c g d s) (hv : s.unpack.uholdv = true)
    (hd : dStepAll c g d (byteBits s.unpack.uhold) = .ok e) (v : Byte) : ∃ t, exec (.ubyte v) s = .next t ∧
      Receiving pad c g e t ∧ t.unpack.uholdv = true ∧ t.unpack.uhold = v := by
  obtain ⟨hf, hm, hu, hpad, hdec, rfl, rfl, rfl⟩ := h
  obtain ⟨hr, htab⟩ := s.decoding_iff.1 hdec
  have released : uEmitAll s (byteBits s.unpack.uhold) = .ok { s.emitted (byteBits s.unpack.uhold) with dec := e } := by
    rw [uEmitAll_mode1 hm, hd]
    rfl
  have hrun : e.dstate = .run := (dStepAll_dstate hd).trans hr
  exact ⟨_, exec_ubyte_data hf (checks_of_decoding hdec (.inr hu)) hu hv released,
    ⟨hf, hm, hu, hpad, (State.decoding_iff _).2 ⟨hrun, htab⟩, by simp, by simp, rfl⟩, rfl, rfl⟩

/-- From a held byte `w` to the end of the payload. -/
theorem Receiving.run_held (h : Receiving pad c g d s) (hv : s.unpack.uholdv = true) (hw : s.unpack.uhold = w)
    (hp : pad.toNat ≤ 7) (hl : dStepLast c g d (unpackOf (pad :: w :: ps)) = .ok e) :
    ∃ z, runCommands (ps.map Instr.ubyte ++ [.uend]) s = .next z ∧ z.dec = e ∧ z.flt.err = none := by
  induction ps generalizing s d w with
  | nil =>
    have hbits : unpackOf [pad, w] = s.unpack.lastBits := by
      rw [unpackOf_last, Unpacker.lastBits, if_pos hv, h.upad, upad_toNat hp, hw]
    rw [hbits] at hl
    exact h.uend (fun hn => by cases hv.symm.trans hn) hl
  | cons v ps ih =>
    rw [unpackOf_cons_cons hp] at hl
    obtain ⟨d', hd, hl⟩ := dStepLast_append hl
    obtain ⟨t, taken, ht, htv, htw⟩ := h.ubyte hv (hw ▸ hd) v
    rw [List.map_cons, List.cons_append, runCommands_cons taken]
    exact ih ht htv htw hl

/-- From the padding count to the end of the payload. -/
theorem Receiving.run (h : Receiving pad c g d s) (hv : s.unpack.uholdv = false) (hp : pad.toNat ≤ 7)
    (h0 : ps = [] → pad = 0#8) (hl : dStepLast c g d (unpackOf (pad :: ps)) = .ok e) :
    ∃ z, runCommands (ps.map Instr.ubyte ++ [.uend]) s = .next z ∧ z.dec = e ∧ z.flt.err = none := by
  cases ps with
  | nil =>
    have hbits : unpackOf [pad] = s.unpack.lastBits := by simp [unpackOf, s.unpack.lastBits_of_not_held hv]
    rw [hbits] at hl
    exact h.uend (fun _ => h0 rfl) hl
  | cons w ps =>
    have first := exec_ubyte_first h.flt (checks_of_decoding h.decoding (.inr h.ustate)) h.ustate hv w
    have held : Receiving pad c g d ((s.hold w).respond .ok 0#64) :=
      ⟨h.flt, h.umode, h.ustate, h.upad, h.decoding, h.cfg, h.table, h.dec⟩
    rw [List.map_cons, List.cons_append, runCommands_cons first]
    exact held.run_held rfl rfl hp hl

end

/-- `UINIT 1`, the bytes of a payload whose padding count they allow, and `UEND`: the decoder takes the bits of
`Unpack` from its start to its end (R201 to R204). -/
theorem runCommands_decode {p : List Byte} (hf : s.flt.err = none) (hv : s.table.ctValid = true)
    (hp : ∀ v, p.head? = some v → v.toNat ≤ 7 ∧ (p.length = 1 → v = 0#8))
    (h : dStepLast s.cfg s.table s.dec.start (unpackOf p) = .ok e) :
    ∃ z, runCommands (.uinit true :: (p.map Instr.ubyte ++ [.uend])) s = .next z ∧ z.dec = e ∧ z.flt.err = none := by
  have started := exec_uinit (m := true) hf (.inr hv)
  have hd : ((s.unpacking true).respond .ok 0#64).decoding = true := (State.decoding_iff _).2 ⟨rfl, hv⟩
  rw [runCommands_cons started]
  cases p with
  | nil =>
    exact ⟨_, runCommands_cons (exec_uend_mode1 (s := (s.unpacking true).respond .ok 0#64) hf rfl hd (.inl rfl) nofun
      (fun _ => rfl) h) [], rfl, hf⟩
  | cons pad ps =>
    obtain ⟨h7, h1⟩ := hp pad rfl
    have taken := exec_ubyte_pad (s := (s.unpacking true).respond .ok 0#64) hf (checks_of_decoding hd (.inl rfl)) rfl h7
    have receiving : Receiving pad s.cfg s.table s.dec.start
        ((((s.unpacking true).respond .ok 0#64).padded pad).respond .ok 0#64) :=
      ⟨hf, rfl, rfl, rfl, hd, rfl, rfl, rfl⟩
    rw [List.map_cons, List.cons_append, runCommands_cons taken]
    exact receiving.run rfl h7 (fun hn => h1 (by rw [hn]; rfl)) h

end

/-! ### The payload -/

/-- The padding count of a payload is one that its bytes allow (R184, R204). -/
theorem payloadOf_padding (u : BitString) (v : Byte) (hv : (payloadOf u).head? = some v) :
    v.toNat ≤ 7 ∧ ((payloadOf u).length = 1 → v = 0#8) := by
  obtain rfl : BitVec.ofNat 8 (padOf u.length) = v := Option.some.inj hv
  refine ⟨?_, fun h1 => ?_⟩
  · rw [BitVec.toNat_ofNat]
    exact (Nat.mod_le ..).trans (padOf_le _)
  · rw [payloadOf_length] at h1
    have h0 : u.length = 0 := by omega
    rw [h0]
    rfl

/-- The bytes that can be read from a published packer are the payload (R185). -/
theorem Published.eq_payloadOf {u : BitString} {p : Packer} (h : Published u p) {bs : List Byte}
    (hl : bs.length = p.pwp.toNat) (hb : ∀ k v, bs[k]? = some v → p.pmem.read k = some v) : bs = payloadOf u := by
  refine List.ext_getElem (hl.trans h.pwp) fun k h1 h2 => ?_
  exact Option.some.inj ((hb k _ (List.getElem?_eq_getElem h1)).symm.trans (h.pmem k _ (List.getElem?_eq_getElem h2)))

/-- `PINIT`, `ENC` of every Symbol of an input, `PFLUSH`: the payload of the input (R183, R184). -/
theorem runCommands_encode {s : State} {xs : List Symbol} (hf : s.flt.err = none) (hv : s.table.ctValid = true)
    (hx : s.table.Encodes xs) (hr : (payloadOf (codesOf s.table xs)).length ≤ s.cfg.pmemBytes) :
    ∃ p o, Published (codesOf s.table xs) p ∧
      runCommands (.pinit :: (xs.map Instr.enc ++ [.pflush])) s = .next { s with pack := p, port := o } := by
  have hbits : (xs.map Sum.inr).flatMap (Feed.bits s.table) = codesOf s.table xs := List.flatMap_map ..
  have h := runCommands_pack (s := s) (fs := xs.map Sum.inr) hf
    (fun x hmem => ⟨hv, hx x (by simpa using hmem)⟩) (by rwa [hbits])
  rwa [hbits, List.map_map] at h

/-! ### The table of an input -/

theorem freqAt_ldf (t : TreeBuilder) (x y : Symbol) (n : Count) :
    ({ t with freq := t.freq.set x.toFin n }.invalidate).freqAt y = if y = x then n else t.freqAt y := by
  by_cases h : y = x
  · subst h
    exact (RegFile.get_set_self t.freq y.toFin n).trans (if_pos rfl).symm
  · rw [if_neg h]
    exact (RegFile.get_set t.freq x.toFin y.toFin n).trans (if_neg fun e => h (BitVec.eq_of_toFin_eq e))

/-- `LDF` commands load the counts of their Symbols and change nothing else but the tree and the responses sent. -/
theorem runCommands_ldfs {s : State} (hf : s.flt.err = none) (n : Symbol → Count) (ys : List Symbol) :
    ∃ t o, runCommands (ys.map (fun x => .ldf x (n x))) s = .next { s with tree := t, port := o } ∧
      ∀ x, t.freqAt x = if x ∈ ys then n x else s.tree.freqAt x := by
  induction ys generalizing s with
  | nil => exact ⟨s.tree, s.port, rfl, fun _ => rfl⟩
  | cons y ys ih =>
    have loaded := exec_ldf hf y (n y)
    obtain ⟨t, o, ht, hfreq⟩ := ih (s := State.respond
      { s with tree := { s.tree with freq := s.tree.freq.set y.toFin (n y) }.invalidate } .ok 0#64) hf
    refine ⟨t, o, (runCommands_cons loaded _).trans ht, fun x => (hfreq x).trans ?_⟩
    rw [State.respond_tree, freqAt_ldf]
    by_cases hx : x = y
    · simp [hx]
    · simp [hx]

/-- `FREQS` leaves the counts of the input (R100). -/
theorem runCommands_freqs {s : State} (hf : s.flt.err = none) (xs : List Symbol) :
    ∃ t o, runCommands (freqCommands xs) s = .next { s with tree := t, port := o } ∧
      ∀ x, t.freqAt x = BitVec.ofNat 32 (xs.count x) := by
  obtain ⟨t, o, ht, hfreq⟩ := runCommands_ldfs (s := State.respond
    { s with tree := { s.tree with freq := .fill 256 0#32 }.invalidate } .ok 0#64) hf
    (fun x => BitVec.ofNat 32 (xs.count x)) (allSymbols.filter (fun x => xs.contains x))
  refine ⟨t, o, (runCommands_cons (exec_fclr hf) _).trans ht, fun x => (hfreq x).trans ?_⟩
  by_cases hx : x ∈ xs
  · exact if_pos (List.mem_filter.2 ⟨mem_allSymbols x, by simpa using hx⟩)
  · rw [List.count_eq_zero_of_not_mem hx, if_neg fun h => hx (by simpa using (List.mem_filter.1 h).2)]
    exact RegFile.get_fill 256 0#32 x.toFin

/-- `FREQS`, `BUILD`, `GEN` leave a decodable table with a code for every Symbol of the input (R228). -/
theorem runCommands_table {s : State} {xs : List Symbol} (hf : s.flt.err = none) (hne : xs ≠ [])
    (hc : ∀ x, xs.count x < 2 ^ 32) :
    ∃ t, runCommands (freqCommands xs ++ [.build, .gen]) s = .next t ∧ t.flt = s.flt ∧ t.cfg = s.cfg ∧
      t.table.ctValid = true ∧ PrefixCode t.table ∧ t.table.Encodes xs := by
  obtain ⟨t, o, counted, hfreq⟩ := runCommands_freqs hf xs
  have hcount {x : Symbol} (hx : x ∈ xs) : t.freqAt x ≠ 0#32 := by
    intro h0
    have h := congrArg BitVec.toNat ((hfreq x).symm.trans h0)
    rw [BitVec.toNat_ofNat, Nat.mod_eq_of_lt (hc x)] at h
    exact (List.count_pos_iff.2 hx).ne' h
  obtain ⟨x0, hx0⟩ := List.exists_mem_of_ne_nil xs hne
  have built := exec_build (s := { s with tree := t, port := o }) hf (hcount hx0)
  have htree := buildTree_isTree s.cfg (TreeBuilder.noSymbols_eq_false (hcount hx0))
  obtain ⟨g, g', hdead, hg, -, -, generated⟩ := exec_gen_of_isTree
    (s := State.respond { s with tree := buildTree s.cfg t, port := o } .ok 0#64) hf (buildTree_treeValid ..) htree
  have hcode : PrefixCode g' := ⟨genEntries_prefixFree htree hdead hg,
    fun x hx => List.length_pos_iff.1 (genEntries_lengths htree hdead hg x hx).1⟩
  have hx : g'.Encodes xs := fun x hx => by
    rw [genEntries_live htree hdead hg, bne_iff_ne, TreeBuilder.freqAt_congr (buildTree_freq s.cfg t)]
    exact hcount hx
  exact ⟨_, (runCommands_append counted _).trans ((runCommands_cons built _).trans (runCommands_cons generated [])),
    rfl, rfl, rfl, ⟨hcode.prefixFree, hcode.nonempty⟩, hx⟩

/-! ### The round trip -/

/-- The empty table is valid: it has no code that could begin another (R286). -/
theorem runCommands_emptyTable {s : State} (hf : s.flt.err = none) :
    ∃ t, runCommands [.tclr, .tchk] s = .next t ∧ t.flt = s.flt ∧ t.table.ctValid = true := by
  have hempty : PrefixFree { s.table.clearEntries with nent := 0#9, ctValid := false, topen := false } :=
    fun x _ _ hv _ => absurd hv (ne_true_of_eq_false (s.table.clearEntries_dead x))
  have checked := exec_tchk (s := State.respond
    { s with table := { s.table.clearEntries with nent := 0#9, ctValid := false, topen := false } } .ok 0#64)
    hf rfl hempty
  exact ⟨_, (runCommands_cons (exec_tclr hf) _).trans (runCommands_cons checked []), rfl, rfl⟩

theorem payloadOf_nil : payloadOf [] = [0#8] := by
  simp [payloadOf, padOf, chunks]

/-- No byte, and the payload of no bit, decode to no byte (R286). -/
theorem runCommands_decode_nothing {s : State} {p : List Byte} (hf : s.flt.err = none) (hp : p = [] ∨ p = [0#8]) :
    ∃ z, runCommands (.tclr :: .tchk :: .uinit true :: (p.map Instr.ubyte ++ [.uend])) s = .next z ∧
      z.flt.err = none ∧ z.dec.dstate = .done ∧ z.dec.ocnt.toNat = 0 := by
  obtain ⟨t, ht, hflt, hv⟩ := runCommands_emptyTable hf
  have hft : t.flt.err = none := (congrArg FaultRegs.err hflt).trans hf
  obtain ⟨hbits, hpad⟩ : unpackOf p = [] ∧ ∀ v, p.head? = some v → v.toNat ≤ 7 ∧ (p.length = 1 → v = 0#8) := by
    rcases hp with rfl | rfl
    · exact ⟨rfl, nofun⟩
    · exact payloadOf_nil ▸ ⟨unpackOf_payloadOf [], payloadOf_padding []⟩
  obtain ⟨z, hz, hdec, hzf⟩ := runCommands_decode (e := { t.dec.start with dstate := .done }) hft hv hpad
    (by rw [hbits]; rfl)
  exact ⟨z, (runCommands_append ht _).trans hz, hzf, by rw [hdec], by rw [hdec]; rfl⟩

/-- Settles O56: `runCommands_table`, `runCommands_encode` and `runCommands_decode`, one after another; the payload's
bits are the codes of the input (`unpackOf_payloadOf`), and those decode to it (`dStepLast_codesOf`). -/
theorem decodingUndoesEncoding : Obligations.DecodingUndoesEncoding := by
  refine ⟨fun s hf => ?_, fun s xs hf hne hc => ?_⟩
  · obtain ⟨p, o, hpub, packed⟩ := runCommands_pack (s := s) (fs := []) hf nofun
      (by rw [List.flatMap_nil, payloadOf_nil]; exact s.cfg.pmemBytes_pos)
    rw [List.flatMap_nil] at hpub
    exact ⟨_, packed, hf, hpub.pwp.trans (congrArg List.length payloadOf_nil),
      hpub.pmem 0 0#8 (by rw [payloadOf_nil]; rfl), fun p hp => runCommands_decode_nothing hf hp⟩
  · obtain ⟨t, tabled, hflt, hcfg, hv, hcode, hx⟩ := runCommands_table hf hne hc
    have hft : t.flt.err = none := (congrArg FaultRegs.err hflt).trans hf
    refine ⟨t, tabled, hft, fun hroom => ?_⟩
    rw [← payloadOf_length, ← hcfg] at hroom
    obtain ⟨p, o, hpub, packed⟩ := runCommands_encode hft hv hx hroom
    refine ⟨_, packed, hft, fun hout bs hl hb => ?_⟩
    obtain rfl := hpub.eq_payloadOf hl hb
    rw [← hcfg] at hout
    obtain ⟨e, he, hdone, hxs⟩ := hcode.dStepLast_codesOf hx hout t.dec
    obtain ⟨z, hz, rfl, hzf⟩ := runCommands_decode (s := { t with pack := p, port := o }) hft hv
      (payloadOf_padding _) (by rw [unpackOf_payloadOf]; exact he)
    exact ⟨z, hz, hzf, hdone, hxs.ocnt, hxs.omem⟩

end Sys2Proof.Machine
end

section
/-! The control commands `NOP` and `CLR` (R240, R241), which a faulted engine executes too. -/

namespace Sys2Proof

/-! ### `NOP` -/

/-- The row of `NOP` (R95). -/
def nopRow : OpRow := ⟨0x00#8, .Z, fun _ => .nop⟩

theorem nopRow_mem : nopRow ∈ opcodeTable := .head _

/-- Every bit that is not opcode is reserved in format `Z` (R91). -/
theorem eq_zero_of_matches_nopRow {w : CmdWord} (h : w &&& nopRow.format.mask = nopRow.matchWord) : w = 0#48 :=
  (BitVec.and_allOnes (x := w)).symm.trans h

/-- The all-zero word is the only legal word with opcode 0. -/
theorem decode_error_of_opcode_zero {w : CmdWord} (ho : opcOf w = 0x00#8) (hw : w ≠ 0#48) :
    ∃ e, decode w = .error e := by
  refine (illegal_iff w).2 (.inl fun r hr hm => hw ?_)
  have hop : r.opcode = nopRow.opcode := ((r.matches_iff w).1 hm).1.symm.trans ho
  obtain rfl := opcode_injective hr nopRow_mem hop
  exact eq_zero_of_matches_nopRow hm

namespace Machine

/-- Settles O15: the rule of `NOP` only responds, and `NOP` is the one command with opcode 0. -/
theorem nopDoesNothing : Obligations.NopDoesNothing :=
  ⟨rfl, fun s => ⟨s.respond .ok 0#64, rfl, ⟨rfl, rfl⟩, unchanged_respond ..⟩,
    fun _ => decode_error_of_opcode_zero⟩

/-! ### `CLR` -/

@[simp] theorem TreeBuilder.reset_freqAt (x : Symbol) : TreeBuilder.reset.freqAt x = 0#32 := RegFile.get_fill 256 _ _

@[simp] theorem TreeBuilder.reset_nodeAt (j : NodeIdx) : TreeBuilder.reset.nodeAt j = .blank := by
  unfold TreeBuilder.nodeAt
  split
  · exact RegFile.get_fill 511 ..
  · rfl

/-- `clearAll` leaves every value that R50 gives. -/
theorem State.atReset_clearAll (s : State) : AtReset s.clearAll where
  freq := TreeBuilder.reset_freqAt
  tree := ⟨rfl, rfl, rfl⟩
  node j := congrArg Node.v (TreeBuilder.reset_nodeAt j)
  hidden := ⟨rfl, rfl⟩
  ct x := congrArg CodeEntry.v (CodeTable.reset_entry x)
  table := ⟨rfl, rfl, rfl⟩
  pack := ⟨rfl, rfl, rfl, rfl, rfl, rfl⟩
  unpack := ⟨rfl, rfl, rfl, rfl, rfl⟩
  dec := ⟨rfl, rfl, rfl⟩
  flt := ⟨rfl, rfl⟩

/-- A response is no piece of state of R50. -/
theorem AtReset.respond {s : State} (h : AtReset s) (c : RspCode) (d : Data) : AtReset (s.respond c d) := { h with }

/-- Settles O16: the rule of `CLR` is `clearAll` and a response. -/
theorem clrResets : Obligations.ClrResets :=
  ⟨rfl, fun s => ⟨s.clearAll.respond .ok 0#64, rfl, ⟨rfl, rfl⟩, s.atReset_clearAll.respond ..⟩⟩

end Machine
end Sys2Proof
end

section
/-! The status registers (R46, R47) and `RDSR`, which reads them (R242). -/

namespace Sys2Proof.Machine

/-! ### `RDSR` -/

/-- R242: a status register is read in every state, faulted or not, and nothing changes. -/
theorem exec_rdsr_answers {s : State} {n : BitVec 8} {d : Data} (h : s.statusReg n = some d) :
    ∃ t, exec (.rdsr n) s = .next t ∧ Answered s t d ∧ Unchanged s t :=
  ⟨_, exec_rdsr h, ⟨rfl, rfl⟩, unchanged_respond ..⟩

/-- A list that holds the values of the registers it numbers is read entry by entry. -/
theorem exec_rdsr_listed {s : State} {l : List (BitVec 8 × Data)}
    (h : l.map (fun p => s.statusReg p.1) = l.map (fun p => some p.2)) {p : BitVec 8 × Data} (hp : p ∈ l) :
    ∃ t, exec (.rdsr p.1) s = .next t ∧ Answered s t p.2 ∧ Unchanged s t :=
  exec_rdsr_answers (List.map_inj_left.1 h p hp)

theorem statusReg_eq_none {n : BitVec 8} (s : State) (h : 12 ≤ n.toNat) : s.statusReg n = none := by
  refine Option.not_isSome_iff_eq_none.1 fun hn => ?_
  rw [statusReg_isSome, decide_eq_true_iff] at hn
  exact Nat.not_lt.2 h hn

/-- A number from 12 on is an illegal word (R96): it raises `E_ILL`. -/
theorem raises_rdsr {s : State} {n : BitVec 8} (hf : s.flt.err = none) (h : 12 ≤ n.toNat) :
    Raises (.rdsr n) s .ill := by
  have ht : s.illegalWord (encode (.rdsr n)) = s.raiseFault .ill (encode (.rdsr n)) :=
    if_neg (ne_true_of_eq_false (s.faulted_eq_false_iff.2 hf))
  rw [Raises, exec_rdsr_illegal (statusReg_eq_none s h), ht]
  exact ⟨_, rfl, ⟨rfl, rfl, rfl, rfl, rfl⟩, rfl, rfl, rfl⟩

/-- A faulted engine refuses that word, as every illegal one (R253). -/
theorem exec_rdsr_refused {s : State} {n : BitVec 8} (hf : s.flt.err ≠ none) (h : 12 ≤ n.toNat) :
    exec (.rdsr n) s = .next s.refuseFaulted :=
  (exec_rdsr_illegal (statusReg_eq_none s h)).trans (congrArg _ (if_pos (s.faulted_iff.2 hf)))

/-- After reset every status register reads 0 (R50). -/
theorem statusReg_reset {n : BitVec 8} (h : n.toNat < 12) : State.reset.statusReg n = some 0#64 := by
  obtain ⟨d, hd⟩ := Option.isSome_iff_exists.1 ((statusReg_isSome State.reset n).trans (decide_eq_true h))
  rw [hd]
  unfold State.statusReg at hd
  split at hd <;> cases hd <;> rfl

/-- Without a tree `NLEAF` and `ROOT` are 0 (R23). -/
theorem TreeInv.statusReg_noTree {s : State} (h : TreeInv s.tree) (hv : s.tree.treeValid = false) :
    s.statusReg 3#8 = some 0#64 ∧ s.statusReg 4#8 = some 0#64 := by
  obtain ⟨hnleaf, hroot⟩ := h.invalid hv
  exact ⟨congrArg (fun x : BitVec 9 => some (x.setWidth 64)) hnleaf,
    congrArg (fun x : BitVec 9 => some (x.setWidth 64)) hroot⟩

/-! ### The fields of `STATUS` (R47) -/

/-- A field that lies above the last part of a word. -/
theorem extractLsb'_above {m v k len : Nat} {x : BitVec m} {y : BitVec v} {z : BitVec len}
    (h : x.extractLsb' (k - v) len = z) (hk : v ≤ k := by decide) : (x ++ y).extractLsb' k len = z :=
  (BitVec.extractLsb'_append_eq_of_le hk).trans h

theorem State.status_treeValid (s : State) : s.status.extractLsb' 0 1 = BitVec.ofBool s.tree.treeValid :=
  BitVec.extractLsb'_append_eq_right

theorem State.status_ctValid (s : State) : s.status.extractLsb' 1 1 = BitVec.ofBool s.table.ctValid :=
  extractLsb'_above BitVec.extractLsb'_append_eq_right

theorem State.status_topen (s : State) : s.status.extractLsb' 2 1 = BitVec.ofBool s.table.topen :=
  extractLsb'_above <| extractLsb'_above BitVec.extractLsb'_append_eq_right

/-- The fields above the three flags of the Tree Builder and the Code Table. -/
theorem State.status_above_flags (s : State) {k len : Nat} (hk : 3 ≤ k) :
    s.status.extractLsb' k len = (BitVec.ofBool s.faulted ++ s.dec.dstate.number ++ BitVec.ofBool s.unpack.umode ++
      s.unpack.ustate.number ++ s.pack.pstate.number).extractLsb' (k - 3) len :=
  extractLsb'_above (hk := by omega) <| extractLsb'_above (hk := by omega) <| extractLsb'_above (hk := by omega) rfl

theorem State.status_pstate (s : State) : s.status.extractLsb' 3 2 = s.pack.pstate.number :=
  (s.status_above_flags (by decide)).trans BitVec.extractLsb'_append_eq_right

theorem State.status_ustate (s : State) : s.status.extractLsb' 5 2 = s.unpack.ustate.number :=
  (s.status_above_flags (by decide)).trans <| extractLsb'_above BitVec.extractLsb'_append_eq_right

theorem State.status_umode (s : State) : s.status.extractLsb' 7 1 = BitVec.ofBool s.unpack.umode :=
  (s.status_above_flags (by decide)).trans <| extractLsb'_above <| extractLsb'_above BitVec.extractLsb'_append_eq_right

theorem State.status_dstate (s : State) : s.status.extractLsb' 8 2 = s.dec.dstate.number :=
  (s.status_above_flags (by decide)).trans <| extractLsb'_above <| extractLsb'_above <| extractLsb'_above
    BitVec.extractLsb'_append_eq_right

theorem State.status_faulted (s : State) : s.status.extractLsb' 10 1 = BitVec.ofBool s.faulted :=
  (s.status_above_flags (by decide)).trans <| extractLsb'_above <| extractLsb'_above <| extractLsb'_above
    BitVec.extractLsb'_append_eq_left

theorem State.status_faulted_iff (s : State) : s.status.extractLsb' 10 1 = 1#1 ↔ s.flt.err ≠ none := by
  rw [s.status_faulted, ← s.faulted_iff]
  cases s.faulted <;> decide

/-! ### State codes and fault codes that are no value -/

theorem PState.number_ne_three (p : PState) : p.number ≠ 3#2 := by cases p <;> decide

theorem DState.number_ne_three (d : DState) : d.number ≠ 3#2 := by cases d <;> decide

/-- `ERR` is 0 only without a fault: 0 is the number of `OK` alone (R251). -/
theorem FaultRegs.errNumber_eq_zero_iff (f : FaultRegs) : f.errNumber = 0#8 ↔ f.err = none := by
  rcases f with ⟨_ | e, w⟩
  · exact iff_of_true rfl rfl
  · exact iff_of_false (fun h => nomatch (RspCode.number_eq_zero_iff (.fault e)).1 h) nofun

/-- Settles O17: the twelve registers by `exec_rdsr_listed`, the numbers above them as illegal words, and the fields
of `STATUS` one by one. -/
theorem rdsrReadsTheStatusRegisters : Obligations.RdsrReadsTheStatusRegisters := by
  refine ⟨fun _ => rfl, fun s p hp => ?_, fun s n => raises_rdsr, fun s n hf h => ?_, fun s hinv hv => ?_, fun s => ?_,
    fun n h => ?_⟩
  · exact exec_rdsr_listed rfl hp
  · exact ⟨_, exec_rdsr_refused hf h, unchanged_respond .., rfl, rfl⟩
  · obtain ⟨hnleaf, hroot⟩ := hinv.statusReg_noTree hv
    exact ⟨_, _, exec_rdsr hnleaf, ⟨rfl, rfl⟩, exec_rdsr hroot, rfl, rfl⟩
  · exact ⟨s.status_treeValid, s.status_ctValid, s.status_topen, s.status_pstate, s.status_ustate, s.status_umode,
      s.status_dstate, s.status_faulted_iff, s.pack.pstate.number_ne_three, s.dec.dstate.number_ne_three,
      s.flt.errNumber_eq_zero_iff⟩
  · exact ⟨_, exec_rdsr (statusReg_reset h), rfl, rfl⟩

end Sys2Proof.Machine
end

section
/-! The faulted state (R253) and the way into it (R252): what a command can do while a fault is recorded, and what a
step that records one does. -/

namespace Sys2Proof.Machine

section
variable {s t u : State} {i : Instr} {e : ErrCode} {w : CmdWord} {rest : List HostInput}

/-! ### Nothing changed -/

theorem Unchanged.refl (s : State) : Unchanged s s := ⟨⟨rfl, rfl, rfl, rfl, rfl⟩, rfl⟩

theorem SameUnits.trans (h : SameUnits s t) (h' : SameUnits t u) : SameUnits s u := by
  obtain ⟨tree, table, pack, unpack, dec⟩ := h
  obtain ⟨tree', table', pack', unpack', dec'⟩ := h'
  exact ⟨tree'.trans tree, table'.trans table, pack'.trans pack, unpack'.trans unpack, dec'.trans dec⟩

theorem Unchanged.trans (h : Unchanged s t) (h' : Unchanged t u) : Unchanged s u :=
  ⟨h.1.trans h'.1, h'.2.trans h.2⟩

/-! ### The faulted state -/

/-- Every command but `NOP`, `CLR` and `RDSR` is refused (R253). -/
theorem exec_refused (hf : s.flt.err ≠ none) (hi : runsWhileFaulted i = false) :
    exec i s = .next s.refuseFaulted := by
  obtain ⟨body, hb⟩ := exec_command hi
  exact (hb s).trans (command_faulted (s.faulted_iff.2 hf))

/-- Those three answer `OK` in every state, faulted or not, and only `CLR` changes anything (R253). -/
theorem exec_runsWhileFaulted (hr : runsWhileFaulted i = true) (hw : i.wellFormed = true) (s : State) :
    ∃ t d, exec i s = .next t ∧ Answered s t d ∧ (i = .clr ∨ Unchanged s t) := by
  cases i <;> simp only [runsWhileFaulted, Bool.false_eq_true] at hr
  case nop => exact ⟨_, _, rfl, ⟨rfl, rfl⟩, .inr (unchanged_respond ..)⟩
  case clr => exact ⟨_, _, rfl, ⟨rfl, rfl⟩, .inl rfl⟩
  case rdsr n =>
    obtain ⟨d, hd⟩ := Option.isSome_iff_exists.1 ((statusReg_isSome s n).trans hw)
    exact ⟨_, d, exec_rdsr hd, ⟨rfl, rfl⟩, .inr (unchanged_respond ..)⟩

/-- A word that is none of the three, legal or illegal, is refused (R253). -/
theorem step_refused (hf : s.flt.err ≠ none) (hq : s.port.inq = .word w :: rest)
    (hw : ∀ i, decode w = .ok i → runsWhileFaulted i = false) :
    step s = .next { s with port := { s.port with inq := rest } }.refuseFaulted := by
  rcases hd : decode w with e | i
  · exact (step_of_illegal hq hd).trans (congrArg _ (if_pos (s.faulted_iff.2 hf)))
  · exact (step_of_legal hq hd).trans (exec_refused hf (hw i hd))

/-- Settles O7: a word of the three decodes to a well-formed command, and every other word is refused. -/
theorem faultedEngineRefuses : Obligations.FaultedEngineRefuses := by
  refine fun s w rest hf hq => ⟨fun i hd hr => ?_, fun hw => ?_⟩
  · obtain ⟨-, hi⟩ := decodedWordsEncodeBack w i hd
    obtain ⟨t, d, ht, ⟨hcfg, hport⟩, hsame⟩ :=
      exec_runsWhileFaulted hr hi { s with port := { s.port with inq := rest } }
    exact ⟨t, d, (step_of_legal hq hd).trans ht, hcfg, hport, ht, hsame⟩
  · exact ⟨_, step_refused hf hq hw, unchanged_respond .., rfl, rfl⟩

/-- While a fault is recorded, a command other than `CLR` changes nothing (R253). -/
theorem exec_faulted_unchanged (hf : s.flt.err ≠ none) (hi : i ≠ .clr) (h : exec i s = .next t) : Unchanged s t := by
  have refused (hr : exec i s = .next s.refuseFaulted) : Unchanged s t := by
    cases hr.symm.trans h
    exact unchanged_respond ..
  cases hr : runsWhileFaulted i
  · exact refused (exec_refused hf hr)
  · cases hw : i.wellFormed
    · obtain ⟨n, rfl, hn⟩ := (not_wellFormed_iff i).1 hw
      exact refused (exec_rdsr_refused hf hn)
    · obtain ⟨t', d, ht, -, hsame⟩ := exec_runsWhileFaulted hr hw s
      cases ht.symm.trans h
      exact hsame.resolve_left hi

/-- Settles O10, by induction on the run: each command finds the fault that the one before it left. -/
theorem firstFaultWins : Obligations.FirstFaultWins := by
  intro is
  induction is with
  | nil =>
    intro s t _ _ h
    cases h
    exact .refl s
  | cons i is ih =>
    intro s t hf hc h
    obtain ⟨hi, his⟩ := List.ne_and_not_mem_of_not_mem_cons hc
    rcases hu : exec i s with u | f | r
    · rw [runCommands_cons hu] at h
      have first := exec_faulted_unchanged hf hi.symm hu
      exact first.trans (ih u t (first.2 ▸ hf) his h)
    all_goals rw [runCommands, hu] at h; cases h

/-! ### Fault entry -/

/-- A rule that ends normally records no fault. -/
theorem Effect.err_none (he : Effect i s u) (hf : s.flt.err = none) : u.flt.err = none := by
  cases he with
  | clr => rfl
  | _ => exact hf

/-- A command that records a fault has done nothing else (R252). -/
theorem exec_records (hf : s.flt.err = none) (h : exec i s = .next t) (ht : t.flt.err = some e) :
    t = s.raiseFault e (encode i) := by
  rcases exec_cases h with ⟨hs, -⟩ | ⟨-, e', rfl⟩ | ⟨u, d, he, rfl⟩
  · exact absurd hf (s.faulted_iff.1 hs)
  · cases ht
    rfl
  · cases (he.err_none hf).symm.trans ht

/-- A word that records a fault, legal or illegal, has done nothing else (R252). -/
theorem step_records (hf : s.flt.err = none) (hq : s.port.inq = .word w :: rest) (h : step s = .next t)
    (ht : t.flt.err = some e) : t = { s with port := { s.port with inq := rest } }.raiseFault e w := by
  rcases hd : decode w with e' | i
  · obtain rfl := Host.Outcome.next.inj ((step_of_illegal hq hd).symm.trans h)
    rcases illegalWord_cases { s with port := { s.port with inq := rest } } w with ⟨hs, -⟩ | ⟨-, hill⟩
    · exact absurd hf hs
    · rw [hill] at ht ⊢
      cases ht
      rfl
  · obtain ⟨rfl, -⟩ := decodedWordsEncodeBack w i hd
    exact exec_records hf ((step_of_legal hq hd).symm.trans h) ht

/-- Settles O8: by `step_records`, since fault entry keeps everything but `ERR` and `EINFO`. -/
theorem faultEntryIsPrecise : Obligations.FaultEntryIsPrecise := by
  intro s w rest t hf hq h ht
  obtain ⟨e, he⟩ := Option.ne_none_iff_exists'.1 ht
  obtain rfl := step_records hf hq h he
  exact ⟨e, rfl, ⟨rfl, rfl, rfl, rfl, rfl⟩, rfl, rfl⟩

end
end Sys2Proof.Machine
end

section
/-! Which fault a command can record (R251, R259). Each micro-step raises a fixed few codes; a command raises those of
its micro-steps and those of its own checks, and `E_SEQ` only by the check that the table of R287 writes down. -/

namespace Sys2Proof.Machine

section
variable {s t : State} {i : Instr} {e : ErrCode}

/-! ### Codes of the micro-steps -/

theorem pPush_raises {c : Config} {p : Packer} {b : Bool} (h : pPush c p b = .error (.raise e)) : e = .ovf := by
  rcases pPush_cases c p b with ⟨-, -, r⟩ | ⟨-, -, r⟩ | ⟨-, -, r⟩ | ⟨-, r⟩ <;> cases r.symm.trans h
  rfl

theorem pPushAll_raises {c : Config} {p : Packer} {bs : BitString} (h : pPushAll c p bs = .error (.raise e)) :
    e = .ovf := by
  induction bs generalizing p with
  | nil => cases h
  | cons b bs ih =>
    rcases hb : pPush c p b with r | q
    · cases (pPushAll_cons_error hb bs).symm.trans h
      exact pPush_raises hb
    · exact ih ((pPushAll_cons_ok hb bs).symm.trans h)

theorem flush_raises {c : Config} {p : Packer} (h : flush c p = .error (.raise e)) : e = .ovf := by
  rcases flush_cases c p with ⟨-, r⟩ | ⟨-, -, r⟩ | ⟨-, -, r⟩ | ⟨-, -, r⟩ <;> cases r.symm.trans h
  rfl

/-- The codes that a decoder step can raise (R222). -/
def ErrCode.FromDecoder (e : ErrCode) : Prop := e = .ovf ∨ e = .trunc

theorem dStep_raises {c : Config} {g : CodeTable} {d : Decoder} {b : Bool} (h : dStep c g d b = .error (.raise e)) :
    e.FromDecoder := by
  rcases dStep_cases c g d b with ⟨x, -, ⟨-, r⟩ | ⟨-, r⟩ | ⟨-, r⟩⟩ | ⟨-, -, r⟩ | ⟨-, -, r⟩ <;> cases r.symm.trans h
  · exact .inl rfl
  · exact .inr rfl

theorem dFinish_raises {d : Decoder} (h : dFinish d = .error (.raise e)) : e = .trunc := by
  rcases dFinish_cases d with ⟨-, r⟩ | ⟨-, r⟩ <;> cases r.symm.trans h
  rfl

theorem uEmit_raises {b : Bool} (h : uEmit s b = .error (.raise e)) : e.FromDecoder := by
  cases hm : s.unpack.umode
  · cases (uEmit_mode0 hm b).symm.trans h
  · rcases hd : dStep s.cfg s.table s.dec b with r | d
    · cases (uEmit_mode1_error hm hd).symm.trans h
      exact dStep_raises hd
    · cases (uEmit_mode1_ok hm hd).symm.trans h

theorem uEmitAll_raises {bs : BitString} (h : uEmitAll s bs = .error (.raise e)) : e.FromDecoder := by
  induction bs generalizing s with
  | nil => cases h
  | cons b bs ih =>
    rw [uEmitAll] at h
    split at h
    · cases h
      exact uEmit_raises ‹_›
    · exact ih h

/-- The codes that taking or ending a payload can raise (R202, R203). -/
def ErrCode.FromUnpacker (e : ErrCode) : Prop := e = .pad ∨ e.FromDecoder

theorem takePadding_raises {v : Byte} (h : takePadding v s = .error (.raise e)) : e.FromUnpacker := by
  unfold takePadding at h
  split at h <;> cases h
  exact .inl rfl

theorem takeData_raises {v : Byte} (h : takeData v s = .error (.raise e)) : e.FromUnpacker := by
  unfold takeData at h
  split at h <;> cases h
  exact .inr (uEmitAll_raises ‹_›)

theorem releaseLast_raises (h : releaseLast s = .error (.raise e)) : e.FromUnpacker := by
  unfold releaseLast at h
  repeat' split at h
  all_goals cases h
  · exact .inr (uEmitAll_raises ‹_›)
  · exact .inl rfl

theorem endPayload_raises (h : endPayload s = .error (.raise e)) : e.FromUnpacker := by
  rcases endPayload_cases s with ⟨-, r⟩ | ⟨-, -, r⟩ | ⟨-, -, r⟩ <;> cases r.symm.trans h
  exact .inr (.inr rfl)

theorem loadByte_not_raises (m : Memory) (a : Nat) : loadByte m a ≠ .error (.raise e) := by
  unfold loadByte
  split <;> nofun

theorem walk_not_raises (t : TreeBuilder) (k : Nat) (n : NodeIdx) (path : BitString) (g : CodeTable) :
    walk t k n path g ≠ .error (.raise e) := by
  intro h
  induction k generalizing n path g with
  | zero => cases h
  | succ k ih =>
    unfold walk at h
    split at h
    · cases h
    split at h
    · split at h
      · cases h
        exact ih _ _ _ ‹_›
      split at h
      · cases h
      · exact ih _ _ _ h
    · cases h

theorem genEntries_not_raises (t : TreeBuilder) (g : CodeTable) : genEntries t g ≠ .error (.raise e) := by
  unfold genEntries
  split
  · nofun
  · exact walk_not_raises t 256 t.root [] g

/-! ### Codes of the commands -/

/-- A code that the tables of R251 and R259 let `i` raise in `s`: `E_SEQ` where `i` is not legal, or another code that
is listed for `i`. -/
def ErrCode.Allowed (e : ErrCode) (i : Instr) (s : State) : Prop :=
  e = .seq ∧ legal s i = false ∨ e ≠ .seq ∧ raisedBy e i = true

/-- The table of R251 lists `E_SEQ` for every command that needs something (R259). -/
theorem raisedBy_seq_of_not_legal (h : legal s i = false) : raisedBy .seq i = true := by
  cases i with
  | nop | clr | rdsr | fclr | ldf | rdf | build | rdcl | rdcw | tclr | pinit => cases h
  | uinit m =>
    cases m
    · cases h
    · rfl
  | _ => rfl

theorem ErrCode.Allowed.raisedBy (h : e.Allowed i s) : raisedBy e i = true := by
  rcases h with ⟨rfl, hl⟩ | ⟨-, hr⟩
  · exact raisedBy_seq_of_not_legal hl
  · exact hr

/-- What `UBYTE` and `UEND` need (R259) is what their first two checks test (R202, R203). -/
theorem legal_payload (hi : (∃ v, i = .ubyte v) ∨ i = .uend) : legal s i = (s.unpack.taking && s.linked) := by
  rcases hi with ⟨v, rfl⟩ | rfl <;> rfl

theorem ErrCode.FromUnpacker.allowed (h : e.FromUnpacker) (hi : (∃ v, i = .ubyte v) ∨ i = .uend) : e.Allowed i s := by
  rcases hi with ⟨v, rfl⟩ | rfl <;> rcases h with rfl | rfl | rfl <;> exact .inr ⟨nofun, rfl⟩

/-- A command that records a fault has a rule that raises it. -/
theorem rule_raises {body : State → Except Stop (State × Data)} (hb : ∀ s, exec i s = command (encode i) body s)
    (hf : s.flt.err = none) (h : exec i s = .next t) (ht : t.flt.err = some e) : body s = .error (.raise e) := by
  obtain rfl := exec_records hf h ht
  rw [hb] at h
  rcases command_cases (encode i) body s with ⟨hs, -⟩ | ⟨-, ⟨u, d, -, hc⟩ | ⟨e', he, hc⟩ | ⟨f, -, hc⟩⟩
  · exact absurd hf (s.faulted_iff.1 hs)
  · have hrsps := congrArg (fun v => v.port.rsps) (Host.Outcome.next.inj (hc.symm.trans h))
    cases (List.append_inj' hrsps rfl).2
  · have herr := congrArg (fun v => v.flt.err) (Host.Outcome.next.inj (hc.symm.trans h))
    cases herr
    exact he
  · cases hc.symm.trans h

/-- Of the commands that a faulted engine executes only an ill-formed one records a fault: it is illegal (R96, R242). -/
theorem exec_fault_ill (hf : s.flt.err = none) (hr : runsWhileFaulted i = true) (h : exec i s = .next t)
    (ht : t.flt.err = some e) : e = .ill ∧ i.wellFormed = false := by
  cases hw : i.wellFormed
  · obtain ⟨n, rfl, hn⟩ := (not_wellFormed_iff i).1 hw
    obtain ⟨t', ht', -, -, hflt, -⟩ := raises_rdsr hf hn
    cases ht'.symm.trans h
    cases (congrArg FaultRegs.err hflt).symm.trans ht
    exact ⟨rfl, rfl⟩
  · obtain ⟨t', d, ht', ha, -⟩ := exec_runsWhileFaulted hr hw s
    cases ht'.symm.trans h
    rw [exec_records hf h ht] at ha
    exact absurd ha (not_answered_raiseFault s e (encode i) d)

/-- All the codes that a command can record (R251, R259). -/
theorem exec_fault_allowed (hf : s.flt.err = none) (h : exec i s = .next t) (ht : t.flt.err = some e) :
    e.Allowed i s := by
  cases i with
  | nop | clr | rdsr =>
    obtain ⟨rfl, hw⟩ := exec_fault_ill hf rfl h ht
    exact .inr ⟨nofun, congrArg Bool.not hw⟩
  | fclr | ldf | rdf | rdcl | rdcw | tclr => cases rule_raises (fun _ => rfl) hf h ht
  | pinit =>
    have hb := rule_raises (fun _ => rfl) hf h ht
    simp [storeByte_ok s.cfg.pmemBytes_pos, ended] at hb
  | build =>
    have hb := rule_raises (fun _ => rfl) hf h ht
    split at hb <;> cases hb
    exact .inr ⟨nofun, rfl⟩
  | rdn | rdnf | dinit | uinit =>
    have hb := rule_raises (fun _ => rfl) hf h ht
    split at hb <;> cases hb
    exact .inl ⟨rfl, by simp_all [legal]⟩
  | gen =>
    have hb := rule_raises (fun _ => rfl) hf h ht
    repeat' split at hb
    all_goals cases hb
    · exact (genEntries_not_raises _ _ ‹_›).elim
    · exact .inl ⟨rfl, by simp_all [legal]⟩
  | tsym | tbit | tend | tchk =>
    have hb := rule_raises (fun _ => rfl) hf h ht
    repeat' split at hb
    all_goals cases hb
    · exact .inl ⟨rfl, by simp_all [legal]⟩
    · exact .inr ⟨nofun, rfl⟩
  | pbit =>
    have hb := rule_raises (fun _ => rfl) hf h ht
    repeat' split at hb
    all_goals cases hb
    · cases pPush_raises ‹_›
      exact .inr ⟨nofun, rfl⟩
    · exact .inl ⟨rfl, by simp_all [legal]⟩
  | pflush =>
    have hb := rule_raises (fun _ => rfl) hf h ht
    repeat' split at hb
    all_goals cases hb
    · cases flush_raises ‹_›
      exact .inr ⟨nofun, rfl⟩
    · exact .inl ⟨rfl, by simp_all [legal]⟩
  | enc =>
    have hb := rule_raises (fun _ => rfl) hf h ht
    repeat' split at hb
    all_goals cases hb
    · cases pPushAll_raises ‹_›
      exact .inr ⟨nofun, rfl⟩
    · exact .inr ⟨nofun, rfl⟩
    · exact .inl ⟨rfl, by simp_all [legal]⟩
  | rdp | rdo =>
    have hb := rule_raises (fun _ => rfl) hf h ht
    repeat' split at hb
    all_goals cases hb
    · exact .inr ⟨nofun, rfl⟩
    · exact (loadByte_not_raises _ _ ‹_›).elim
    · exact .inl ⟨rfl, by simp_all [legal]⟩
  | dbit =>
    have hb := rule_raises (fun _ => rfl) hf h ht
    repeat' split at hb
    all_goals cases hb
    · rcases dStep_raises ‹_› with rfl | rfl
      · exact .inr ⟨nofun, rfl⟩
      · exact .inr ⟨nofun, rfl⟩
    · exact .inl ⟨rfl, by simp_all [legal, State.decoding]⟩
  | dend =>
    have hb := rule_raises (fun _ => rfl) hf h ht
    repeat' split at hb
    all_goals cases hb
    · cases dFinish_raises ‹_›
      exact .inr ⟨nofun, rfl⟩
    · exact .inl ⟨rfl, by simp_all [legal]⟩
  | ubyte v =>
    have hb := rule_raises (fun _ => rfl) hf h ht
    cases hl : s.unpack.taking && s.linked
    · cases (payload_checks_fail hl _).symm.trans hb
      exact .inl ⟨rfl, (legal_payload (.inl ⟨v, rfl⟩)).trans hl⟩
    · have hb := (payload_checks_pass hl _).symm.trans hb
      refine ErrCode.FromUnpacker.allowed ?_ (.inl ⟨v, rfl⟩)
      split at hb <;> cases hb
      rename_i hr
      split at hr
      · exact takePadding_raises hr
      · exact takeData_raises hr
  | uend =>
    have hb := rule_raises (fun _ => rfl) hf h ht
    cases hl : s.unpack.taking && s.linked
    · cases (payload_checks_fail hl _).symm.trans hb
      exact .inl ⟨rfl, (legal_payload (.inr rfl)).trans hl⟩
    · have hb := (payload_checks_pass hl _).symm.trans hb
      refine ErrCode.FromUnpacker.allowed ?_ (.inr rfl)
      split at hb
      · cases hb
        exact releaseLast_raises ‹_›
      · split at hb <;> cases hb
        exact endPayload_raises ‹_›

/-- Settles O12: the codes by `exec_fault_allowed`, the numbers from the model's table of them. -/
theorem faultCodesComeFromTheirCommands : Obligations.FaultCodesComeFromTheirCommands :=
  ⟨fun _ _ _ _ hf h ht => (exec_fault_allowed hf h ht).raisedBy, rfl, rfl, rfl⟩

/-! ### `E_SEQ` -/

/-- A command that lacks what it needs raises `E_SEQ` (R259). -/
theorem raises_seq_of_not_legal (hf : s.flt.err = none) (h : legal s i = false) : Raises i s .seq := by
  cases i with
  | nop | clr | rdsr | fclr | ldf | rdf | build | rdcl | rdcw | tclr | pinit => cases h
  | rdn j => exact raises_rdn hf h j
  | rdnf j => exact raises_rdnf hf h j
  | gen => exact raises_gen hf h
  | tsym x => exact raises_tsym_seq hf (Bool.not_eq_eq_eq_not.1 h) x
  | tchk => exact raises_tchk_seq hf (Bool.not_eq_eq_eq_not.1 h)
  | tbit b => exact raises_tbit_seq hf h b
  | tend => exact raises_tend_seq hf h
  | pbit b => exact raises_pbit_seq hf (of_decide_eq_false h) b
  | pflush => exact raises_pflush_seq hf (of_decide_eq_false h)
  | enc x => exact raises_enc_seq hf ((Bool.and_eq_false_iff.1 h).imp_left of_decide_eq_false)
  | rdp a => exact raises_rdp_seq hf (of_decide_eq_false h) a
  | uinit m =>
    obtain ⟨hm, hv⟩ := Bool.or_eq_false_iff.1 h
    obtain rfl := Bool.not_eq_eq_eq_not.1 hm
    exact raises_uinit hf hv
  | ubyte v => exact raises_ubyte_seq hf ((legal_payload (.inl ⟨v, rfl⟩)).symm.trans h) v
  | uend => exact raises_uend_seq hf ((legal_payload (.inr rfl)).symm.trans h)
  | dinit => exact raises_dinit hf h
  | dbit b => exact raises_dbit_seq hf ((Bool.and_eq_false_iff.1 h).imp_left of_decide_eq_false) b
  | dend => exact raises_dend_seq hf (of_decide_eq_false h)
  | rdo a => exact raises_rdo_seq hf (of_decide_eq_false h) a

/-- Settles O11: `E_SEQ` is raised there by `raises_seq_of_not_legal`, and nowhere else by `exec_fault_allowed`. -/
theorem sequenceFaultsExactly : Obligations.SequenceFaultsExactly := by
  refine fun s i hf => ⟨fun ⟨t, ht, _, _, hflt, _⟩ => ?_, raises_seq_of_not_legal hf⟩
  rcases exec_fault_allowed hf ht (congrArg FaultRegs.err hflt) with ⟨-, hl⟩ | ⟨hne, -⟩
  · exact hl
  · exact absurd rfl hne

end
end Sys2Proof.Machine
end

section
/-! The two steps that run no command: `rst` resets, and with nothing sent the engine waits (R280, log entry 1). -/

namespace Sys2Proof.Machine

theorem step_of_nothing {s : State} (hq : s.port.inq = []) : step s = .next s := by
  simp [step, State.take, hq]

/-- A step that finds `rst` takes it and leaves the reset values. -/
theorem step_of_rst {s : State} {rest : List HostInput} (hq : s.port.inq = .rst :: rest) :
    step s = .next { s with port := { s.port with inq := rest } }.clearAll := by
  simp [step, State.take, hq]

/-- Settles O6: `rst` leaves what `clearAll` leaves, and the rule of `CLR` is `clearAll` and a response. -/
theorem stepResetsOrWaits : Obligations.StepResetsOrWaits :=
  ⟨fun _ _ hq => ⟨_, _, step_of_rst hq, State.atReset_clearAll _, rfl, rfl, rfl, ⟨rfl, rfl⟩, unchanged_respond ..⟩,
    fun _ => step_of_nothing⟩

end Sys2Proof.Machine
end

section
/-! No step reaches a stop of the model (R291, log entry 7). A stop stands behind an address beyond a memory, a byte that
nothing has written, or a node store that holds no tree; the invariant rules out each. -/

namespace Sys2Proof.Machine

/-- `r` ends normally or by a `raise`, and not by a stop of the model. -/
def NeverBreaks {α : Type} (r : Except Stop α) : Prop := ∀ f, r ≠ .error (.broken f)

section
variable {c : Config} {p : Packer} {s : State}

/-! ### The micro-steps -/

theorem loadByte_neverBreaks {m : Memory} {a : Nat} (h : (m.read a).isSome = true) : NeverBreaks (loadByte m a) := by
  obtain ⟨v, hv⟩ := Option.isSome_iff_exists.1 h
  rw [loadByte_ok hv]
  nofun

theorem pPush_neverBreaks (h : p.pwp.toNat ≤ c.pmemBytes) (b : Bool) : NeverBreaks (pPush c p b) := by
  rcases pPush_cases c p b with ⟨-, -, e⟩ | ⟨-, -, e⟩ | ⟨-, hgt, -⟩ | ⟨-, e⟩
  · rw [e]; nofun
  · rw [e]; nofun
  · exact absurd h (Nat.not_le.2 hgt)
  · rw [e]; nofun

/-- The bits of a code all have room, or one of them overflows (R183). -/
theorem pPushAll_neverBreaks (h : p.pwp.toNat ≤ c.pmemBytes) (bs : BitString) : NeverBreaks (pPushAll c p bs) := by
  by_cases hr : p.pwp.toNat + (p.pnb.toNat + bs.length) / 8 ≤ c.pmemBytes
  · obtain ⟨q, e⟩ := pPushAll_fits hr
    rw [e]; nofun
  · rw [pPushAll_overflows h (Nat.not_le.1 hr)]; nofun

theorem flush_neverBreaks (h : p.pwp.toNat ≤ c.pmemBytes) : NeverBreaks (flush c p) := by
  rcases flush_cases c p with ⟨-, e⟩ | ⟨-, -, e⟩ | ⟨-, hgt, -⟩ | ⟨-, -, e⟩
  · rw [e]; nofun
  · rw [e]; nofun
  · exact absurd h (Nat.not_le.2 hgt)
  · rw [e]; nofun

/-- From a tree the walk of `GEN` ends (R151). -/
theorem genEntries_neverBreaks {t : TreeBuilder} (h : t.IsTree) (g : CodeTable) : NeverBreaks (genEntries t g) := by
  obtain ⟨g', e, -⟩ := genEntries_spec h g
  rw [e]; nofun

theorem dFinish_neverBreaks (d : Decoder) : NeverBreaks (dFinish d) := by
  rcases dFinish_cases d with ⟨-, e⟩ | ⟨-, e⟩ <;> rw [e] <;> nofun

theorem uEmit_neverBreaks (h : s.dec.ocnt.toNat ≤ s.cfg.omemBytes.val) (b : Bool) : NeverBreaks (uEmit s b) := by
  intro f hf
  unfold uEmit at hf
  repeat' split at hf
  all_goals cases hf
  exact dStep_not_broken h f ‹_›

/-- A bit that leaves on `UB` keeps `OCNT` within `OMEM` (R66, R201). -/
theorem uEmit_capacity {t : State} {b : Bool} (ht : uEmit s b = .ok t) (h : s.dec.ocnt.toNat ≤ s.cfg.omemBytes.val) :
    t.dec.ocnt.toNat ≤ t.cfg.omemBytes.val := by
  unfold uEmit at ht
  repeat' split at ht
  all_goals cases ht
  · exact dStep_capacity ‹_› h
  · exact h

theorem uEmitAll_neverBreaks (h : s.dec.ocnt.toNat ≤ s.cfg.omemBytes.val) (bs : BitString) :
    NeverBreaks (uEmitAll s bs) := by
  intro f hf
  induction bs generalizing s with
  | nil => cases hf
  | cons b bs ih =>
    unfold uEmitAll at hf
    split at hf
    · cases hf
      exact uEmit_neverBreaks h b f ‹_›
    · exact ih (uEmit_capacity ‹_› h) hf

theorem takePadding_neverBreaks (v : Byte) (s : State) : NeverBreaks (takePadding v s) := by
  unfold takePadding
  split <;> nofun

theorem takeData_neverBreaks (h : s.dec.ocnt.toNat ≤ s.cfg.omemBytes.val) (v : Byte) : NeverBreaks (takeData v s) := by
  intro f hf
  unfold takeData at hf
  split at hf <;> cases hf
  exact uEmitAll_neverBreaks h _ f ‹_›

theorem releaseLast_neverBreaks (h : s.dec.ocnt.toNat ≤ s.cfg.omemBytes.val) : NeverBreaks (releaseLast s) := by
  intro f hf
  unfold releaseLast at hf
  repeat' split at hf
  all_goals cases hf
  exact uEmitAll_neverBreaks h _ f ‹_›

theorem endPayload_neverBreaks (s : State) : NeverBreaks (endPayload s) := by
  rcases endPayload_cases s with ⟨-, e⟩ | ⟨-, -, e⟩ | ⟨-, -, e⟩ <;> rw [e] <;> nofun

/-! ### The commands -/

/-- A command whose rule never breaks answers a next state. -/
theorem exec_next_of_rule {i : Instr} {body : State → Except Stop (State × Data)}
    (hb : ∀ s, exec i s = command (encode i) body s) (h : NeverBreaks (body s)) : ∃ t, exec i s = .next t := by
  rw [hb]
  rcases command_cases (encode i) body s with ⟨-, e⟩ | ⟨-, ⟨t, d, -, e⟩ | ⟨e', -, e⟩ | ⟨f, hf, -⟩⟩
  · exact ⟨_, e⟩
  · exact ⟨_, e⟩
  · exact ⟨_, e⟩
  · exact absurd hf (h f)

/-- Every command answers a next state: its rule breaks only where a micro-step does, and none does here. -/
theorem EngineInv.exec_next (h : EngineInv s) (i : Instr) : ∃ t, Machine.exec i s = .next t := by
  cases i with
  | nop | clr => exact ⟨_, rfl⟩
  | rdsr n =>
    rcases hn : s.statusReg n with _ | d
    · exact ⟨_, exec_rdsr_illegal hn⟩
    · exact ⟨_, exec_rdsr hn⟩
  | fclr | ldf | rdf | rdcl | rdcw | tclr => exact exec_next_of_rule (fun _ => rfl) nofun
  | build | rdn | rdnf | tsym | tbit | tend | tchk | uinit | dinit =>
    refine exec_next_of_rule (fun _ => rfl) fun f hf => ?_
    repeat' split at hf
    all_goals cases hf
  | pinit =>
    refine exec_next_of_rule (fun _ => rfl) fun f hf => ?_
    rw [storeByte_ok s.cfg.pmemBytes_pos] at hf
    cases hf
  | gen =>
    refine exec_next_of_rule (fun _ => rfl) fun f hf => ?_
    repeat' split at hf
    all_goals cases hf
    exact genEntries_neverBreaks (h.tree.valid ‹_›) _ f ‹_›
  | pbit b =>
    refine exec_next_of_rule (fun _ => rfl) fun f hf => ?_
    repeat' split at hf
    all_goals cases hf
    exact pPush_neverBreaks h.pack.capacity b f ‹_›
  | enc x =>
    refine exec_next_of_rule (fun _ => rfl) fun f hf => ?_
    repeat' split at hf
    all_goals cases hf
    exact pPushAll_neverBreaks h.pack.capacity _ f ‹_›
  | pflush =>
    refine exec_next_of_rule (fun _ => rfl) fun f hf => ?_
    repeat' split at hf
    all_goals cases hf
    exact flush_neverBreaks h.pack.capacity f ‹_›
  | rdp a =>
    refine exec_next_of_rule (fun _ => rfl) fun f hf => ?_
    repeat' split at hf
    all_goals cases hf
    exact loadByte_neverBreaks (h.pack.written _ (Nat.not_le.1 ‹_›)) f ‹_›
  | rdo a =>
    refine exec_next_of_rule (fun _ => rfl) fun f hf => ?_
    repeat' split at hf
    all_goals cases hf
    exact loadByte_neverBreaks (h.dec.written _ (Nat.not_le.1 ‹_›)) f ‹_›
  | dbit b =>
    refine exec_next_of_rule (fun _ => rfl) fun f hf => ?_
    repeat' split at hf
    all_goals cases hf
    exact dStep_not_broken h.dec.capacity f ‹_›
  | dend =>
    refine exec_next_of_rule (fun _ => rfl) fun f hf => ?_
    repeat' split at hf
    all_goals cases hf
    exact dFinish_neverBreaks _ f ‹_›
  | ubyte v =>
    refine exec_next_of_rule (fun _ => rfl) fun f hf => ?_
    repeat' split at hf
    all_goals cases hf
    rename_i hr
    split at hr
    · exact takePadding_neverBreaks v s f hr
    · exact takeData_neverBreaks h.dec.capacity v f hr
  | uend =>
    refine exec_next_of_rule (fun _ => rfl) fun f hf => ?_
    repeat' split at hf
    all_goals cases hf
    · exact releaseLast_neverBreaks h.dec.capacity f ‹_›
    · exact endPayload_neverBreaks _ f ‹_›

end

/-- Settles O59: a step that runs no command answers at once, and one that runs a command by `EngineInv.exec_next`. -/
theorem stepsNeverStop : Obligations.StepsNeverStop := by
  intro s h
  rcases hq : s.port.inq with _ | ⟨w | _, rest⟩
  · exact ⟨_, step_of_nothing hq⟩
  · rcases hd : decode w with e | i
    · exact ⟨_, step_of_illegal hq hd⟩
    · obtain ⟨t, ht⟩ := (h.with_port { s.port with inq := rest }).exec_next i
      exact ⟨t, (step_of_legal hq hd).trans ht⟩
  · exact ⟨_, step_of_rst hq⟩

end Sys2Proof.Machine
end

section
/-! Two runs that differ at most in what reset leaves unspecified (R281, log entry 4), unit by unit: each micro-step ends
in both runs alike, by the same stop or with units that again differ at most there. -/

namespace Sys2Proof.Machine

/-! ### Ends of two micro-steps -/

/-- Both end by the same stop, or both end normally with results that `R` relates. -/
def EndAlike {α : Type} (R : α → α → Prop) (r r' : Except Stop α) : Prop :=
  (∃ e, r = .error e ∧ r' = .error e) ∨ ∃ a b, r = .ok a ∧ r' = .ok b ∧ R a b

theorem EndAlike.error {α : Type} {R : α → α → Prop} (e : Stop) : EndAlike R (.error e) (.error e) :=
  .inl ⟨e, rfl, rfl⟩

theorem EndAlike.ok {α : Type} {R : α → α → Prop} {a b : α} (h : R a b) : EndAlike R (.ok a) (.ok b) :=
  .inr ⟨a, b, rfl, rfl, h⟩

/-- A check that both runs decide alike. -/
theorem EndAlike.ite {α : Type} {R : α → α → Prop} {c c' : Prop} [Decidable c] [Decidable c']
    {r q r' q' : Except Stop α} (hc : c' ↔ c) (ht : c → EndAlike R r r') (he : ¬ c → EndAlike R q q') :
    EndAlike R (if c then r else q) (if c' then r' else q') := by
  by_cases h : c
  · rw [if_pos h, if_pos (hc.2 h)]
    exact ht h
  · rw [if_neg h, if_neg (mt hc.1 h)]
    exact he h

/-! ### Memories -/

/-- The two memories read alike below `n`. -/
def AgreeBelow (n : Nat) (m m' : Memory) : Prop := ∀ a, a < n → m'.read a = m.read a

section
variable {n : Nat} {m m' : Memory}

theorem AgreeBelow.mono (h : AgreeBelow n m m') {k : Nat} (hk : k ≤ n) : AgreeBelow k m m' :=
  fun a ha => h a (Nat.lt_of_lt_of_le ha hk)

theorem AgreeBelow.write (h : AgreeBelow n m m') (a : Nat) (v : Byte) : AgreeBelow n (m.write a v) (m'.write a v) := by
  intro b hb
  rw [Memory.read_write, Memory.read_write, h b hb]

/-- The same byte written at the end extends the part that agrees. -/
theorem AgreeBelow.push (h : AgreeBelow n m m') (v : Byte) : AgreeBelow (n + 1) (m.write n v) (m'.write n v) := by
  intro b hb
  rw [Memory.read_write, Memory.read_write]
  split
  · rfl
  · exact h b (by omega)

/-- The pointer to the byte after the one written. -/
theorem AgreeBelow.next {w : BitVec 33} (h : AgreeBelow (w.toNat + 1) m m') : AgreeBelow (w + 1#33).toNat m m' :=
  h.mono (by rw [BitVec.toNat_add]; exact Nat.mod_le ..)

theorem storeByte_alike {size a : Nat} {v : Byte} (h : AgreeBelow n (m.write a v) (m'.write a v)) :
    EndAlike (AgreeBelow n) (storeByte size m a v) (storeByte size m' a v) :=
  .ite Iff.rfl (fun _ => .ok h) fun _ => .error _

theorem loadByte_congr {a : Nat} (h : m'.read a = m.read a) : loadByte m' a = loadByte m a := by
  unfold loadByte
  rw [h]

end

/-! ### Bit Packer -/

/-- The two packers differ at most in the bytes at and beyond `PWP`. -/
def SamePacker (p q : Packer) : Prop := ∃ m, q = { p with pmem := m } ∧ AgreeBelow p.pwp.toNat p.pmem m

section
variable {c d : Config} {p q : Packer}

/-- `PINIT` starts a payload whose one byte it writes itself (R180). -/
theorem SamePacker.start (m m' : Memory) : SamePacker (.start (m.write 0 0#8)) (.start (m'.write 0 0#8)) :=
  ⟨_, rfl, AgreeBelow.push (fun a ha => absurd ha (Nat.not_lt_zero a)) 0#8⟩

theorem SamePacker.pPush (h : SamePacker p q) (hc : d = c) (b : Bool) :
    EndAlike SamePacker (pPush c p b) (pPush d q b) := by
  subst hc
  obtain ⟨m, rfl, hm⟩ := h
  unfold Machine.pPush
  refine .ite Iff.rfl (fun _ => .error _) fun _ => .ite Iff.rfl (fun _ => ?_) fun _ => .ok ⟨m, rfl, hm⟩
  rcases storeByte_alike (size := d.pmemBytes) (hm.push (shiftIn p.pacc b)) with ⟨e, hs, hu⟩ | ⟨m1, m2, hs, hu, h12⟩ <;>
    simp only [hs, hu]
  · exact .error e
  · exact .ok ⟨m2, rfl, h12.next⟩

theorem SamePacker.pPushAll (h : SamePacker p q) (hc : d = c) (bs : BitString) :
    EndAlike SamePacker (pPushAll c p bs) (pPushAll d q bs) := by
  induction bs generalizing p q with
  | nil => exact .ok h
  | cons b bs ih =>
    rcases h.pPush hc b with ⟨e, hs, hu⟩ | ⟨p1, q1, hs, hu, h1⟩
    · rw [pPushAll_cons_error hs, pPushAll_cons_error hu]
      exact .error e
    · rw [pPushAll_cons_ok hs, pPushAll_cons_ok hu]
      exact ih h1

theorem SamePacker.padCount_eq (h : SamePacker p q) : padCount q = padCount p := by
  obtain ⟨m, rfl, -⟩ := h
  rfl

theorem SamePacker.writePartial (h : SamePacker p q) (hc : d = c) :
    EndAlike SamePacker (writePartial c p) (writePartial d q) := by
  subst hc
  have hpad := h.padCount_eq
  obtain ⟨m, rfl, hm⟩ := h
  unfold Machine.writePartial
  refine .ite Iff.rfl (fun _ => .ok ⟨m, rfl, hm⟩) fun _ => .ite Iff.rfl (fun _ => .error _) fun _ => ?_
  rw [hpad]
  rcases storeByte_alike (size := d.pmemBytes) (hm.push (p.pacc <<< padCount p)) with
    ⟨e, hs, hu⟩ | ⟨m1, m2, hs, hu, h12⟩ <;> simp only [hs, hu]
  · exact .error e
  · exact .ok ⟨m2, rfl, h12.next⟩

theorem SamePacker.flush (h : SamePacker p q) (hc : d = c) : EndAlike SamePacker (flush c p) (flush d q) := by
  subst hc
  unfold Machine.flush
  rw [h.padCount_eq]
  rcases h.writePartial (rfl : d = d) with ⟨e, hs, hu⟩ | ⟨p1, q1, hs, hu, m, rfl, hm⟩ <;> simp only [hs, hu]
  · exact .error e
  rcases storeByte_alike (size := d.pmemBytes) (hm.write 0 (BitVec.ofNat 8 (padCount p))) with
    ⟨e, hs, hu⟩ | ⟨m1, m2, hs, hu, h12⟩ <;> simp only [hs, hu]
  · exact .error e
  · exact .ok ⟨m2, rfl, h12⟩

end

/-! ### Code Table -/

/-- The two entries are the same, or both are dead. -/
def SameEntry (e e' : CodeEntry) : Prop := e'.v = e.v ∧ (e.v = true → e' = e)

/-- What takes all dead entries for one takes the two entries for one. -/
theorem SameEntry.congr {e e' : CodeEntry} (h : SameEntry e e') {α : Type} (f : CodeEntry → α)
    (hf : ∀ a b : CodeEntry, a.v = false → b.v = false → f b = f a) : f e' = f e := by
  obtain ⟨hv, heq⟩ := h
  cases h : e.v
  · exact hf e e' h (hv.trans h)
  · rw [heq h]

theorem sameEntry_of_iff {e e' : CodeEntry}
    (h : ∀ c, (e'.v = true ∧ e'.code = c) ↔ (e.v = true ∧ e.code = c)) : SameEntry e e' := by
  refine ⟨Bool.eq_iff_iff.2 ⟨fun hv => ((h _).1 ⟨hv, rfl⟩).1, fun hv => ((h _).2 ⟨hv, rfl⟩).1⟩, fun hv => ?_⟩
  obtain ⟨hv', hc⟩ := (h _).2 ⟨hv, rfl⟩
  cases e; cases e'
  simp_all

/-- The two tables differ at most in the codes of dead entries and in the scratch while no entry is open. -/
structure SameTable (g g' : CodeTable) : Prop where
  flags : g'.ctValid = g.ctValid ∧ g'.nent = g.nent ∧ g'.topen = g.topen ∧ g'.wstk = g.wstk
  entry : ∀ x, SameEntry (g.entry x) (g'.entry x)
  opened : g.topen = true → g'.ts = g.ts ∧ g'.tc = g.tc

section
variable {g g' : CodeTable}

/-- What sees only live entries sees the same cells in both tables. -/
theorem SameTable.map_cells (h : SameTable g g') {α : Type} (f : CodeEntry → α)
    (hf : ∀ a b : CodeEntry, a.v = false → b.v = false → f b = f a) : g'.ct.cells.map f = g.ct.cells.map f := by
  refine List.ext_getElem (by simp [g.ct.size, g'.ct.size]) fun j hj _ => ?_
  rw [List.length_map, g'.ct.size] at hj
  simp only [List.getElem_map, CodeTable.cells_getElem _ hj]
  exact (h.entry _).congr f hf

theorem SameTable.tclr (h : SameTable g g') :
    SameTable { g.clearEntries with nent := 0#9, ctValid := false, topen := false }
      { g'.clearEntries with nent := 0#9, ctValid := false, topen := false } where
  flags := ⟨rfl, rfl, rfl, h.flags.2.2.2⟩
  entry x := ⟨(g'.clearEntries_dead x).trans (g.clearEntries_dead x).symm,
    fun hv => nomatch (g.clearEntries_dead x).symm.trans hv⟩
  opened := nofun

theorem SameTable.tsym (h : SameTable g g') (x : Symbol) :
    SameTable { g with topen := true, ts := x, tc := [], ctValid := false }
      { g' with topen := true, ts := x, tc := [], ctValid := false } where
  flags := ⟨rfl, h.flags.2.1, rfl, h.flags.2.2.2⟩
  entry := h.entry
  opened _ := ⟨rfl, rfl⟩

/-- While an entry is open the scratch is the same, so the same bit extends it. -/
theorem SameTable.tbit (h : SameTable g g') (ho : g.topen = true) (b : Bool) :
    SameTable { g with tc := g.tc ++ [b] } { g' with tc := g'.tc ++ [b] } where
  flags := h.flags
  entry := h.entry
  opened _ := ⟨(h.opened ho).1, congrArg (· ++ [b]) (h.opened ho).2⟩

/-- While an entry is open the scratch is the same, so the same entry is recorded. -/
theorem SameTable.tend (h : SameTable g g') (ho : g.topen = true) :
    SameTable { g.record g.ts g.tc with nent := g.nent + 1#9, topen := false }
      { g'.record g'.ts g'.tc with nent := g'.nent + 1#9, topen := false } where
  flags := ⟨h.flags.1, congrArg (· + 1#9) h.flags.2.1, rfl, h.flags.2.2.2⟩
  entry x := by
    show SameEntry ((g.record g.ts g.tc).entry x) ((g'.record g'.ts g'.tc).entry x)
    obtain ⟨hts, htc⟩ := h.opened ho
    rw [CodeTable.entry_record, CodeTable.entry_record, hts, htc]
    split
    · exact ⟨rfl, fun _ => rfl⟩
    · exact h.entry x
  opened := nofun

theorem SameTable.tchk (h : SameTable g g') : SameTable { g with ctValid := true } { g' with ctValid := true } :=
  { h with flags := ⟨rfl, h.flags.2⟩ }

theorem SameTable.symbolOf (h : SameTable g g') (c : BitString) : g'.symbolOf c = g.symbolOf c := by
  have e := congrArg (List.findIdx? id) (h.map_cells (fun e => e.v && e.code == c) fun a b ha hb => by simp [ha, hb])
  simp only [List.findIdx?_map, Function.id_comp] at e
  exact congrArg (Option.map (BitVec.ofNat 8)) e

theorem SameTable.extendable (h : SameTable g g') (c : BitString) : g'.extendable c = g.extendable c := by
  have e := congrArg (List.any · id) (h.map_cells
    (fun e => e.v && (c.isPrefixOf e.code && decide (c.length < e.code.length))) fun a b ha hb => by simp [ha, hb])
  simp only [List.any_map, Function.id_comp] at e
  exact e

theorem SameTable.ambig (h : SameTable g g') : ambig g'.ct = ambig g.ct := by
  have e := congrArg (List.filterMap id) (h.map_cells (fun e => if e.v then some e.code else none)
    fun a b ha hb => by simp [ha, hb])
  simp only [List.filterMap_map, Function.id_comp] at e
  exact congrArg anyCollide e

end

/-! ### Decoder -/

/-- The two decoders differ at most in the bytes at and beyond `OCNT`. -/
def SameDecoder (d e : Decoder) : Prop := ∃ m, e = { d with omem := m } ∧ AgreeBelow d.ocnt.toNat d.omem m

section
variable {d e : Decoder}

theorem SameDecoder.start (h : SameDecoder d e) : SameDecoder d.start e.start := by
  obtain ⟨m, rfl, -⟩ := h
  exact ⟨m, rfl, fun a ha => absurd ha (Nat.not_lt_zero a)⟩

theorem SameDecoder.dStep (h : SameDecoder d e) {g g' : CodeTable} (hg : SameTable g g') {c k : Config} (hc : k = c)
    (b : Bool) : EndAlike SameDecoder (dStep c g d b) (dStep k g' e b) := by
  subst hc
  obtain ⟨m, rfl, hm⟩ := h
  unfold Machine.dStep
  rw [hg.symbolOf, hg.extendable]
  rcases g.symbolOf (d.dcand ++ [b]) with _ | x
  · exact .ite Iff.rfl (fun _ => .ok ⟨m, rfl, hm⟩) fun _ => .error _
  · refine .ite Iff.rfl (fun _ => .error _) fun _ => ?_
    rcases storeByte_alike (size := k.omemBytes.val) (hm.push x) with ⟨r, hs, hu⟩ | ⟨m1, m2, hs, hu, h12⟩ <;>
      simp only [hs, hu]
    · exact .error r
    · exact .ok ⟨m2, rfl, h12.next⟩

theorem SameDecoder.dFinish (h : SameDecoder d e) : EndAlike SameDecoder (dFinish d) (dFinish e) := by
  obtain ⟨m, rfl, hm⟩ := h
  exact .ite Iff.rfl (fun _ => .ok ⟨m, rfl, hm⟩) fun _ => .error _

end

/-! ### Tree Builder -/

/-- The two node stores have the same live nodes. -/
def SameNodes (t u : TreeBuilder) : Prop :=
  ∀ j, (u.nodeAt j).v = (t.nodeAt j).v ∧ ((t.nodeAt j).v = true → u.nodeAt j = t.nodeAt j)

/-- The two Tree Builders differ at most in the fields of dead nodes. -/
structure SameBuilder (t u : TreeBuilder) : Prop where
  regs : u.freq = t.freq ∧ u.treeValid = t.treeValid ∧ u.nleaf = t.nleaf ∧ u.root = t.root ∧ u.heap = t.heap
  node : SameNodes t u

section
variable {t u : TreeBuilder}

theorem SameNodes.linksData (h : SameNodes t u) (j : NodeIdx) : linksData u j = linksData t j := by
  obtain ⟨hv, heq⟩ := h j
  cases hl : (t.nodeAt j).v
  · rw [linksData_dead hl, linksData_dead (hv.trans hl)]
  · unfold Machine.linksData
    rw [heq hl]

theorem SameNodes.freqData (h : SameNodes t u) (j : NodeIdx) : freqData u j = freqData t j := by
  obtain ⟨hv, heq⟩ := h j
  cases hl : (t.nodeAt j).v
  · rw [freqData_dead hl, freqData_dead (hv.trans hl)]
  · rw [freqData_live hl, freqData_live (hv.trans hl), heq hl]

/-- From a live node the same paths lead to the same nodes: they run through live nodes only (R25 (c)). -/
theorem SameNodes.follow (h : SameNodes t u) (hd : t.Descends) {n : NodeIdx} (hn : (t.nodeAt n).v = true)
    (c : BitString) : u.follow n c = t.follow n c := by
  induction c generalizing n with
  | nil => rw [TreeBuilder.follow_nil, TreeBuilder.follow_nil]
  | cons b c ih =>
    by_cases hl : n.toNat < 256
    · simp [TreeBuilder.follow, hl]
    · have h256 := Nat.not_lt.1 hl
      obtain ⟨-, ⟨-, hlive⟩, ⟨-, hrive⟩⟩ := hd n h256 hn
      rw [TreeBuilder.follow_cons h256, TreeBuilder.follow_cons h256, (h n).2 hn]
      cases b
      · exact ih hlive
      · exact ih hrive

/-- `BUILD` reads the counts alone, so it leaves the same tree (R123). -/
theorem SameBuilder.buildTree (h : SameBuilder t u) {c d : Config} (hc : d = c) (hn : t.noSymbols = false) :
    SameBuilder (buildTree c t) (buildTree d u) := by
  subst hc
  obtain ⟨hf, -⟩ := h.regs
  have hn' : u.noSymbols = false := by rwa [TreeBuilder.noSymbols, hf]
  have hsame := poolBuild_congr hf (rfl : d.ties = d.ties) (rfl : d.child = d.child)
  rw [← buildTree_eq_poolBuild d hn, ← buildTree_eq_poolBuild d hn'] at hsame
  obtain ⟨hroot, hnleaf, hnode⟩ := hsame
  exact ⟨⟨by rw [buildTree_freq, buildTree_freq, hf], rfl, hnleaf, hroot, rfl⟩, hnode⟩

/-- `GEN` reads the live nodes alone, so it leaves the same table, whatever the dead entries held before (R150). -/
theorem SameBuilder.gen (h : SameBuilder t u) (ht : t.IsTree) (hu : u.IsTree) {g g' : CodeTable} (hg : SameTable g g') :
    EndAlike (fun k k' => SameTable { k with nent := t.nleaf, ctValid := true }
        { k' with nent := u.nleaf, ctValid := true })
      (genEntries t { g.clearEntries with topen := false }) (genEntries u { g'.clearEntries with topen := false }) := by
  obtain ⟨-, -, hnleaf, hroot, -⟩ := h.regs
  obtain ⟨-, -, -, hwstk⟩ := hg.flags
  obtain ⟨k, e, hw, ho, -⟩ := genEntries_spec ht { g.clearEntries with topen := false }
  obtain ⟨k', e', hw', ho', -⟩ := genEntries_spec hu { g'.clearEntries with topen := false }
  have hdead (f : CodeTable) (x : Symbol) : (({ f.clearEntries with topen := false } : CodeTable).entry x).v = false :=
    f.clearEntries_dead x
  have hentry (x : Symbol) : SameEntry (k.entry x) (k'.entry x) := by
    refine sameEntry_of_iff fun c => ?_
    rw [genEntries_iff hu (hdead g') e', genEntries_iff ht (hdead g) e, hroot]
    simp only [h.node.follow ht.descends ht.rootAt.1]
  refine .inr ⟨k, k', e, e', ?_⟩
  exact
    { flags := ⟨rfl, hnleaf, ho'.trans ho.symm, hw'.trans (hwstk.trans hw.symm)⟩
      entry := hentry
      opened := fun hopen => nomatch ho.symm.trans hopen }

end

end Sys2Proof.Machine
end

section
/-! Two states that differ at most in what reset leaves unspecified (R281): their units, what a check of a command looks
at, and the micro-steps of the Bit Unpacker, which run over the whole state (R201 to R203). -/

namespace Sys2Proof.Machine

section
variable {s u : State}

theorem SameSpecified.refl (s : State) : SameSpecified s s where
  cfg := rfl
  port := rfl
  flt := rfl
  tree := ⟨rfl, rfl, rfl, rfl, rfl⟩
  node _ := ⟨rfl, fun _ => rfl⟩
  table := ⟨rfl, rfl, rfl, rfl⟩
  ct _ := ⟨rfl, fun _ => rfl⟩
  opened _ := ⟨rfl, rfl⟩
  pack := rfl
  pmem _ _ := rfl
  unpack := rfl
  held _ := rfl
  dec := rfl
  omem _ _ := rfl

/-! ### The units of two such states -/

theorem SameSpecified.builder (h : SameSpecified s u) : SameBuilder s.tree u.tree := ⟨h.tree, h.node⟩

theorem SameSpecified.codeTable (h : SameSpecified s u) : SameTable s.table u.table := ⟨h.table, h.ct, h.opened⟩

theorem SameSpecified.packer (h : SameSpecified s u) : SamePacker s.pack u.pack :=
  ⟨u.pack.pmem, congrArg (fun p : Packer => { p with pmem := u.pack.pmem }) h.pack, h.pmem⟩

theorem SameSpecified.decoder (h : SameSpecified s u) : SameDecoder s.dec u.dec :=
  ⟨u.dec.omem, congrArg (fun d : Decoder => { d with omem := u.dec.omem }) h.dec, h.omem⟩

theorem SameSpecified.with_tree (h : SameSpecified s u) {t t' : TreeBuilder} (ht : SameBuilder t t') :
    SameSpecified { s with tree := t } { u with tree := t' } :=
  { h with tree := ht.regs, node := ht.node }

theorem SameSpecified.with_table (h : SameSpecified s u) {g g' : CodeTable} (hg : SameTable g g') :
    SameSpecified { s with table := g } { u with table := g' } :=
  { h with table := hg.flags, ct := hg.entry, opened := hg.opened }

theorem SameSpecified.with_pack (h : SameSpecified s u) {p q : Packer} (hp : SamePacker p q) :
    SameSpecified { s with pack := p } { u with pack := q } := by
  obtain ⟨m, rfl, hm⟩ := hp
  exact { h with pack := rfl, pmem := hm }

theorem SameSpecified.with_dec (h : SameSpecified s u) {d e : Decoder} (hd : SameDecoder d e) :
    SameSpecified { s with dec := d } { u with dec := e } := by
  obtain ⟨m, rfl, hm⟩ := hd
  exact { h with dec := rfl, omem := hm }

theorem SameSpecified.with_port (h : SameSpecified s u) {p q : Port} (hq : q = p) :
    SameSpecified { s with port := p } { u with port := q } :=
  { h with port := hq }

theorem SameSpecified.respond (h : SameSpecified s u) (c : RspCode) (d : Data) :
    SameSpecified (s.respond c d) (u.respond c d) :=
  h.with_port (congrArg (fun p : Port => { p with rsps := p.rsps ++ [(⟨c, d⟩ : Rsp)] }) h.port)

theorem SameSpecified.raiseFault (h : SameSpecified s u) (e : ErrCode) (w : CmdWord) :
    SameSpecified (s.raiseFault e w) (u.raiseFault e w) :=
  { h.respond (.fault e) 0#64 with flt := rfl }

/-! ### What a check looks at -/

theorem SameSpecified.faulted (h : SameSpecified s u) : u.faulted = s.faulted :=
  congrArg (fun f : FaultRegs => f.err.isSome) h.flt

theorem SameSpecified.freq (h : SameSpecified s u) : u.tree.freq = s.tree.freq := h.tree.1

theorem SameSpecified.heap (h : SameSpecified s u) : u.tree.heap = s.tree.heap := h.tree.2.2.2.2

theorem SameSpecified.treeValid (h : SameSpecified s u) : u.tree.treeValid = s.tree.treeValid := h.tree.2.1

theorem SameSpecified.ctValid (h : SameSpecified s u) : u.table.ctValid = s.table.ctValid := h.table.1

theorem SameSpecified.topen (h : SameSpecified s u) : u.table.topen = s.table.topen := h.table.2.2.1

theorem SameSpecified.pstate (h : SameSpecified s u) : u.pack.pstate = s.pack.pstate := (congrArg Packer.pstate h.pack :)

theorem SameSpecified.pwp (h : SameSpecified s u) : u.pack.pwp = s.pack.pwp := (congrArg Packer.pwp h.pack :)

theorem SameSpecified.ustate (h : SameSpecified s u) : u.unpack.ustate = s.unpack.ustate :=
  (congrArg Unpacker.ustate h.unpack :)

theorem SameSpecified.umode (h : SameSpecified s u) : u.unpack.umode = s.unpack.umode := (congrArg Unpacker.umode h.unpack :)

theorem SameSpecified.upad (h : SameSpecified s u) : u.unpack.upad = s.unpack.upad := (congrArg Unpacker.upad h.unpack :)

theorem SameSpecified.uholdv (h : SameSpecified s u) : u.unpack.uholdv = s.unpack.uholdv :=
  (congrArg Unpacker.uholdv h.unpack :)

theorem SameSpecified.dstate (h : SameSpecified s u) : u.dec.dstate = s.dec.dstate := (congrArg Decoder.dstate h.dec :)

theorem SameSpecified.ocnt (h : SameSpecified s u) : u.dec.ocnt = s.dec.ocnt := (congrArg Decoder.ocnt h.dec :)

theorem SameSpecified.taking (h : SameSpecified s u) : u.unpack.taking = s.unpack.taking := by
  rw [Unpacker.taking, Unpacker.taking, h.ustate]

theorem SameSpecified.decoding (h : SameSpecified s u) : u.decoding = s.decoding := by
  rw [State.decoding, State.decoding, h.dstate, h.ctValid]

theorem SameSpecified.linked (h : SameSpecified s u) : u.linked = s.linked := by
  rw [State.linked, State.linked, h.umode, h.decoding]

theorem SameSpecified.entry_v (h : SameSpecified s u) (x : Symbol) : (u.table.entry x).v = (s.table.entry x).v :=
  (h.ct x).1

/-- The status registers show no unspecified value (R46, R47). -/
theorem SameSpecified.statusReg (h : SameSpecified s u) (n : BitVec 8) : u.statusReg n = s.statusReg n := by
  obtain ⟨-, -, hnleaf, hroot, -⟩ := h.tree
  obtain ⟨-, hnent, -, -⟩ := h.table
  have hpbitcnt : u.pack.pbitcnt = s.pack.pbitcnt := (congrArg Packer.pbitcnt h.pack :)
  have hppad : u.pack.ppad = s.pack.ppad := (congrArg Packer.ppad h.pack :)
  have hubitcnt : u.unpack.ubitcnt = s.unpack.ubitcnt := (congrArg Unpacker.ubitcnt h.unpack :)
  have hdcand : u.dec.dcand = s.dec.dcand := (congrArg Decoder.dcand h.dec :)
  simp only [State.statusReg, State.status, h.faulted, h.flt, h.treeValid, hnleaf, hroot, h.ctValid, h.topen, hnent,
    h.pstate, h.pwp, hpbitcnt, hppad, h.ustate, h.umode, hubitcnt, h.dstate, h.ocnt, hdcand]

/-! ### Bit Unpacker -/

theorem SameSpecified.emit (h : SameSpecified s u) (b : Bool) : SameSpecified (s.emit b) (u.emit b) :=
  { h with
    port := congrArg (fun p : Port => { p with ub := p.ub ++ [b] }) h.port
    unpack := congrArg (fun k : Unpacker => { k with ubitcnt := k.ubitcnt + 1#64 }) h.unpack }

theorem SameSpecified.hold (h : SameSpecified s u) (v : Byte) : SameSpecified (s.hold v) (u.hold v) :=
  { h with
    unpack := congrArg (fun k : Unpacker => { k with uhold := v, uholdv := true }) h.unpack
    held := fun _ => rfl }

theorem SameSpecified.uEmit (h : SameSpecified s u) (b : Bool) : EndAlike SameSpecified (uEmit s b) (uEmit u b) := by
  unfold Machine.uEmit
  refine .ite (by rw [h.umode]) (fun _ => ?_) fun _ => .ok (h.emit b)
  rcases h.decoder.dStep h.codeTable h.cfg b with ⟨e, hs, hu⟩ | ⟨d, d', hs, hu, hd⟩ <;> simp only [hs, hu]
  · exact .error e
  · exact .ok ((h.emit b).with_dec hd)

theorem SameSpecified.uEmitAll (h : SameSpecified s u) (bs : BitString) :
    EndAlike SameSpecified (uEmitAll s bs) (uEmitAll u bs) := by
  induction bs generalizing s u with
  | nil => exact .ok h
  | cons b bs ih =>
    unfold Machine.uEmitAll
    rcases h.uEmit b with ⟨e, hs, hu⟩ | ⟨s1, u1, hs, hu, h1⟩ <;> simp only [hs, hu]
    · exact .error e
    · exact ih h1

theorem SameSpecified.takePadding (h : SameSpecified s u) (v : Byte) :
    EndAlike SameSpecified (takePadding v s) (takePadding v u) :=
  .ite Iff.rfl (fun _ => .error _) fun _ => .ok
    { h with unpack := congrArg (fun k : Unpacker => { k with upad := v.setWidth 3, ustate := .data }) h.unpack }

/-- The byte held is released only while one is held (R202). -/
theorem SameSpecified.takeData (h : SameSpecified s u) (v : Byte) :
    EndAlike SameSpecified (takeData v s) (takeData v u) := by
  have hbits : (if u.unpack.uholdv then byteBits u.unpack.uhold else []) =
      if s.unpack.uholdv then byteBits s.unpack.uhold else [] := by
    rw [h.uholdv]
    split
    · rw [h.held ‹_›]
    · rfl
  unfold Machine.takeData
  rw [hbits]
  rcases h.uEmitAll (if s.unpack.uholdv then byteBits s.unpack.uhold else []) with
    ⟨e, hs, hu⟩ | ⟨s1, u1, hs, hu, h1⟩ <;> simp only [hs, hu]
  · exact .error e
  · exact .ok (h1.hold v)

theorem SameSpecified.releaseLast (h : SameSpecified s u) : EndAlike SameSpecified (releaseLast s) (releaseLast u) := by
  unfold Machine.releaseLast
  refine .ite (by rw [h.ustate]) (fun _ => .ite (by rw [h.uholdv]) (fun hv => ?_)
    fun _ => .ite (by rw [h.upad]) (fun _ => .ok h) fun _ => .error _) fun _ => .ok h
  rw [h.held hv, h.upad]
  rcases h.uEmitAll ((byteBits s.unpack.uhold).take (8 - s.unpack.upad.toNat)) with
    ⟨e, hs, hu⟩ | ⟨s1, u1, hs, hu, h1⟩ <;> simp only [hs, hu]
  · exact .error e
  · exact .ok { h1 with unpack := congrArg (fun k : Unpacker => { k with uholdv := false }) h1.unpack, held := nofun }

theorem SameSpecified.endPayload (h : SameSpecified s u) : EndAlike SameSpecified (endPayload s) (endPayload u) := by
  have hdone : SameSpecified { s with unpack := { s.unpack with ustate := .done } }
      { u with unpack := { u.unpack with ustate := .done } } :=
    { h with unpack := congrArg (fun k : Unpacker => { k with ustate := .done }) h.unpack }
  unfold Machine.endPayload
  refine .ite (by rw [hdone.umode]) (fun _ => ?_) fun _ => .ok hdone
  rcases hdone.decoder.dFinish with ⟨e, hs, hu⟩ | ⟨d, d', hs, hu, hd⟩ <;> simp only [hs, hu]
  · exact .error e
  · exact .ok (hdone.with_dec hd)

end

end Sys2Proof.Machine
end

section
/-! What reset leaves unspecified is never observed (R281, R66): each command, and so each step, answers alike in two
states that differ at most there. -/

namespace Sys2Proof.Machine

/-- The two rules end normally in such states, with the same data. -/
def SameAnswer (a b : State × Data) : Prop := SameSpecified a.1 b.1 ∧ b.2 = a.2

/-- Where the first run goes on, the second does, and they go on to such states. -/
def GoOnAlike (r r' : Host.Outcome State Fault Refusal) : Prop :=
  ∀ t, r = .next t → ∃ v, r' = .next v ∧ SameSpecified t v

theorem GoOnAlike.next {t v : State} (h : SameSpecified t v) : GoOnAlike (.next t) (.next v) := by
  intro t' ht
  cases ht
  exact ⟨v, rfl, h⟩

section
variable {s u : State}

/-- A rule that ends with no data of its own. -/
theorem EndAlike.ended (h : SameSpecified s u) : EndAlike SameAnswer (ended s) (ended u) := .ok ⟨h, rfl⟩

/-- Two rules that end alike answer alike under the order of checks of R254. -/
theorem SameSpecified.exec_of_rule {i : Instr} {body : State → Except Stop (State × Data)}
    (hb : ∀ s, exec i s = command (encode i) body s) (h : SameSpecified s u)
    (hr : EndAlike SameAnswer (body s) (body u)) : GoOnAlike (exec i s) (exec i u) := by
  rw [hb, hb]
  unfold command
  rw [h.faulted]
  split
  · exact .next (h.respond .faulted 0#64)
  · rcases hr with ⟨e | f, hs, hu⟩ | ⟨⟨t, d⟩, ⟨v, d'⟩, hs, hu, htv, hd⟩ <;> rw [hs, hu]
    · exact .next (h.raiseFault e (encode i))
    · exact fun t ht => nomatch ht
    · obtain rfl : d' = d := hd
      exact .next (htv.respond .ok d')

/-- A rule that changes nothing and answers the same data. -/
theorem SameSpecified.read (h : SameSpecified s u) {d d' : Data} (hd : d' = d) :
    EndAlike SameAnswer (.ok (s, d)) (.ok (u, d')) := .ok ⟨h, hd⟩

theorem SameSpecified.illegalWord (h : SameSpecified s u) (w : CmdWord) :
    SameSpecified (s.illegalWord w) (u.illegalWord w) := by
  unfold State.illegalWord
  rw [h.faulted]
  split
  · exact h.respond .faulted 0#64
  · exact h.raiseFault .ill w

/-- `CLR` and `rst` leave one and the same state (R50, log entry 4). -/
theorem SameSpecified.clearAll (h : SameSpecified s u) : SameSpecified s.clearAll u.clearAll := by
  rw [State.clearAll, State.clearAll, h.cfg, h.port]
  exact .refl _

/-- Every command goes on alike: its checks decide alike, and so do the micro-steps that it runs. The
invariant serves `GEN`, which walks a tree in both states. -/
theorem SameSpecified.exec (hi : EngineInv s) (hi' : EngineInv u) (h : SameSpecified s u) (i : Instr) :
    GoOnAlike (exec i s) (exec i u) := by
  cases i with
  | nop => exact .next (h.respond .ok 0#64)
  | clr => exact .next (h.clearAll.respond .ok 0#64)
  | rdsr n =>
    rcases hn : s.statusReg n with _ | d
    · rw [exec_rdsr_illegal hn, exec_rdsr_illegal ((h.statusReg n).trans hn)]
      exact .next (h.illegalWord _)
    · rw [exec_rdsr hn, exec_rdsr ((h.statusReg n).trans hn)]
      exact .next (h.respond .ok d)
  | fclr =>
    refine h.exec_of_rule (fun _ => rfl) (.ended (h.with_tree ?_))
    exact ⟨⟨rfl, rfl, rfl, rfl, h.heap⟩, h.node⟩
  | ldf x n =>
    refine h.exec_of_rule (fun _ => rfl) (.ended (h.with_tree ?_))
    exact ⟨⟨congrArg (RegFile.set · x.toFin n) h.freq, rfl, rfl, rfl, h.heap⟩, h.node⟩
  | rdf x =>
    refine h.exec_of_rule (fun _ => rfl) (h.read ?_)
    rw [TreeBuilder.freqAt_congr h.freq]
  | build =>
    refine h.exec_of_rule (fun _ => rfl) (.ite ?_ (fun _ => .error _) fun hn => .ended ?_)
    · rw [TreeBuilder.noSymbols, TreeBuilder.noSymbols, h.freq]
    · exact h.with_tree (h.builder.buildTree h.cfg (Bool.eq_false_iff.2 hn))
  | rdn j =>
    refine h.exec_of_rule (fun _ => rfl) (.ite ?_ (fun _ => h.read ?_) fun _ => .error _)
    · rw [h.treeValid]
    · exact h.builder.node.linksData j
  | rdnf j =>
    refine h.exec_of_rule (fun _ => rfl) (.ite ?_ (fun _ => h.read ?_) fun _ => .error _)
    · rw [h.treeValid]
    · exact h.builder.node.freqData j
  | gen =>
    refine h.exec_of_rule (fun _ => rfl) (.ite ?_ (fun hv => ?_) fun _ => .error _)
    · rw [h.treeValid]
    · rcases h.builder.gen (hi.tree.valid hv) (hi'.tree.valid (h.treeValid.trans hv)) h.codeTable with
        ⟨e, hs, hu⟩ | ⟨g, g', hs, hu, hg⟩ <;> simp only [hs, hu]
      · exact .error e
      · exact .ended (h.with_table hg)
  | rdcl x =>
    refine h.exec_of_rule (fun _ => rfl) (h.read ?_)
    exact (h.codeTable.entry x).congr (fun e => if e.v then codeLength e.code else 0#64) fun a b ha hb => by
      simp [ha, hb]
  | rdcw x w =>
    refine h.exec_of_rule (fun _ => rfl) (h.read ?_)
    exact (h.codeTable.entry x).congr (fun e => if e.v then codeWord e.code w else 0#64) fun a b ha hb => by
      simp [ha, hb]
  | tclr => exact h.exec_of_rule (fun _ => rfl) (.ended (h.with_table h.codeTable.tclr))
  | tsym x =>
    refine h.exec_of_rule (fun _ => rfl)
      (.ite ?_ (fun _ => .error _) fun _ => .ite ?_ (fun _ => .error _) fun _ => .ended (h.with_table ?_))
    · rw [h.topen]
    · rw [h.entry_v]
    · exact h.codeTable.tsym x
  | tbit b =>
    refine h.exec_of_rule (fun _ => rfl) (.ite ?_ (fun _ => .error _) fun ho => ?_)
    · rw [h.topen]
    · have ho : s.table.topen = true := by simpa using ho
      refine .ite ?_ (fun _ => .error _) fun _ => .ended (h.with_table (h.codeTable.tbit ho b))
      rw [(h.opened ho).2]
  | tend =>
    refine h.exec_of_rule (fun _ => rfl) (.ite ?_ (fun _ => .error _) fun ho => ?_)
    · rw [h.topen]
    · have ho : s.table.topen = true := by simpa using ho
      refine .ite ?_ (fun _ => .error _) fun _ => .ended (h.with_table (h.codeTable.tend ho))
      rw [(h.opened ho).2]
  | tchk =>
    refine h.exec_of_rule (fun _ => rfl)
      (.ite ?_ (fun _ => .error _) fun _ => .ite ?_ (fun _ => .error _) fun _ => .ended (h.with_table ?_))
    · rw [h.topen]
    · rw [h.codeTable.ambig]
    · exact h.codeTable.tchk
  | pinit =>
    refine h.exec_of_rule (fun _ => rfl) ?_
    rw [storeByte_ok s.cfg.pmemBytes_pos, storeByte_ok u.cfg.pmemBytes_pos]
    exact .ended (h.with_pack (.start ..))
  | pbit b =>
    refine h.exec_of_rule (fun _ => rfl) (.ite ?_ (fun _ => ?_) fun _ => .error _)
    · rw [h.pstate]
    · rcases h.packer.pPush h.cfg b with ⟨e, hs, hu⟩ | ⟨p, q, hs, hu, hpq⟩ <;> simp only [hs, hu]
      · exact .error e
      · exact .ended (h.with_pack hpq)
  | enc x =>
    refine h.exec_of_rule (fun _ => rfl)
      (.ite ?_ (fun _ => .ite ?_ (fun hv => ?_) fun _ => .error _) fun _ => .error _)
    · rw [h.pstate, h.ctValid]
    · rw [h.entry_v]
    · rw [(h.ct x).2 hv]
      rcases h.packer.pPushAll h.cfg (s.table.entry x).code with ⟨e, hs, hu⟩ | ⟨p, q, hs, hu, hpq⟩ <;>
        simp only [hs, hu]
      · exact .error e
      · exact .ended (h.with_pack hpq)
  | pflush =>
    refine h.exec_of_rule (fun _ => rfl) (.ite ?_ (fun _ => ?_) fun _ => .error _)
    · rw [h.pstate]
    · rw [h.packer.padCount_eq]
      rcases h.packer.flush h.cfg with ⟨e, hs, hu⟩ | ⟨p, q, hs, hu, hpq⟩ <;> simp only [hs, hu]
      · exact .error e
      · exact .ok ⟨h.with_pack hpq, rfl⟩
  | rdp a =>
    refine h.exec_of_rule (fun _ => rfl)
      (.ite ?_ (fun _ => .ite ?_ (fun _ => .error _) fun ha => ?_) fun _ => .error _)
    · rw [h.pstate]
    · rw [h.pwp]
    · rw [loadByte_congr (h.pmem _ (Nat.not_le.1 ha))]
      rcases loadByte s.pack.pmem a.toNat with e | v
      · exact .error e
      · exact h.read rfl
  | uinit m =>
    refine h.exec_of_rule (fun _ => rfl) (.ite ?_ (fun _ => .error _) fun _ => .ended ?_)
    · rw [h.ctValid]
    · have hdec : SameDecoder (if m then s.dec.start else s.dec) (if m then u.dec.start else u.dec) := by
        cases m
        · exact h.decoder
        · exact h.decoder.start
      exact
        { h.with_dec hdec with
          unpack := congrArg (fun k : Unpacker =>
            { k with umode := m, ustate := .pad, upad := 0#3, uholdv := false, ubitcnt := 0#64 }) h.unpack
          held := nofun }
  | ubyte v =>
    refine h.exec_of_rule (fun _ => rfl)
      (.ite ?_ (fun _ => .error _) fun _ => .ite ?_ (fun _ => .error _) fun _ => ?_)
    · rw [h.taking]
    · rw [h.linked]
    · have hpad : u.unpack.ustate = .pad ↔ s.unpack.ustate = .pad := by rw [h.ustate]
      rcases EndAlike.ite hpad (fun _ => h.takePadding v) (fun _ => h.takeData v) with
        ⟨e, hs, hu⟩ | ⟨t, t', hs, hu, ht⟩ <;> simp only [hs, hu]
      · exact .error e
      · exact .ended ht
  | uend =>
    refine h.exec_of_rule (fun _ => rfl)
      (.ite ?_ (fun _ => .error _) fun _ => .ite ?_ (fun _ => .error _) fun _ => ?_)
    · rw [h.taking]
    · rw [h.linked]
    · rcases h.releaseLast with ⟨e, hs, hu⟩ | ⟨t, t', hs, hu, ht⟩ <;> simp only [hs, hu]
      · exact .error e
      rcases ht.endPayload with ⟨e, hs, hu⟩ | ⟨r, r', hs, hu, hr⟩ <;> simp only [hs, hu]
      · exact .error e
      · exact .ended hr
  | dinit =>
    refine h.exec_of_rule (fun _ => rfl) (.ite ?_ (fun _ => .ended (h.with_dec h.decoder.start)) fun _ => .error _)
    rw [h.ctValid]
  | dbit b =>
    refine h.exec_of_rule (fun _ => rfl) (.ite ?_ (fun _ => ?_) fun _ => .error _)
    · rw [h.decoding]
    · rcases h.decoder.dStep h.codeTable h.cfg b with ⟨e, hs, hu⟩ | ⟨d, d', hs, hu, hd⟩ <;> simp only [hs, hu]
      · exact .error e
      · exact .ended (h.with_dec hd)
  | dend =>
    refine h.exec_of_rule (fun _ => rfl) (.ite ?_ (fun _ => ?_) fun _ => .error _)
    · rw [h.dstate]
    · rcases h.decoder.dFinish with ⟨e, hs, hu⟩ | ⟨d, d', hs, hu, hd⟩ <;> simp only [hs, hu]
      · exact .error e
      · exact .ended (h.with_dec hd)
  | rdo a =>
    refine h.exec_of_rule (fun _ => rfl)
      (.ite ?_ (fun _ => .ite ?_ (fun _ => .error _) fun ha => ?_) fun _ => .error _)
    · rw [h.dstate]
    · rw [h.ocnt]
    · rw [loadByte_congr (h.omem _ (Nat.not_le.1 ha))]
      rcases loadByte s.dec.omem a.toNat with e | v
      · exact .error e
      · exact h.read rfl

end

/-- Settles O60: both runs find the same at the port, and every command goes on alike (`SameSpecified.exec`). -/
theorem unspecifiedValuesAreNeverRead : Obligations.UnspecifiedValuesAreNeverRead := by
  intro s u t hi hi' h
  suffices GoOnAlike (step s) (step u) from this t
  rcases hq : s.port.inq with _ | ⟨w | _, rest⟩
  · have hq' : u.port.inq = [] := (congrArg Port.inq h.port).trans hq
    rw [step_of_nothing hq, step_of_nothing hq']
    exact .next h
  · have hq' : u.port.inq = .word w :: rest := (congrArg Port.inq h.port).trans hq
    have htaken := h.with_port (congrArg (fun p : Port => { p with inq := rest }) h.port)
    rcases hd : decode w with e | i
    · rw [step_of_illegal hq hd, step_of_illegal hq' hd]
      exact .next (htaken.illegalWord w)
    · rw [step_of_legal hq hd, step_of_legal hq' hd]
      exact htaken.exec (hi.with_port _) (hi'.with_port _) i
  · have hq' : u.port.inq = .rst :: rest := (congrArg Port.inq h.port).trans hq
    have htaken := h.with_port (congrArg (fun p : Port => { p with inq := rest }) h.port)
    rw [step_of_rst hq, step_of_rst hq']
    exact .next htaken.clearAll

end Sys2Proof.Machine
end
